-- ==== Sys2Proof/Word.lean ====
section
/-! DEFINITION. Words, keys, tokens and the node record: the vocabulary of spec/00_scope.md R14 to R18,
spec/10_state.md R32, R33 and spec/30_encoding.md R80, R90, R91. Types only. -/

namespace Sys2Proof

/-- A command word `CMD` (30_encoding.md R80). -/
abbrev CmdWord := BitVec 32

/-- The value of a READ_REG register: 32 bits (10_state.md R27). -/
abbrev RegWord := BitVec 32

/-- A symbol value: `SYM_W` bits, at most 64 (00_scope.md R10), zero-extended to 64. -/
abbrev SymVal := BitVec 64

/-- A node index, link or rank as software sees it: 24 bits (00_scope.md R12). -/
abbrev IndexWord := BitVec 24

/-- The kinds of a node (10_state.md R33). -/
inductive NodeKind where
  | internal
  | escape
  | ordinary
  | endMarker
  deriving DecidableEq, Repr, Inhabited

/-- One node-storage entry (10_state.md R32), its links `none` where the spec says NIL. The `rank` field of R32 is
derived from ORDER, as R37 allows. -/
structure Node where
  kind   : NodeKind
  sym    : SymVal
  weight : Nat
  low    : Option Nat
  high   : Option Nat
  parent : Option Nat
  deriving DecidableEq, Repr, Inhabited

/-- The kind of a key or literal (00_scope.md R16, 30_encoding.md R91): 0 = ORD, 1 = END. -/
inductive KeyKind where
  | ord
  | endMark
  deriving DecidableEq, Repr, Inhabited

/-- A key `(kind, value)` (00_scope.md R16). -/
structure Key where
  kind  : KeyKind
  value : SymVal
  deriving DecidableEq, Repr, Inhabited

/-- A literal of the fallback channel "is exactly the key" (30_encoding.md R91). -/
abbrev Literal := Key

/-- A token of BIT_IN (30_encoding.md R90). -/
inductive BitToken where
  | bit (b : Bool)
  | eos
  deriving DecidableEq, Repr, Inhabited

/-- A token of LIT_IN (30_encoding.md R91). -/
inductive LitToken where
  | lit (l : Literal)
  | eos
  deriving DecidableEq, Repr, Inhabited

end Sys2Proof
end

