-- ==== Sys2Proof/Syntax.lean ====
section
/-! DEFINITION. The commands: one constructor per row of spec/opcode_table.json (spec/30_encoding.md R82). -/

namespace Sys2Proof

/-- A command. The argument of READ_REG and READ_NODE is an unsigned number (30_encoding.md R83); `Instr.wf` bounds it
by its 24 bits. `SYM_IN`, which only ENCODE reads (R85), is no part of the command word (R80): it is sampled at the
command port. -/
inductive Instr where
  | nop
  | init
  | encode
  | encodeNull
  | decode
  | readReg (n : Nat)
  | readNode (i : Nat)
  deriving DecidableEq, Repr, Inhabited

end Sys2Proof
end

