-- ==== Sys2Proof/WellFormed.lean ====
section
/-! DEFINITION. Which commands have a command word (spec/30_encoding.md R81, R83, R95). -/

namespace Sys2Proof

/-- ARG is 24 bits wide (30_encoding.md R81); "`<n>` and `<i>` are 0 to 0xFFFFFF ... The assembler refuses a value out of
range rather than truncating it" (R95). -/
def argFits (a : Nat) : Bool := decide (a ≤ 0xFFFFFF)

/-- A command is well formed when its argument fits ARG; the commands without an argument always are. -/
def Instr.wf : Instr → Bool
  | .nop        => true
  | .init       => true
  | .encode     => true
  | .encodeNull => true
  | .decode     => true
  | .readReg n  => argFits n
  | .readNode i => argFits i

end Sys2Proof
end

