-- ==== Sys2Proof/Decode.lean ====
section
/-! DEFINITION. The command decoder of spec/30_encoding.md R81 to R86, total on every 32-bit word, and the encoder. -/

namespace Sys2Proof

/-- Why a word is illegal (30_encoding.md R84): all three are answered ILLEGAL_COMMAND. -/
inductive IllegalWord where
  /-- `CMD[7:4] != 0`. -/
  | mbzNotZero
  /-- OPC is 0x7 to 0xF. -/
  | reservedOpcode
  /-- `CMD[31:8] != 0` for an opcode other than READ_REG and READ_NODE. -/
  | argNotZero
  deriving DecidableEq, Repr

/-- `OPC = CMD[3:0]` (30_encoding.md R81). -/
def opcOf (w : CmdWord) : BitVec 4 := w.extractLsb' 0 4

/-- `MBZ = CMD[7:4]` (30_encoding.md R81). -/
def mbzOf (w : CmdWord) : BitVec 4 := w.extractLsb' 4 4

/-- `ARG = CMD[31:8]`, "an unsigned 24-bit number used as it stands" (30_encoding.md R81, R83). -/
def argOf (w : CmdWord) : BitVec 24 := w.extractLsb' 8 24

/-- A command that must have ARG = 0 (30_encoding.md R82, R84). -/
def withoutArg (w : CmdWord) (i : Instr) : Except IllegalWord Instr :=
  if argOf w = 0#24 then .ok i else .error .argNotZero

/-- `Decode(CMD)` (30_encoding.md R86). -/
def decode (w : CmdWord) : Except IllegalWord Instr :=
  if mbzOf w ≠ 0#4 then .error .mbzNotZero
  else match (opcOf w).toNat with
    | 0x0 => withoutArg w .nop
    | 0x1 => withoutArg w .init
    | 0x2 => withoutArg w .encode
    | 0x3 => withoutArg w .encodeNull
    | 0x4 => withoutArg w .decode
    | 0x5 => .ok (.readReg (argOf w).toNat)
    | 0x6 => .ok (.readNode (argOf w).toNat)
    | _   => .error .reservedOpcode

/-- The three fields of 30_encoding.md R81 put together, MBZ zero. -/
def packWord (opc : BitVec 4) (arg : BitVec 24) : CmdWord := arg ++ 0#4 ++ opc

/-- The command word of a well-formed command, from the opcode map of 30_encoding.md R82. -/
def encode : Instr → CmdWord
  | .nop        => packWord 0x0#4 0#24
  | .init       => packWord 0x1#4 0#24
  | .encode     => packWord 0x2#4 0#24
  | .encodeNull => packWord 0x3#4 0#24
  | .decode     => packWord 0x4#4 0#24
  | .readReg n  => packWord 0x5#4 (BitVec.ofNat 24 n)
  | .readNode i => packWord 0x6#4 (BitVec.ofNat 24 i)

/-- The command word an opcode-table row's bits stand for: every command is one 32-bit word (30_encoding.md R80), so the
bits of the row at and above `nbits` are zero and a number with a bit above 31 is no command word. -/
def tableWord (nbits w : Nat) : Option CmdWord :=
  if w % 2 ^ nbits < 2 ^ 32 then some (BitVec.ofNat 32 (w % 2 ^ nbits)) else none

/-- The command `decode` reads from the bits of an opcode-table row, `none` where it refuses. -/
def decodeTableWord (nbits w : Nat) : Option Instr :=
  match tableWord nbits w with
  | none => none
  | some c => (decode c).toOption

end Sys2Proof
end

