-- ==== Sys2Proof/Config.lean ====
section
/-! DEFINITION. What is fixed when the block is built (spec/00_scope.md R10 to R12, spec/70_reset_and_hazards.md R243),
the identity constants (spec/10_state.md R27), and the values the spec leaves unspecified, as constants without a body. -/

namespace Sys2Proof

/-- The parameters of one instance (00_scope.md R10 to R12). -/
structure Params where
  symW    : Nat
  weightW : Nat
  nodeCap : Nat
  deriving DecidableEq, Repr, Inhabited

/-- The legal ranges of 00_scope.md R10, R11 and R12. -/
abbrev Params.Legal (p : Params) : Prop :=
  (1 ≤ p.symW ∧ p.symW ≤ 64) ∧ (1 ≤ p.weightW ∧ p.weightW ≤ 32) ∧ (3 ≤ p.nodeCap ∧ p.nodeCap ≤ 16777215)

/-- The defaults of 00_scope.md R10, R11 and R12. -/
def Config.defaultParams : Params := { symW := 32, weightW := 32, nodeCap := 8191 }

/-- READ_REG 0x00, ASCII "HUFF" (10_state.md R27). -/
def Config.idWord : RegWord := 0x48554646#32

/-- READ_REG 0x01 (10_state.md R27, 00_scope.md R2). -/
def Config.versionWord : RegWord := 0x00000001#32

/-- FREE VALUE. DESIGN CHOICE (log 4), safe: the contents of a free node-storage entry (10_state.md R36: unspecified;
93_implementation_defined.md U12: any value). No rule reads one. -/
opaque Config.freeEntry : Nat → Node

/-- FREE VALUE. DESIGN CHOICE (log 4), safe: `ORDER[r]` at a rank that holds no allocated node
(93_implementation_defined.md U13: any value). No rule reads one. -/
opaque Config.freeRank : Nat → Nat

/-- FREE VALUE. DESIGN CHOICE (log 5), safe: the path of a node that no path of links leads to from the root. The spec
defines `PathTo` by the edges of the path (00_scope.md R17) and states nothing where there is none; only a state that
breaks `WF` has such a node. -/
opaque Config.unstatedPath : Nat → List Bool

end Sys2Proof
end

