-- ==== Sys2Proof/Machine/State.lean ====
section
/-! DEFINITION. The state of one instance (spec/10_state.md R20 to R49), its command port and channels
(spec/20_memory.md R64 to R67, spec/30_encoding.md R80), the event history (spec/20_memory.md R74), the host's script
(spec/70_reset_and_hazards.md R249, R257), and the state after reset. -/

namespace Sys2Proof.Machine

/-- `REG.STATE` (10_state.md R24). Value 3 is never taken. -/
inductive EngineState where
  | ready
  | ended
  | fault
  deriving DecidableEq, Repr, Inhabited

/-- `REG.LAST_RESULT` (10_state.md R25). Values 6 to 15 are never written. -/
inductive ResultCode where
  | none
  | encKnown
  | encNew
  | decKnown
  | decNew
  | decEnd
  deriving DecidableEq, Repr, Inhabited

/-- The causes of a terminal fault (60_exceptions.md R211, codes 1 to 5). -/
inductive FaultCause where
  | truncatedStream
  | truncatedFallback
  | corruptTree
  | capacityExceeded
  | weightOverflow
  deriving DecidableEq, Repr, Inhabited

/-- The rejections (60_exceptions.md R211, R216, codes 6 to 8). -/
inductive RejectCode where
  | illegalCommand
  | badArg
  | notReady
  deriving DecidableEq, Repr, Inhabited

/-- READ_NODE's node record with the widths of 10_state.md R32 (44_host_commands.md R196): `sym` and `weight` are the
SYM_W-bit and WEIGHT_W-bit values zero-extended (log 23). -/
structure NodeRecord where
  kind   : BitVec 2
  sym    : SymVal
  weight : BitVec 32
  low    : IndexWord
  high   : IndexWord
  parent : IndexWord
  rank   : IndexWord
  deriving DecidableEq, Repr, Inhabited

/-- The response record (30_encoding.md R88). -/
structure Response where
  status   : BitVec 4
  result   : BitVec 4
  data     : BitVec 32
  keyKind  : BitVec 1
  keyValue : SymVal
  node     : NodeRecord
  deriving DecidableEq, Repr, Inhabited

/-- One event of the block's event history (20_memory.md R74). -/
inductive Event where
  /-- `BitWrite(b)`. -/
  | bitWrite (b : Bool)
  /-- `LitWrite(l)`. -/
  | litWrite (l : Literal)
  /-- `BitRead()` returned this token; a bit was removed, EOS was left in place. -/
  | bitRead (t : BitToken)
  /-- `LitRead()` returned this token; a literal was removed, EOS was left in place. -/
  | litRead (t : LitToken)
  /-- `IndexInsert(key, i)`. -/
  | indexInsert (key : Key) (i : Nat)
  /-- `Respond(...)`. -/
  | respond (r : Response)
  /-- The hardware reset was asserted (70_reset_and_hazards.md R240). -/
  | hardwareReset
  deriving DecidableEq, Repr, Inhabited

/-- What the host can do to the block (70_reset_and_hazards.md R249, R253). -/
inductive HostEvent where
  /-- Issue a command word with `SYM_IN` (30_encoding.md R80). -/
  | issue (cmd : CmdWord) (symIn : SymVal)
  /-- Append a token to `BIT_IN`. -/
  | appendBit (t : BitToken)
  /-- Append a token to `LIT_IN`. -/
  | appendLit (t : LitToken)
  /-- Drain: take the head of `BIT_OUT`. -/
  | takeBit
  /-- Drain: take the head of `LIT_OUT`. -/
  | takeLit
  /-- Remove the head token of `BIT_IN`, EOS included, with no command in flight (R253, log 22). -/
  | dropBitIn
  /-- Remove the head token of `LIT_IN`, EOS included, with no command in flight (R253, log 22). -/
  | dropLitIn
  /-- Assert the hardware reset (R240). -/
  | hardwareReset
  deriving DecidableEq, Repr, Inhabited

/-- The code tree: the allocated node-storage entries, in index order, and the weight-order list (10_state.md R30, R32,
R36, R37). `REG.NODE_COUNT` is the number of entries and `rank` the position in `order`. -/
structure CodeTree where
  nodes : List Node
  order : List Nat
  deriving DecidableEq, Repr, Inhabited

/-- The state of one instance and of the streams it is connected to. -/
structure State where
  /-- `SYM_W`, `WEIGHT_W`, `NODE_CAP`: fixed when the block is built (70_reset_and_hazards.md R243). -/
  params     : Params
  /-- `REG.STATE` (10_state.md R24). -/
  engine     : EngineState
  /-- `REG.LAST_RESULT` (10_state.md R25). -/
  lastResult : ResultCode
  /-- `REG.ERR_CAUSE` (10_state.md R26), `none` being its value 0. -/
  errCause   : Option FaultCause
  /-- `REG.LAST_LEN` (10_state.md R29). -/
  lastLen    : BitVec 32
  /-- The node storage, `REG.NODE_COUNT` and `ORDER` (10_state.md R30 to R37). -/
  tree       : CodeTree
  /-- The command word issued and not yet answered (30_encoding.md R80). -/
  cmd        : Option CmdWord
  /-- `SYM_IN` at the command port (30_encoding.md R80). -/
  symIn      : SymVal
  /-- `BIT_IN` (20_memory.md R65). -/
  bitIn      : List BitToken
  /-- `LIT_IN` (20_memory.md R67). -/
  litIn      : List LitToken
  /-- `BIT_OUT` (20_memory.md R64). -/
  bitOut     : List Bool
  /-- `LIT_OUT` (20_memory.md R66). -/
  litOut     : List Literal
  /-- Every event of the block, oldest first (20_memory.md R74). -/
  history    : List Event
  /-- The MODEL's own field: the host's actions still to come, next first (log 10). -/
  host       : List HostEvent
  deriving DecidableEq, Repr, Inhabited

/-- Reasons to stop with a fault: none. Every error of the spec is a response with a next state (60_exceptions.md R210,
R217, R218), so no path of the model ends in this outcome (log 26). -/
inductive Fault where
  deriving DecidableEq, Repr

/-- Reasons to refuse a step. -/
inductive Refusal where
  /-- Raised by a refused arm of `exec` for an instruction without a meaning; no arm is one. Safe. -/
  | notModelled (mnemonic : String)
  /-- Raised by the host's turn when the script issues a word while a command is in flight: "not specified by this spec"
  (70_reset_and_hazards.md R250, 93_implementation_defined.md U3: refuse). Safe. -/
  | commandInFlight
  /-- Raised by the host's turn when the script removes an input token while a DECODE is held: only an append lifts a hold
  (20_memory.md R65, 41_decode.md R132), and then the host may touch only the tail of an input (70_reset_and_hazards.md
  R249). Safe. -/
  | removalInFlight
  deriving DecidableEq, Repr

/-- The state after reset of an instance built with parameters `p`: the values of 10_state.md R48 and R49; empty command
port, channels, history and script (DESIGN CHOICE, log 14). -/
def State.resetWith (p : Params) : State where
  params     := p
  engine     := .ready
  lastResult := .none
  errCause   := Option.none
  lastLen    := 0#32
  tree       :=
    { nodes := [ { kind := .internal, sym := 0#64, weight := 0, low := some 1, high := Option.none, parent := Option.none },
                 { kind := .escape, sym := 0#64, weight := 0, low := Option.none, high := Option.none, parent := some 0 } ]
      order := [1, 0] }
  cmd        := Option.none
  symIn      := 0#64
  bitIn      := []
  litIn      := []
  bitOut     := []
  litOut     := []
  history    := []
  host       := []

/-- The machine right after reset, built with the default parameters (10_state.md R48, R49, 00_scope.md R10 to R12). -/
def State.reset : State := State.resetWith Config.defaultParams

end Sys2Proof.Machine
end

