-- ==== Sys2Proof/Machine/Flags.lean ====
section
/-! DEFINITION. The code numbers of the status, result, state, cause and kind fields (spec/10_state.md R24 to R28, R33;
spec/60_exceptions.md R211; spec/30_encoding.md R88, R91) and the STATUS register. The block has no condition flags
(spec/10_state.md R54). -/

namespace Sys2Proof.Machine

/-- `REG.STATE` as its 2-bit number (10_state.md R24). -/
def EngineState.code : EngineState → BitVec 2
  | .ready => 0#2
  | .ended => 1#2
  | .fault => 2#2

/-- `REG.LAST_RESULT` as its 4-bit number (10_state.md R25). -/
def ResultCode.code : ResultCode → BitVec 4
  | .none     => 0#4
  | .encKnown => 1#4
  | .encNew   => 2#4
  | .decKnown => 3#4
  | .decNew   => 4#4
  | .decEnd   => 5#4

/-- The status code of a fault (60_exceptions.md R211). -/
def FaultCause.code : FaultCause → BitVec 4
  | .truncatedStream   => 1#4
  | .truncatedFallback => 2#4
  | .corruptTree       => 3#4
  | .capacityExceeded  => 4#4
  | .weightOverflow    => 5#4

/-- The status code of a rejection (60_exceptions.md R211). -/
def RejectCode.code : RejectCode → BitVec 4
  | .illegalCommand => 6#4
  | .badArg         => 7#4
  | .notReady       => 8#4

/-- The status OK (60_exceptions.md R211). -/
def statusOk : BitVec 4 := 0#4

/-- `REG.ERR_CAUSE` as its 8-bit number: 0 or the fault's code (10_state.md R26). -/
def errCauseCode : Option FaultCause → BitVec 8
  | none   => 0#8
  | some c => c.code.setWidth 8

/-- The kind field of a node as its 2-bit number (10_state.md R33). -/
def kindCode : NodeKind → BitVec 2
  | .internal  => 0#2
  | .escape    => 1#2
  | .ordinary  => 2#2
  | .endMarker => 3#2

/-- A key's kind as its 1-bit number (30_encoding.md R91). -/
def keyKindCode : KeyKind → BitVec 1
  | .ord     => 0#1
  | .endMark => 1#1

/-- The STATUS register, READ_REG 0x08 (10_state.md R28): STATE in 1:0, LAST_RESULT in 7:4, ERR_CAUSE in 15:8, and the
reserved bits 3:2 and 31:16 hardwired 0. -/
def statusWord (s : State) : RegWord :=
  0#16 ++ errCauseCode s.errCause ++ s.lastResult.code ++ 0#2 ++ s.engine.code

end Sys2Proof.Machine
end

