-- ==== Sys2Proof/Machine/Ops.lean ====
section
/-! DEFINITION. The named operations over the node storage and ORDER (spec/00_scope.md R14, R17), over the channels
(spec/00_scope.md R15, spec/20_memory.md R64 to R67), the response (spec/30_encoding.md R88), taking a fault and
rejecting (spec/60_exceptions.md R217, R218), and the return to the reset state (spec/44_host_commands.md R192,
spec/70_reset_and_hazards.md R240). -/

namespace Sys2Proof.Machine

/-! ## The node storage -/

/-- `ROOT` is index 0 (10_state.md R35). -/
abbrev ROOT : Nat := 0

/-- `ESC` is index 1 (10_state.md R35). -/
abbrev ESC : Nat := 1

/-- `REG.NODE_COUNT`, "the number of allocated node-storage entries" (10_state.md R30). -/
def CodeTree.count (t : CodeTree) : Nat := t.nodes.length

/-- `NODE[i]`; a free entry's contents are unspecified (10_state.md R36). -/
def CodeTree.node (t : CodeTree) (i : Nat) : Node := t.nodes.getD i (Config.freeEntry i)

/-- `ORDER[r]` (10_state.md R37). -/
def CodeTree.at (t : CodeTree) (r : Nat) : Nat := t.order.getD r (Config.freeRank r)

/-- `NODE[i].rank`, the position of `i` in `ORDER` (10_state.md R37). -/
def CodeTree.rank (t : CodeTree) (i : Nat) : Nat := t.order.idxOf i

/-- `NODE[i] <- f NODE[i]`: one entry written as a whole record (20_memory.md R62). -/
def CodeTree.modifyNode (t : CodeTree) (i : Nat) (f : Node → Node) : CodeTree :=
  { t with nodes := t.nodes.modify i f }

/-- `NODE[i].parent <- p`. -/
def CodeTree.setParent (t : CodeTree) (i : Nat) (p : Option Nat) : CodeTree :=
  t.modifyNode i fun nd => { nd with parent := p }

/-- `IsLeaf(i)` (00_scope.md R17). -/
def CodeTree.isLeaf (t : CodeTree) (i : Nat) : Bool := (t.node i).kind != .internal

/-- The chain of parents above `i`, nearest first, at most `fuel` of them. -/
def CodeTree.climb (t : CodeTree) : (fuel i : Nat) → List Nat
  | 0, _ => []
  | f + 1, i =>
    match (t.node i).parent with
    | none => []
    | some p => p :: t.climb f p

/-- `Ancestor(a, i)` (00_scope.md R17): `a` is the parent of `i`, or its parent's parent, and so on. In a tree the chain is
shorter than `REG.NODE_COUNT`. -/
def CodeTree.ancestor (t : CodeTree) (a i : Nat) : Bool := decide (a ∈ t.climb t.count i)

/-- `Related(a, b)` (00_scope.md R17). -/
def CodeTree.related (t : CodeTree) (a b : Nat) : Bool := a == b || t.ancestor a b || t.ancestor b a

/-- The edges from the root down to `i`, found from below; `none` where the links hold no such path within `fuel` edges. -/
def CodeTree.pathWithin (t : CodeTree) : (fuel i : Nat) → Option (List Bool)
  | 0, i => if i = ROOT then some [] else none
  | f + 1, i =>
    if i = ROOT then some []
    else match (t.node i).parent with
      | none => none
      | some p =>
        if (t.node p).low = some i then (t.pathWithin f p).map (· ++ [false])
        else if (t.node p).high = some i then (t.pathWithin f p).map (· ++ [true])
        else none

/-- `PathTo(i)` (00_scope.md R17): the bits from ROOT down to `i`, 0 for a low edge and 1 for a high edge, the first one
leaving ROOT. Where there is no path (only in a state that breaks `WF`) the value is free (log 5). -/
def CodeTree.pathTo (t : CodeTree) (i : Nat) : List Bool :=
  (t.pathWithin t.count i).getD (Config.unstatedPath i)

/-- `Depth(i)` (00_scope.md R17). -/
def CodeTree.depth (t : CodeTree) (i : Nat) : Nat := (t.pathTo i).length

/-- Entry `nd` is a leaf that carries `key` (00_scope.md R16, R17). -/
def carries (key : Key) (nd : Node) : Bool :=
  match key.kind with
  | .ord     => nd.kind == .ordinary && nd.sym == key.value
  | .endMark => nd.kind == .endMarker

/-- `Lookup(key)` (00_scope.md R17, 20_memory.md R69): the allocated leaf that carries `key`, `none` for NIL. -/
def CodeTree.lookup (t : CodeTree) (key : Key) : Option Nat := t.nodes.findIdx? (carries key)

/-- The largest weight, `2^WEIGHT_W - 1` (00_scope.md R11). -/
def maxWeight (p : Params) : Nat := 2 ^ p.weightW - 1

/-- A `SYM_W`-bit value in 64 bits: what the `SYM_W` wires of a symbol port carry (00_scope.md R10, log 7). -/
def symbolOf (p : Params) (v : SymVal) : SymVal := (v.setWidth p.symW).setWidth 64

/-- `NODE[ROOT].weight == 2^WEIGHT_W - 1` (40_encode.md R108): one more occurrence would overflow. -/
def State.atMaxWeight (s : State) : Bool := (s.tree.node ROOT).weight == maxWeight s.params

/-! ## The response -/

/-- The node record of a response that carries none: "all zero" (30_encoding.md R88). -/
def NodeRecord.zero : NodeRecord :=
  { kind := 0#2, sym := 0#64, weight := 0#32, low := 0#24, high := 0#24, parent := 0#24, rank := 0#24 }

/-- `Respond(status, 0, 0, (0, 0))` (30_encoding.md R88): every field but the status zero. -/
def Response.ofStatus (st : BitVec 4) : Response :=
  { status := st, result := 0#4, data := 0#32, keyKind := 0#1, keyValue := 0#64, node := .zero }

/-- `Respond(OK, 0, v, (0, 0))`. -/
def Response.okData (v : BitVec 32) : Response := { Response.ofStatus statusOk with data := v }

/-- `Respond(OK, 0, 0, (0, 0))` with a node record (44_host_commands.md R195). -/
def Response.okNode (nd : NodeRecord) : Response := { Response.ofStatus statusOk with node := nd }

/-- `Respond(OK, res, zext_32(len), (0, 0))` of an encode (40_encode.md R102). -/
def Response.okEncode (res : ResultCode) (len : Nat) : Response :=
  { Response.ofStatus statusOk with result := res.code, data := BitVec.ofNat 32 len }

/-- `Respond(OK, res, zext_32(n), key)` of a decode (41_decode.md R121). -/
def Response.okDecode (res : ResultCode) (len : Nat) (key : Key) : Response :=
  { Response.ofStatus statusOk with
      result := res.code, data := BitVec.ofNat 32 len, keyKind := keyKindCode key.kind, keyValue := key.value }

/-- `Respond(...)` ends the command and sends the response record (00_scope.md R15). -/
def State.respond (s : State) (r : Response) : State :=
  { s with cmd := none, history := s.history ++ [.respond r] }

/-- `raise Fault(cause)` (60_exceptions.md R217): the one way a fault is taken. -/
def State.raiseFault (s : State) (c : FaultCause) : State :=
  { s with engine := .fault, errCause := some c }.respond (.ofStatus c.code)

/-- `raise Reject(code)` (60_exceptions.md R218). -/
def State.raiseReject (s : State) (c : RejectCode) : State := s.respond (.ofStatus c.code)

/-- The tree INIT builds (44_host_commands.md R192). -/
def CodeTree.initial : CodeTree :=
  { nodes := [ { kind := .internal, sym := 0#64, weight := 0, low := some ESC, high := none, parent := none },
               { kind := .escape, sym := 0#64, weight := 0, low := none, high := none, parent := some ROOT } ]
    order := [ESC, ROOT] }

/-- The one return from FAULT and ENDED (60_exceptions.md R221): the tree and the registers as INIT leaves them
(44_host_commands.md R192). Channels and parameters are untouched (R193). -/
def State.restart (s : State) : State :=
  { s with engine := .ready, lastResult := .none, errCause := none, lastLen := 0#32, tree := .initial }

/-- The hardware reset (70_reset_and_hazards.md R240, R242): the same state as INIT's; a held command ends with no
response; the channels are not touched. -/
def State.hardwareReset (s : State) : State :=
  { s.restart with cmd := none, history := s.history ++ [.hardwareReset] }

/-- The command word `w` is issued with `SYM_IN = v` (30_encoding.md R80). -/
def State.issue (s : State) (w : CmdWord) (v : SymVal) : State := { s with cmd := some w, symIn := v }

/-! ## The channels -/

/-- `BitWrite(b)` for each bit of a code in turn (20_memory.md R64). -/
def State.writeBits (s : State) (bs : List Bool) : State :=
  { s with bitOut := s.bitOut ++ bs, history := s.history ++ bs.map .bitWrite }

/-- `LitWrite(l)` (20_memory.md R66). -/
def State.writeLit (s : State) (l : Literal) : State :=
  { s with litOut := s.litOut ++ [l], history := s.history ++ [.litWrite l] }

/-- The first `n` tokens of `BIT_IN`, all bits, have been removed by `n` calls of `BitRead()` (20_memory.md R65). -/
def State.consumeBits (s : State) (n : Nat) : State :=
  { s with bitIn := s.bitIn.drop n, history := s.history ++ (s.bitIn.take n).map .bitRead }

/-- `BitRead()` returned `EOS` and left it in place (20_memory.md R65). -/
def State.readBitEos (s : State) : State := { s with history := s.history ++ [.bitRead .eos] }

/-- `LitRead()` removed the head literal `l` of `LIT_IN` (20_memory.md R67). -/
def State.consumeLit (s : State) (l : Literal) : State :=
  { s with litIn := s.litIn.tail, history := s.history ++ [.litRead (.lit l)] }

/-- `LitRead()` returned `EOS` and left it in place (20_memory.md R67). -/
def State.readLitEos (s : State) : State := { s with history := s.history ++ [.litRead .eos] }

/-- `IndexInsert(key, i)` (00_scope.md R15). -/
def State.indexInsert (s : State) (key : Key) (i : Nat) : State :=
  { s with history := s.history ++ [.indexInsert key i] }

/-- The node storage and `ORDER` are replaced. -/
def State.setTree (s : State) (t : CodeTree) : State := { s with tree := t }

/-- The result registers of a command that completed with status OK (10_state.md R25, R29). -/
def State.setResult (s : State) (res : ResultCode) (len : Nat) : State :=
  { s with lastResult := res, lastLen := BitVec.ofNat 32 len }

/-- `REG.STATE <- ENDED` (10_state.md R24). -/
def State.endStream (s : State) : State := { s with engine := .ended }

end Sys2Proof.Machine
end

