-- ==== Sys2Proof/Machine/Growth.lean ====
section
/-! DEFINITION. Tree growth, the internal operation Add (spec/42_tree_growth.md R140 to R145). -/

namespace Sys2Proof.Machine

/-- `P = NODE[ESC].parent` (42_tree_growth.md R140). `WF` has been checked, so the escape leaf has a parent (R39) and the
default is never used (log 20). -/
def CodeTree.escParent (t : CodeTree) : Nat := (t.node ESC).parent.getD ROOT

/-- Case A applies: the escape's parent has an empty high slot (42_tree_growth.md R140, R141). -/
def CodeTree.hasEmptySlot (t : CodeTree) : Bool := (t.node t.escParent).high == none

/-- `need`, the nodes a new key takes (40_encode.md R107). -/
def CodeTree.need (t : CodeTree) : Nat := if t.hasEmptySlot then 1 else 2

/-- The new leaf for `key` below `p`, weight 0 (42_tree_growth.md R140); `sym` is 0 for the end marker. -/
def newLeaf (key : Key) (p : Nat) : Node :=
  match key.kind with
  | .ord     => { kind := .ordinary, sym := key.value, weight := 0, low := none, high := none, parent := some p }
  | .endMark => { kind := .endMarker, sym := 0#64, weight := 0, low := none, high := none, parent := some p }

/-- New entries take the next free indices (42_tree_growth.md R143). -/
def CodeTree.allocate (t : CodeTree) (nds : List Node) : CodeTree := { t with nodes := t.nodes ++ nds }

/-- Case A (42_tree_growth.md R141): the leaf `L` takes the empty high slot of the escape's parent and rank 1 (R144). -/
def CodeTree.addBesideEscape (t : CodeTree) (key : Key) : CodeTree :=
  let l := t.count
  let t1 := (t.allocate [newLeaf key t.escParent]).modifyNode t.escParent fun nd => { nd with high := some l }
  { t1 with order := t.order.take 1 ++ [l] ++ t.order.drop 1 }

/-- Case B (42_tree_growth.md R142): the internal node `M` takes the escape's place, with the escape as its low child and
the leaf `L` as its high child; `L` takes rank 1 and `M` rank 2 (R144). -/
def CodeTree.addBelowParent (t : CodeTree) (key : Key) : CodeTree :=
  let p := t.escParent
  let m := t.count
  let l := t.count + 1
  let nodeM : Node :=
    { kind := .internal, sym := 0#64, weight := (t.node ESC).weight, low := some ESC, high := some l, parent := some p }
  let t1 := (t.allocate [nodeM, newLeaf key m]).modifyNode p fun nd =>
    if nd.low = some ESC then { nd with low := some m } else { nd with high := some m }
  let t2 := t1.setParent ESC (some m)
  { t2 with order := [ESC, l, m] ++ t.order.drop 1 }

/-- `Add(key)` (42_tree_growth.md R140), without its event: the grown tree. -/
def CodeTree.add (t : CodeTree) (key : Key) : CodeTree :=
  if t.hasEmptySlot then t.addBesideEscape key else t.addBelowParent key

/-- The leaf `L` that `Add` returns (42_tree_growth.md R143): the last index of the nodes it allocates. -/
def CodeTree.addedLeaf (t : CodeTree) : Nat := t.count + t.need - 1

end Sys2Proof.Machine
end

