-- ==== Sys2Proof/Machine/Operands.lean ====
section
/-! DEFINITION. The operand forms: SYM_IN as a key (spec/30_encoding.md R85), a register number (spec/10_state.md R27,
R31), a node index (spec/44_host_commands.md R195, R196), a literal read as a key (spec/30_encoding.md R91). -/

namespace Sys2Proof.Machine

/-- The key of the end marker, `(END, 0)` (00_scope.md R16). -/
def endKey : Key := { kind := .endMark, value := 0#64 }

/-- The ordinary key of a symbol value on a `SYM_W`-bit port (00_scope.md R16). -/
def ordKey (p : Params) (v : SymVal) : Key := { kind := .ord, value := symbolOf p v }

/-- ENCODE's operand, `(ORD, SYM_IN)` (40_encode.md R100). -/
def State.symKey (s : State) : Key := ordKey s.params s.symIn

/-- `LEAF_COUNT` (10_state.md R31). -/
def CodeTree.leafCount (t : CodeTree) : Nat := if t.count = 2 then 0 else (t.count - 1) / 2

/-- `CSR[n]`: the register READ_REG names by `n` (10_state.md R27); `none` for a number that is not listed. -/
def State.csr (s : State) (n : Nat) : Option RegWord :=
  match n with
  | 0x00 => some Config.idWord
  | 0x01 => some Config.versionWord
  | 0x02 => some (BitVec.ofNat 32 s.params.nodeCap)
  | 0x03 => some (BitVec.ofNat 32 s.params.weightW)
  | 0x04 => some (BitVec.ofNat 32 s.params.symW)
  | 0x08 => some (statusWord s)
  | 0x09 => some (BitVec.ofNat 32 s.tree.count)
  | 0x0A => some (BitVec.ofNat 32 s.tree.leafCount)
  | 0x0B => some (BitVec.ofNat 32 (s.tree.node ROOT).weight)
  | 0x0C => some s.lastLen
  | 0x0D => some (BitVec.ofNat 32 (s.tree.depth ESC))
  | 0x0E => some (BitVec.ofNat 32 ROOT)
  | 0x0F => some (BitVec.ofNat 32 ESC)
  | _    => none

/-- A link as software sees it: NIL is the all-ones 24-bit value (44_host_commands.md R196). -/
def linkWord : Option Nat → IndexWord
  | none   => 0xFFFFFF#24
  | some i => BitVec.ofNat 24 i

/-- READ_NODE's record of entry `i` (44_host_commands.md R195, R196). -/
def CodeTree.record (t : CodeTree) (i : Nat) : NodeRecord :=
  { kind   := kindCode (t.node i).kind
    sym    := (t.node i).sym
    weight := BitVec.ofNat 32 (t.node i).weight
    low    := linkWord (t.node i).low
    high   := linkWord (t.node i).high
    parent := linkWord (t.node i).parent
    rank   := BitVec.ofNat 24 (t.rank i) }

end Sys2Proof.Machine
end

