-- ==== Sys2Proof/Machine/Update.lean ====
section
/-! DEFINITION. The tree updater: Successor, Swap, Increment, Update (spec/43_tree_update.md R161 to R169). All are
functions of the node storage, ORDER and WEIGHT_W alone (R171). -/

namespace Sys2Proof.Machine

/-- The candidates of the comparator (43_tree_update.md R163): the nodes that rank above `x`, weigh the same and are not
`Related` to it, in ascending rank. -/
def CodeTree.candidates (t : CodeTree) (x : Nat) : List Nat :=
  (t.order.drop (t.rank x + 1)).filter fun y => (t.node y).weight == (t.node x).weight && !t.related y x

/-- `Successor(x)` (43_tree_update.md R163): "the highest-ranked such node, or NIL". -/
def CodeTree.successor (t : CodeTree) (x : Nat) : Option Nat := (t.candidates x).getLast?

/-- `if NODE[p].low == old then NODE[p].low <- new else NODE[p].high <- new` (43_tree_update.md R166). No node is swapped
whose parent is NIL (R168). -/
def CodeTree.replaceChild (t : CodeTree) (p : Option Nat) (old new : Nat) : CodeTree :=
  match p with
  | none => t
  | some p => t.modifyNode p fun nd => if nd.low = some old then { nd with low := some new } else { nd with high := some new }

/-- The sibling case of Swap (43_tree_update.md R167): the parent's `low` and `high` are exchanged. -/
def CodeTree.exchangeSlots (t : CodeTree) (p : Option Nat) : CodeTree :=
  match p with
  | none => t
  | some p => t.modifyNode p fun nd => { nd with low := nd.high, high := nd.low }

/-- The link part of `Swap(a, b)` (43_tree_update.md R166, R167). -/
def CodeTree.swapLinks (t : CodeTree) (a b : Nat) : CodeTree :=
  let pa := (t.node a).parent
  let pb := (t.node b).parent
  if pa = pb then t.exchangeSlots pa
  else (((t.replaceChild pa a b).replaceChild pb b a).setParent a pb).setParent b pa

/-- `Swap(a, b)` (43_tree_update.md R166): links, then ranks. -/
def CodeTree.swap (t : CodeTree) (a b : Nat) : CodeTree :=
  { t.swapLinks a b with order := (t.order.set (t.rank a) b).set (t.rank b) a }

/-- Steps 1 and 2 of a visit (43_tree_update.md R161): exchange `x` with its successor, if it has one. -/
def CodeTree.promote (t : CodeTree) (x : Nat) : CodeTree :=
  match t.successor x with
  | none => t
  | some s => t.swap x s

/-- Step 3 (43_tree_update.md R169): an unsigned `WEIGHT_W`-bit addition of one. -/
def CodeTree.increment (p : Params) (t : CodeTree) (x : Nat) : CodeTree :=
  t.modifyNode x fun nd => { nd with weight := (nd.weight + 1) % 2 ^ p.weightW }

/-- One visit of the loop of `Update` (43_tree_update.md R161, steps 1 to 3). -/
def CodeTree.visit (p : Params) (t : CodeTree) (x : Nat) : CodeTree := CodeTree.increment p (t.promote x) x

/-- The loop of `Update` (43_tree_update.md R161): visit, then move to the parent after the swap, until NIL. Every visit
ranks above the one before (10_state.md R45), so `REG.NODE_COUNT` visits are enough (log 20). R162 and R175 count
`Depth(x) + 1` visits with the depth taken before the pass; a swap with a shallower node makes the loop of R161 visit
fewer, and the loop is followed (DEDUCED, log 32). -/
def CodeTree.updateFrom (p : Params) : (fuel : Nat) → CodeTree → Option Nat → CodeTree
  | 0, t, _ => t
  | _ + 1, t, none => t
  | f + 1, t, some x => CodeTree.updateFrom p f (CodeTree.visit p t x) ((CodeTree.visit p t x).node x).parent

/-- `Update(x)` (43_tree_update.md R161). -/
def CodeTree.update (p : Params) (t : CodeTree) (x : Nat) : CodeTree := CodeTree.updateFrom p t.count t (some x)

end Sys2Proof.Machine
end

