-- ==== Sys2Proof/Machine/Wf.lean ====
section
/-! DEFINITION. The well-formedness predicate `WF` (spec/10_state.md R38 to R47), which ENCODE, ENCODE_NULL and DECODE
evaluate before anything else (spec/43_tree_update.md R170). Each conjunct carries the number of its rule. -/

namespace Sys2Proof.Machine

/-- R37, the type of `ORDER`: it lists every allocated index, each once. Part of the check (log 6). -/
abbrev CodeTree.OrderLists (t : CodeTree) : Prop :=
  t.order.length = t.count ∧ t.order.Nodup ∧ ∀ i ∈ t.order, i < t.count

/-- The parent part of R39: the root has none, and every other node is exactly one child of an allocated parent. -/
abbrev CodeTree.ParentsOk (t : CodeTree) : Prop :=
  (t.node ROOT).parent = none ∧
  ∀ i < t.count, i ≠ ROOT → ∃ p < t.count, (t.node i).parent = some p ∧
    ((t.node p).low = some i ∨ (t.node p).high = some i) ∧ ¬((t.node p).low = some i ∧ (t.node p).high = some i)

/-- The child part of R39: every child index is allocated and names a node whose parent is the node that holds it. -/
abbrev CodeTree.ChildrenOk (t : CodeTree) : Prop :=
  ∀ i < t.count,
    ((t.node i).low = none ∨ ∃ c < t.count, (t.node i).low = some c ∧ (t.node c).parent = some i) ∧
    ((t.node i).high = none ∨ ∃ c < t.count, (t.node i).high = some c ∧ (t.node c).parent = some i)

/-- The nodes reached from `i` by child links within `fuel` levels, in preorder, with repetitions. -/
def CodeTree.reach (t : CodeTree) : (fuel i : Nat) → List Nat
  | 0, _ => []
  | f + 1, i => i :: (((t.node i).low.toList ++ (t.node i).high.toList).flatMap (t.reach f))

/-- The reachability part of R39: "Every allocated node is reached from ROOT by following child links, and no node is
reached twice". -/
abbrev CodeTree.ReachedOnce (t : CodeTree) : Prop := ∀ i < t.count, (t.reach t.count ROOT).count i = 1

/-- R40, fullness with its one exception, and "A node has children if and only if its kind is INTERNAL". -/
abbrev CodeTree.Full (t : CodeTree) : Prop :=
  (3 ≤ t.count → ∀ i < t.count, ((t.node i).low = none ↔ (t.node i).high = none)) ∧
  (t.count = 2 → (t.node ROOT).low = some ESC ∧ (t.node ROOT).high = none) ∧
  ∀ i < t.count, ((t.node i).kind = .internal ↔ ¬((t.node i).low = none ∧ (t.node i).high = none))

/-- R41: exactly one allocated node has kind ESCAPE, and it is index ESC. -/
abbrev CodeTree.OneEscape (t : CodeTree) : Prop :=
  ESC < t.count ∧ ∀ i < t.count, ((t.node i).kind = .escape ↔ i = ESC)

/-- `W(j)` of R42: the weight of a child slot, 0 for NIL. -/
def CodeTree.slotWeight (t : CodeTree) : Option Nat → Nat
  | none   => 0
  | some j => (t.node j).weight

/-- R42: every INTERNAL node weighs the exact sum of its children. -/
abbrev CodeTree.SumsOk (t : CodeTree) : Prop :=
  ∀ i < t.count, (t.node i).kind = .internal →
    (t.node i).weight = t.slotWeight (t.node i).low + t.slotWeight (t.node i).high

/-- R43: weights do not decrease along `ORDER`. -/
abbrev CodeTree.WeightsOrdered (t : CodeTree) : Prop :=
  ∀ r < t.count - 1, (t.node (t.at r)).weight ≤ (t.node (t.at (r + 1))).weight

/-- R44: siblings are adjacent in `ORDER`, the low child below the high child, and the root is last. -/
abbrev CodeTree.SiblingsPaired (t : CodeTree) : Prop :=
  3 ≤ t.count →
    t.count % 2 = 1 ∧
    (∀ j < (t.count - 1) / 2, ∃ p < t.count,
      (t.node (t.at (2 * j))).parent = some p ∧ (t.node (t.at (2 * j + 1))).parent = some p ∧
      (t.node p).low = some (t.at (2 * j)) ∧ (t.node p).high = some (t.at (2 * j + 1))) ∧
    t.at (t.count - 1) = ROOT

/-- R45: the ends of `ORDER`, and every parent ranks above its child. -/
abbrev CodeTree.RankEnds (t : CodeTree) : Prop :=
  t.at 0 = ESC ∧ t.at (t.count - 1) = ROOT ∧
  ∀ i < t.count, i ≠ ROOT → ∃ p < t.count, (t.node i).parent = some p ∧ t.rank i < t.rank p

/-- R46: no two ORDINARY leaves have the same symbol, and at most one node has kind ENDMARKER. -/
abbrev CodeTree.KeysUnique (t : CodeTree) : Prop :=
  (∀ i < t.count, ∀ j < t.count,
    ((t.node i).kind = .ordinary ∧ (t.node j).kind = .ordinary ∧ (t.node i).sym = (t.node j).sym) → i = j) ∧
  ∀ i < t.count, ∀ j < t.count, ((t.node i).kind = .endMarker ∧ (t.node j).kind = .endMarker) → i = j

/-- R47: the escape leaf weighs 0 and every other leaf at least 1. -/
abbrev CodeTree.LeafWeights (t : CodeTree) : Prop :=
  (t.node ESC).weight = 0 ∧
  ∀ i < t.count, ((t.node i).kind = .ordinary ∨ (t.node i).kind = .endMarker) → 1 ≤ (t.node i).weight

/-- `WF` (10_state.md R38): R39 to R47 over the allocated entries, with R37's list (log 6). -/
def CodeTree.WF (t : CodeTree) : Prop :=
  t.OrderLists ∧ t.ParentsOk ∧ t.ChildrenOk ∧ t.ReachedOnce ∧ t.Full ∧ t.OneEscape ∧ t.SumsOk ∧
  t.WeightsOrdered ∧ t.SiblingsPaired ∧ t.RankEnds ∧ t.KeysUnique ∧ t.LeafWeights

/-- The check the block makes (43_tree_update.md R170): every conjunct of `WF` in turn. -/
def CodeTree.wf (t : CodeTree) : Bool :=
  decide t.OrderLists && decide t.ParentsOk && decide t.ChildrenOk && decide t.ReachedOnce &&
  decide t.Full && decide t.OneEscape && decide t.SumsOk && decide t.WeightsOrdered &&
  decide t.SiblingsPaired && decide t.RankEnds && decide t.KeysUnique && decide t.LeafWeights

end Sys2Proof.Machine
end

