-- ==== Sys2Proof/Machine/Encode.lean ====
section
/-! DEFINITION. The encode commands ENCODE and ENCODE_NULL (spec/40_encode.md R100 to R109). -/

namespace Sys2Proof.Machine

/-- A new key would pass `NODE_CAP` (40_encode.md R102, 60_exceptions.md R214). -/
def State.lacksRoom (s : State) : Bool := decide (s.params.nodeCap < s.tree.count + s.tree.need)

/-- The end of an OK encode (40_encode.md R102): the result registers, ENDED after the end marker, the response. -/
def State.finishEncode (s : State) (key : Key) (res : ResultCode) (len : Nat) : State :=
  let s1 := s.setResult res len
  let s2 := match key.kind with
    | .ord     => s1
    | .endMark => s1.endStream
  s2.respond (.okEncode res len)

/-- The Known branch of `EncodeKey` after its check (40_encode.md R102, R104): the code of the leaf as the tree stood
before, then one update pass. -/
def encodeKnown (key : Key) (leaf : Nat) (s : State) : State :=
  let bits := s.tree.pathTo leaf
  ((s.writeBits bits).setTree (CodeTree.update s.params s.tree leaf)).finishEncode key .encKnown bits.length

/-- The tree after a new key's growth and update pass (40_encode.md R102, 41_decode.md R125): the same operations for the
encoder and the decoder. -/
def grownTree (p : Params) (t : CodeTree) (key : Key) : CodeTree := CodeTree.update p (t.add key) t.addedLeaf

/-- The New branch of `EncodeKey` after its checks (40_encode.md R102, R105): the escape code as the tree stood before, the
literal, growth with its index event, one update pass. -/
def encodeNew (key : Key) (s : State) : State :=
  let bits := s.tree.pathTo ESC
  ((((s.writeBits bits).writeLit key).indexInsert key s.tree.addedLeaf).setTree
    (grownTree s.params s.tree key)).finishEncode key .encNew bits.length

/-- `EncodeKey(key)` (40_encode.md R102), its checks in the order of R103. -/
def encodeKey (key : Key) (s : State) : State :=
  if s.engine ≠ .ready then s.raiseReject .notReady
  else if s.tree.wf = false then s.raiseFault .corruptTree
  else match s.tree.lookup key with
    | some leaf =>
      if s.atMaxWeight then s.raiseFault .weightOverflow else encodeKnown key leaf s
    | none =>
      if s.lacksRoom then s.raiseFault .capacityExceeded
      else if s.atMaxWeight then s.raiseFault .weightOverflow
      else encodeNew key s

/-- ENCODE (40_encode.md R100): encode the ordinary symbol SYM_IN. -/
def execEncode (s : State) : Host.Outcome State Fault Refusal := .next (encodeKey s.symKey s)

/-- ENCODE_NULL (40_encode.md R101): encode the end marker. -/
def execEncodeNull (s : State) : Host.Outcome State Fault Refusal := .next (encodeKey endKey s)

end Sys2Proof.Machine
end

