-- ==== Sys2Proof/Machine/DecodeCommand.lean ====
section
/-! DEFINITION. The decode command DECODE (spec/41_decode.md R120 to R132). -/

namespace Sys2Proof.Machine

/-- How the walk of DECODE ends (41_decode.md R121, R132); `n` is the number of bits read. -/
inductive Walk where
  /-- BIT_IN was empty at an internal node: the command holds. -/
  | needMore
  /-- `BitRead()` returned EOS at an internal node (R129). -/
  | endOfStream (n : Nat)
  /-- A bit selected an empty slot (R131). -/
  | emptySlot (n : Nat)
  /-- The walk stands at the leaf `x`. -/
  | leaf (x n : Nat)
  deriving DecidableEq, Repr

/-- `DecodeFn`'s answer (20_memory.md R68). -/
inductive DecodeResult where
  | needMore
  | done (s : State)
  deriving DecidableEq, Repr

/-- `NODE[x].low if t == 0 else NODE[x].high` (41_decode.md R121). -/
def CodeTree.child (t : CodeTree) (x : Nat) (b : Bool) : Option Nat :=
  match b with
  | false => (t.node x).low
  | true  => (t.node x).high

/-- The walk (41_decode.md R121, R122) from node `x`, `n` bits already read, over the tokens of BIT_IN. -/
def CodeTree.walk (t : CodeTree) (x n : Nat) (toks : List BitToken) : Walk :=
  match toks with
  | [] => if t.isLeaf x then .leaf x n else .needMore
  | .eos :: _ => if t.isLeaf x then .leaf x n else .endOfStream n
  | .bit b :: rest =>
    if t.isLeaf x then .leaf x n
    else match t.child x b with
      | none => .emptySlot (n + 1)
      | some c => t.walk c (n + 1) rest

/-- An ordinary literal after the escape (41_decode.md R121, R125, R126): the checks, then growth and one update pass. -/
def decodeNew (key : Key) (n : Nat) (s : State) : State :=
  if (s.tree.lookup key).isSome then s.raiseFault .corruptTree
  else if s.lacksRoom then s.raiseFault .capacityExceeded
  else if s.atMaxWeight then s.raiseFault .weightOverflow
  else (((s.indexInsert key s.tree.addedLeaf).setTree (grownTree s.params s.tree key)).setResult .decNew n).respond
    (.okDecode .decNew n key)

/-- The END literal after the escape (41_decode.md R124): the stream ends, the tree is left alone. -/
def decodeEnd (n : Nat) (s : State) : State :=
  (s.endStream.setResult .decEnd n).respond (.okDecode .decEnd n endKey)

/-- A literal `l` read after the escape (41_decode.md R121); the value of an END literal is ignored (30_encoding.md R91). -/
def decodeLiteral (l : Literal) (n : Nat) (s : State) : State :=
  match l.kind with
  | .endMark => decodeEnd n s
  | .ord     => decodeNew (ordKey s.params l.value) n s

/-- The escape leaf (41_decode.md R123, R130): one literal is read, or the command holds. -/
def decodeEscape (n : Nat) (s : State) : DecodeResult :=
  match s.litIn with
  | []          => .needMore
  | .eos :: _   => .done ((s.consumeBits n).readLitEos.raiseFault .truncatedFallback)
  | .lit l :: _ => .done (decodeLiteral l n ((s.consumeBits n).consumeLit l))

/-- A known leaf `x`, ORDINARY or ENDMARKER (41_decode.md R121, R127): one update pass, then the symbol or the end. -/
def decodeKnown (x n : Nat) (s : State) : State :=
  if s.atMaxWeight then s.raiseFault .weightOverflow
  else
    let s1 := s.setTree (CodeTree.update s.params s.tree x)
    match (s1.tree.node x).kind with
    | .endMarker => decodeEnd n s1
    | _ => (s1.setResult .decKnown n).respond
        (.okDecode .decKnown n { kind := .ord, value := (s1.tree.node x).sym })

/-- The end of the walk at leaf `x` (41_decode.md R121). -/
def decodeAtLeaf (x n : Nat) (s : State) : DecodeResult :=
  match (s.tree.node x).kind with
  | .escape => decodeEscape n s
  | _ => .done (decodeKnown x n (s.consumeBits n))

/-- `DecodeFn(state, BIT_IN, LIT_IN)` (20_memory.md R68, 41_decode.md R121, R132), its checks in the order of R128. -/
def decodeFn (s : State) : DecodeResult :=
  if s.engine ≠ .ready then .done (s.raiseReject .notReady)
  else if s.tree.wf = false then .done (s.raiseFault .corruptTree)
  else match s.tree.walk ROOT 0 s.bitIn with
    | .needMore      => .needMore
    | .endOfStream n => .done ((s.consumeBits n).readBitEos.raiseFault .truncatedStream)
    | .emptySlot n   => .done ((s.consumeBits n).raiseFault .corruptTree)
    | .leaf x n      => decodeAtLeaf x n s

/-- The command that holds (41_decode.md R132): DECODE, when an input it needs is empty. No other command ever holds
(70_reset_and_hazards.md R252). -/
def holds (i : Instr) (s : State) : Bool :=
  match i with
  | .nop        => false
  | .init       => false
  | .encode     => false
  | .encodeNull => false
  | .decode     => decodeFn s == .needMore
  | .readReg _  => false
  | .readNode _ => false

/-- DECODE (41_decode.md R120). Held, it changes nothing: "the state and the channels are as before the command"
(95_test_vectors.md, conventions; log 11). -/
def execDecode (s : State) : Host.Outcome State Fault Refusal :=
  match decodeFn s with
  | .needMore => .next s
  | .done s'  => .next s'

end Sys2Proof.Machine
end

