-- ==== Sys2Proof/Machine/HostCommands.lean ====
section
/-! DEFINITION. The host commands NOP, INIT, READ_REG, READ_NODE and the answer to an illegal word
(spec/44_host_commands.md R190 to R197). -/

namespace Sys2Proof.Machine

/-- NOP (44_host_commands.md R190). -/
def execNop (s : State) : Host.Outcome State Fault Refusal := .next (s.respond (.ofStatus statusOk))

/-- INIT (44_host_commands.md R192, R193). -/
def execInit (s : State) : Host.Outcome State Fault Refusal := .next (s.restart.respond (.ofStatus statusOk))

/-- READ_REG (44_host_commands.md R194). -/
def execReadReg (n : Nat) (s : State) : Host.Outcome State Fault Refusal :=
  match s.csr n with
  | none   => .next (s.raiseReject .badArg)
  | some v => .next (s.respond (.okData v))

/-- READ_NODE (44_host_commands.md R195). -/
def execReadNode (i : Nat) (s : State) : Host.Outcome State Fault Refusal :=
  if i < s.tree.count then .next (s.respond (.okNode (s.tree.record i)))
  else .next (s.raiseReject .badArg)

/-- An illegal word (44_host_commands.md R197): the rejection ILLEGAL_COMMAND. -/
def rejectIllegal (s : State) : Host.Outcome State Fault Refusal := .next (s.raiseReject .illegalCommand)

end Sys2Proof.Machine
end

