-- ==== Sys2Proof/Machine/Dispatch.lean ====
section
/-! DEFINITION. One arm per command (spec/opcode_table.json, spec/30_encoding.md R82). -/

namespace Sys2Proof.Machine

def exec (i : Instr) (s : State) : Host.Outcome State Fault Refusal :=
  match i with
  | .nop => Sys2Proof.Machine.execNop s
  | .init => Sys2Proof.Machine.execInit s
  | .encode => Sys2Proof.Machine.execEncode s
  | .encodeNull => Sys2Proof.Machine.execEncodeNull s
  | .decode => Sys2Proof.Machine.execDecode s
  | .readReg n => Sys2Proof.Machine.execReadReg n s
  | .readNode k => Sys2Proof.Machine.execReadNode k s

end Sys2Proof.Machine
end

