-- ==== Sys2Proof/Machine/HostTurn.lean ====
section
/-! DEFINITION. The host's side (spec/70_reset_and_hazards.md R249, R250, R253, R257): what its next action does to the
block's port and channels. -/

namespace Sys2Proof.Machine

/-- Remove input tokens, which the host does between commands, before a new stream (70_reset_and_hazards.md R253). While a
DECODE is held it is no move of the host's: "Only the host lifts a hold, by appending a token" (41_decode.md R132), so it
is refused by name (log 22). -/
def whenIdle (s t : State) : Host.Outcome State Fault Refusal :=
  match s.cmd with
  | none   => .next t
  | some _ => .refused .removalInFlight

/-- What one action of the host does. A word issued while a command is in flight is not specified
(70_reset_and_hazards.md R250, 93_implementation_defined.md U3): refused by name (log 12). -/
def hostAction (e : HostEvent) (s : State) : Host.Outcome State Fault Refusal :=
  match e with
  | .issue w v     =>
    match s.cmd with
    | none   => .next (s.issue w v)
    | some _ => .refused .commandInFlight
  | .appendBit t   => .next { s with bitIn := s.bitIn ++ [t] }
  | .appendLit t   => .next { s with litIn := s.litIn ++ [t] }
  | .takeBit       => .next { s with bitOut := s.bitOut.tail }
  | .takeLit       => .next { s with litOut := s.litOut.tail }
  | .dropBitIn     => whenIdle s { s with bitIn := s.bitIn.tail }
  | .dropLitIn     => whenIdle s { s with litIn := s.litIn.tail }
  | .hardwareReset => .next s.hardwareReset

/-- The host's turn, when no command can run: its next action happens, or, when it does nothing more, the block waits as
it is ("it waits for the first command word", 70_reset_and_hazards.md R241; a hang of the host's making, R252). -/
def hostTurn (s : State) : Host.Outcome State Fault Refusal :=
  match s.host with
  | []      => .next s
  | e :: es => hostAction e { s with host := es }

/-- The bits of an opcode-table row placed at the command port, `SYM_IN` and everything else as it stands. -/
def State.placeCommand (s : State) (nbits w : Nat) : State :=
  { s with cmd := some (BitVec.ofNat 32 (w % 2 ^ nbits)) }

end Sys2Proof.Machine
end

