-- ==== Sys2Proof/Machine/Step.lean ====
section
/-! DEFINITION. One step (spec/10_state.md R22, spec/30_encoding.md R80, R86, spec/41_decode.md R132). -/

namespace Sys2Proof.Machine

/-- A legal command in flight: it runs as one atomic step (10_state.md R22), or, held, leaves the turn to the host
(41_decode.md R132). -/
def runCommand (i : Instr) (s : State) : Host.Outcome State Fault Refusal :=
  if holds i s then hostTurn s else exec i s

/-- One step. With no command in flight the host has its turn; a command in flight is decoded (30_encoding.md R86) and
run, or rejected when its word is illegal (R84). -/
def step (s : State) : Host.Outcome State Fault Refusal :=
  match s.cmd with
  | none => hostTurn s
  | some w =>
    match decode w with
    | .error _ => rejectIllegal s
    | .ok i => runCommand i s

/-- `s` with the opcode-table row's bits at the command port, where `step` takes its next command (log 13). -/
def State.withFetchWord (s : State) (nbits w : Nat) : State := s.placeCommand nbits w

end Sys2Proof.Machine
end

