-- ==== Sys2Proof/Machine/Assembler.lean ====
section
/-! DEFINITION. The assembler lines and pseudo-instructions of spec/30_encoding.md R95 and R96, as data: each line is one
command at the port. The text form of a line (comments, number bases) is not modelled (log 25). -/

namespace Sys2Proof.Machine

/-- One line of R95 or R96. -/
inductive AsmLine where
  | nop
  | init
  | enc (sym : Nat)
  | encNull
  | dec
  | rdreg (n : Nat)
  | rdnode (i : Nat)
  | word (w : Nat)
  | encEnd
  | rdstatus
  | rdweight
  deriving DecidableEq, Repr

/-- Expansion of the pseudo-instructions (30_encoding.md R96): each to exactly one other line. -/
def expandLine : AsmLine → AsmLine
  | .encEnd   => .encNull
  | .rdstatus => .rdreg 0x08
  | .rdweight => .rdreg 0x0B
  | .nop      => .nop
  | .init     => .init
  | .enc v    => .enc v
  | .encNull  => .encNull
  | .dec      => .dec
  | .rdreg n  => .rdreg n
  | .rdnode i => .rdnode i
  | .word w   => .word w

/-- A command whose argument is in range, at the port with `SYM_IN = v`; "The assembler refuses a value out of range rather
than truncating it" (30_encoding.md R95). -/
def assembleInstr (i : Instr) (v : SymVal) : Option HostEvent :=
  if i.wf then some (.issue (encode i) v) else none

/-- The line's command word and `SYM_IN` (30_encoding.md R95), for an expanded line; `SYM_IN` is 0 where it is ignored. -/
def assembleExpanded (p : Params) : AsmLine → Option HostEvent
  | .nop      => assembleInstr .nop 0#64
  | .init     => assembleInstr .init 0#64
  | .enc v    => if v < 2 ^ p.symW then assembleInstr .encode (BitVec.ofNat 64 v) else none
  | .encNull  => assembleInstr .encodeNull 0#64
  | .dec      => assembleInstr .decode 0#64
  | .rdreg n  => assembleInstr (.readReg n) 0#64
  | .rdnode i => assembleInstr (.readNode i) 0#64
  | .word w   => if w < 2 ^ 32 then some (.issue (BitVec.ofNat 32 w) 0#64) else none
  | .encEnd   => none
  | .rdstatus => none
  | .rdweight => none

/-- What the host issues for one line (30_encoding.md R95, R96), `none` where the assembler refuses it. -/
def assemble (p : Params) (l : AsmLine) : Option HostEvent := assembleExpanded p (expandLine l)

end Sys2Proof.Machine
end

