-- ==== Sys2Proof/Safety.lean ====
section
/-! DEFINITION. The terms claims use: the invariant of a state, what a response says, a safe run, and runs of many symbols
(spec/10_state.md R38 to R47; spec/60_exceptions.md R217; spec/41_decode.md R133). -/

namespace Sys2Proof.Machine

/-! ## The invariant -/

/-- From three nodes on, the escape's parent has rank 2. `WF` does not say so, and without it one update pass can break
`WF` (log 19); growth places it there (42_tree_growth.md R144) and no swap moves it. -/
def CodeTree.EscapeParentThird (t : CodeTree) : Prop := 3 ≤ t.count → (t.node ESC).parent = some (t.at 2)

/-- The sym field: within `SYM_W` bits on an ORDINARY leaf, 0 on every other node (10_state.md R32, R34). -/
def CodeTree.SymsFit (t : CodeTree) (p : Params) : Prop :=
  ∀ i < t.count, ((t.node i).kind = .ordinary → (t.node i).sym.toNat < 2 ^ p.symW) ∧
    ((t.node i).kind ≠ .ordinary → (t.node i).sym = 0#64)

/-- No node has kind ENDMARKER. -/
def CodeTree.NoEndLeaf (t : CodeTree) : Prop := ∀ i < t.count, (t.node i).kind ≠ .endMarker

/-- What every state reached from reset satisfies and every step keeps. -/
structure Inv (s : State) : Prop where
  /-- The parameters are legal (00_scope.md R10 to R12). -/
  legal : s.params.Legal
  /-- `WF` (10_state.md R38). -/
  wf : s.tree.WF
  /-- The strengthening of `WF` that an update pass keeps (log 19). -/
  third : s.tree.EscapeParentThird
  /-- The storage holds at most `NODE_CAP` entries (00_scope.md R12). -/
  fits : s.tree.count ≤ s.params.nodeCap
  /-- The root's weight, the largest, is a `WEIGHT_W`-bit value (00_scope.md R11). -/
  rootFits : (s.tree.node ROOT).weight ≤ maxWeight s.params
  /-- The sym fields (10_state.md R32, R34). -/
  syms : s.tree.SymsFit s.params
  /-- An end-marker leaf stands only in a tree whose stream has ended (41_decode.md R127). -/
  noEnd : s.engine ≠ .ended → s.tree.NoEndLeaf
  /-- `REG.ERR_CAUSE` is 0 when `REG.STATE != FAULT`, and a fault's code otherwise (10_state.md R26). -/
  cause : s.engine = .fault ↔ s.errCause ≠ none

/-! ## Responses -/

/-- The last event of the history is the response `r`. -/
def State.Answered (s : State) (r : Response) : Prop := s.history.getLast? = some (.respond r)

/-- The response's status is a fault code, 1 to 5 (60_exceptions.md R211). -/
def Response.isFault (r : Response) : Bool := decide (1 ≤ r.status.toNat ∧ r.status.toNat ≤ 5)

/-- The response's status is a rejection code, 6 to 8 (60_exceptions.md R211). -/
def Response.isReject (r : Response) : Bool := decide (6 ≤ r.status.toNat ∧ r.status.toNat ≤ 8)

/-- The event is a response. -/
def Event.isRespond : Event → Bool
  | .bitWrite _      => false
  | .litWrite _      => false
  | .bitRead _       => false
  | .litRead _       => false
  | .indexInsert _ _ => false
  | .respond _       => true
  | .hardwareReset   => false

/-- How many responses the block has sent. -/
def State.responses (s : State) : Nat := s.history.countP Event.isRespond

/-- A run is safe so far: "no fault response in the history" (60_exceptions.md R217). -/
def State.FaultFree (s : State) : Prop := ∀ r, Event.respond r ∈ s.history → r.isFault = false

/-- The record of an OK command (30_encoding.md R88) that carries no node record. -/
def okRecord (res : BitVec 4) (data : BitVec 32) (kk : BitVec 1) (kv : SymVal) : Response :=
  { status := 0#4, result := res, data := data, keyKind := kk, keyValue := kv,
    node := { kind := 0#2, sym := 0#64, weight := 0#32, low := 0#24, high := 0#24, parent := 0#24, rank := 0#24 } }

/-- The record of a fault or a rejection: "When status is not OK, result, data, key_kind and key_value are 0"
(30_encoding.md R88). -/
def bareRecord (st : BitVec 4) : Response := { okRecord 0#4 0#32 0#1 0#64 with status := st }

/-- `s` after a command that answered `r` and did nothing else. -/
def State.answer (s : State) (r : Response) : State := { s with cmd := none, history := s.history ++ [.respond r] }

/-- `s` after a fault with this cause and code: `REG.STATE`, `REG.ERR_CAUSE` and the response, nothing else
(60_exceptions.md R217). -/
def State.faulted (s : State) (c : FaultCause) (code : BitVec 4) : State :=
  { s with engine := .fault, errCause := some c, cmd := none, history := s.history ++ [.respond (bareRecord code)] }

/-- `s` after the bits `bs` have been read from `BIT_IN`, `rest` being left. -/
def State.bitsRead (s : State) (bs : List Bool) (rest : List BitToken) : State :=
  { s with bitIn := rest, history := s.history ++ bs.map fun b => .bitRead (.bit b) }

/-- `s` after the literal `l` has been read from `LIT_IN`, `rest` being left. -/
def State.literalRead (s : State) (l : Literal) (rest : List LitToken) : State :=
  { s with litIn := rest, history := s.history ++ [.litRead (.lit l)] }

/-- The bits `bs` as tokens of `BIT_IN`. -/
def bitTokens (bs : List Bool) : List BitToken := bs.map .bit

/-- The key an encode command encodes (40_encode.md R100, R101); `none` for the other commands. -/
def encodedKey (i : Instr) (s : State) : Option Key :=
  match i with
  | .nop        => none
  | .init       => none
  | .encode     => some { kind := .ord, value := (s.symIn.setWidth s.params.symW).setWidth 64 }
  | .encodeNull => some { kind := .endMark, value := 0#64 }
  | .decode     => none
  | .readReg _  => none
  | .readNode _ => none

/-- `REG.STATE` after an OK encode of `key` (40_encode.md R106). -/
def engineAfter (key : Key) : EngineState := if key.kind = .endMark then .ended else .ready

/-- The same outcome with `f` applied to the next state. -/
def mapNext (f : State → State) (o : Host.Outcome State Fault Refusal) : Host.Outcome State Fault Refusal :=
  match o with
  | .next s    => .next (f s)
  | .fault r   => .fault r
  | .refused r => .refused r

/-- The reset values of the registers and the initial tree (10_state.md R48, R49), as READ_REG and READ_NODE show them. -/
def State.Fresh (s : State) : Prop :=
  s.engine.code = 0#2 ∧ s.lastResult.code = 0#4 ∧ errCauseCode s.errCause = 0#8 ∧ s.lastLen = 0#32 ∧
  s.tree.count = 2 ∧ s.tree.order = [1, 0] ∧
  s.tree.node 0 = { kind := .internal, sym := 0#64, weight := 0, low := some 1, high := none, parent := none } ∧
  s.tree.node 1 = { kind := .escape, sym := 0#64, weight := 0, low := none, high := none, parent := some 0 } ∧
  s.tree.rank 0 = 1 ∧ s.tree.rank 1 = 0

/-- The port's operand, the four channels and the parameters are those of `s`: what neither INIT nor the hardware reset
touches (44_host_commands.md R193, 70_reset_and_hazards.md R242, R243). -/
def State.SameChannels (t s : State) : Prop :=
  t.params = s.params ∧ t.symIn = s.symIn ∧ t.bitIn = s.bitIn ∧ t.litIn = s.litIn ∧ t.bitOut = s.bitOut ∧
  t.litOut = s.litOut

/-- A child slot after `a` and `b` have exchanged positions (43_tree_update.md R166, R167). -/
def exchangedSlot (a b : Nat) (o : Option Nat) : Option Nat :=
  if o = some a then some b else if o = some b then some a else o

/-! ## Streams -/

/-- Encode a list of symbols, one ENCODE each, while every command completes. -/
def encodeAll : List SymVal → State → Option State
  | [], s => some s
  | v :: vs, s =>
    match exec .encode { s with symIn := v } with
    | .next t => if t.engine = .ready then encodeAll vs t else none
    | .fault _ => none
    | .refused _ => none

/-- The key of the last response, when it carries a decoded ordinary symbol (30_encoding.md R88). -/
def State.decodedSymbol (s : State) : Option SymVal :=
  match s.history.getLast? with
  | some (.respond r) => if r.status = statusOk ∧ r.keyKind = 0#1 then some r.keyValue else none
  | _ => none

/-- Decode `n` symbols, one DECODE each that neither holds nor fails: the symbols and the state after them. -/
def decodeAll : Nat → State → Option (List SymVal × State)
  | 0, s => some ([], s)
  | n + 1, s =>
    match decodeFn s with
    | .needMore => none
    | .done t =>
      match t.decodedSymbol with
      | none => none
      | some v => (decodeAll n t).map fun r => (v :: r.1, r.2)

end Sys2Proof.Machine
end

