-- ==== Sys2Proof/Certificates/Slice0/Obligations.lean ====
section
/-! DEFINITION. The statements for the provers. Each docstring names the rules of spec/ it formalises; where a clause rests on
the model's own choice it says so and names the log entry. -/

open Sys2Proof Sys2Proof.Machine

/-! ## Encoding -/

/-- 30_encoding.md R87: the encoding examples, legal and illegal. -/
def Obligations.EncodingExamplesDecode : Prop :=
  decode 0x00000000#32 = .ok .nop ∧ decode 0x00000001#32 = .ok .init ∧ decode 0x00000002#32 = .ok .encode ∧
  decode 0x00000003#32 = .ok .encodeNull ∧ decode 0x00000004#32 = .ok .decode ∧
  decode 0x00000805#32 = .ok (.readReg 0x08) ∧ decode 0x00000306#32 = .ok (.readNode 3) ∧
  decode 0x00000012#32 = .error .mbzNotZero ∧ decode 0x00000102#32 = .error .argNotZero ∧
  decode 0x00000007#32 = .error .reservedOpcode

/-- 30_encoding.md R81, R82, R83, R86: decoding the word of a well-formed command gives it back, its argument at every value. -/
def Obligations.DecodeOfEncodeIsIdentity : Prop :=
  ∀ i : Instr, i.wf = true → decode (encode i) = .ok i

/-- 30_encoding.md R86: "Every 32-bit word decodes to exactly one" outcome, and a legal word is the only one for its command. -/
def Obligations.EncodeOfDecodeIsIdentity : Prop :=
  ∀ (w : CmdWord) (i : Instr), decode w = .ok i → encode i = w ∧ i.wf = true

/-- 30_encoding.md R84: exactly which words are illegal, and that a step on one is the rejection ILLEGAL_COMMAND (6) and
changes nothing else. -/
def Obligations.IllegalWordsAreRejected : Prop :=
  ∀ w : CmdWord,
    ((∃ e, decode w = .error e) ↔
      (w.toNat / 16 % 16 ≠ 0 ∨ 7 ≤ w.toNat % 16 ∨
        (w.toNat / 256 ≠ 0 ∧ w.toNat % 16 ≠ 5 ∧ w.toNat % 16 ≠ 6))) ∧
    ∀ s : State, s.cmd = some w → (∃ e, decode w = .error e) → step s = .next (s.answer (bareRecord 6#4))

/-- 30_encoding.md R95, R96: the assembler's words, its refusals, and the pseudo-instructions. -/
def Obligations.AssemblerLinesAreOneCommand : Prop :=
  ∀ p : Params,
    assemble p .nop = some (.issue 0x00000000#32 0#64) ∧ assemble p .init = some (.issue 0x00000001#32 0#64) ∧
    (∀ v, v < 2 ^ p.symW → assemble p (.enc v) = some (.issue 0x00000002#32 (BitVec.ofNat 64 v))) ∧
    (∀ v, ¬ v < 2 ^ p.symW → assemble p (.enc v) = none) ∧
    assemble p .encNull = some (.issue 0x00000003#32 0#64) ∧ assemble p .dec = some (.issue 0x00000004#32 0#64) ∧
    (∀ n, n ≤ 0xFFFFFF → assemble p (.rdreg n) = some (.issue (BitVec.ofNat 32 (n * 256 + 5)) 0#64)) ∧
    (∀ n, n ≤ 0xFFFFFF → assemble p (.rdnode n) = some (.issue (BitVec.ofNat 32 (n * 256 + 6)) 0#64)) ∧
    (∀ n, ¬ n ≤ 0xFFFFFF → assemble p (.rdreg n) = none ∧ assemble p (.rdnode n) = none) ∧
    (∀ w, w < 2 ^ 32 → assemble p (.word w) = some (.issue (BitVec.ofNat 32 w) 0#64)) ∧
    (∀ w, ¬ w < 2 ^ 32 → assemble p (.word w) = none) ∧
    assemble p .encEnd = assemble p .encNull ∧ assemble p .rdstatus = assemble p (.rdreg 0x08) ∧
    assemble p .rdweight = assemble p (.rdreg 0x0B)

/-! ## The step and the host -/

/-- 10_state.md R22, 30_encoding.md R80, R86, 41_decode.md R132: a step with a legal command in flight is that command's
meaning, unless it is a DECODE that holds; then the host has its turn. That a held DECODE is a next state, equal to the
state before, is the model's choice (log 11). -/
def Obligations.StepRunsTheDecodedCommand : Prop :=
  ∀ (s : State) (w : CmdWord) (i : Instr), s.cmd = some w → decode w = .ok i →
    (holds i s = false → step s = exec i s) ∧
    (holds i s = true → i = .decode ∧ exec i s = .next s ∧ step s = hostTurn s)

/-- 70_reset_and_hazards.md R241, R249, R253: with no command in flight the host's next action happens. The model's own
choices in it: the host's script and that an action is a step (log 10); that an idle block with nothing to come steps to
the same state (log 11); that the host can remove the head of an input, where R249's table gives it only the tail and R253
makes it remove old tokens (log 22). -/
def Obligations.HostActionsLandWhenIdle : Prop :=
  ∀ (s : State) (es : List HostEvent), s.cmd = none →
    (s.host = [] → step s = .next s) ∧
    (∀ w v, s.host = .issue w v :: es → step s = .next { s with cmd := some w, symIn := v, host := es }) ∧
    (∀ b, s.host = .appendBit b :: es → step s = .next { s with bitIn := s.bitIn ++ [b], host := es }) ∧
    (∀ l, s.host = .appendLit l :: es → step s = .next { s with litIn := s.litIn ++ [l], host := es }) ∧
    (∀ b bs, s.bitOut = b :: bs → s.host = .takeBit :: es → step s = .next { s with bitOut := bs, host := es }) ∧
    (∀ l ls, s.litOut = l :: ls → s.host = .takeLit :: es → step s = .next { s with litOut := ls, host := es }) ∧
    (∀ b bs, s.bitIn = b :: bs → s.host = .dropBitIn :: es → step s = .next { s with bitIn := bs, host := es }) ∧
    (∀ l ls, s.litIn = l :: ls → s.host = .dropLitIn :: es → step s = .next { s with litIn := ls, host := es })

/-- 70_reset_and_hazards.md R242, R249, R251, 20_memory.md R65, 41_decode.md R132: while a DECODE is held the host may append
a token, which only lengthens the list, drain an output, or reset the block, which ends the command with no response and
leaves the channels, SYM_IN and the rest of the script; and nothing but an append lifts the hold while the command is in
flight. The model's own choices in it: the host's script (log 10); the step that leaves the state (log 11); the refusal of
a word issued then (93_implementation_defined.md U3, log 12) and of a removal of input (log 22); the event of the reset
(log 9); SYM_IN and the script across the reset (log 30). -/
def Obligations.HostActionsLandWhileHeld : Prop :=
  ∀ (s : State) (w : CmdWord) (es : List HostEvent), s.cmd = some w → decode w = .ok .decode → holds .decode s = true →
    (s.host = [] → step s = .next s) ∧
    (∀ b, s.host = .appendBit b :: es → step s = .next { s with bitIn := s.bitIn ++ [b], host := es }) ∧
    (∀ l, s.host = .appendLit l :: es → step s = .next { s with litIn := s.litIn ++ [l], host := es }) ∧
    (∀ b bs, s.bitOut = b :: bs → s.host = .takeBit :: es → step s = .next { s with bitOut := bs, host := es }) ∧
    (∀ l ls, s.litOut = l :: ls → s.host = .takeLit :: es → step s = .next { s with litOut := ls, host := es }) ∧
    (∀ w' v, s.host = .issue w' v :: es → step s = .refused .commandInFlight) ∧
    (s.host = .dropBitIn :: es ∨ s.host = .dropLitIn :: es → step s = .refused .removalInFlight) ∧
    (s.host = .hardwareReset :: es → ∃ t, step s = .next t ∧ t.Fresh ∧ t.cmd = none ∧ t.SameChannels s ∧ t.host = es ∧
      t.history = s.history ++ [.hardwareReset] ∧ t.responses = s.responses) ∧
    (∀ t, step s = .next t → t.cmd = s.cmd → holds .decode t = false →
      ∃ es', (∃ b, s.host = .appendBit b :: es') ∨ (∃ l, s.host = .appendLit l :: es'))

/-! ## Reset and the host commands -/

/-- 10_state.md R48, R49, 70_reset_and_hazards.md R240, R242, R249, R253: the state after reset, after INIT and after a
hardware reset, whatever the state before; the first escape code is then the single bit 0. An idle hardware reset sends no
response and leaves the channels and the parameters; that it stands in the host's script (log 10), that the history
records it (log 9) and that SYM_IN and the rest of the script stay (log 30) are the model's choices. -/
def Obligations.ResetAndInitLeaveTheInitialTree : Prop :=
  (∀ p : Params, (State.resetWith p).Fresh ∧ (State.resetWith p).params = p) ∧
  State.reset = State.resetWith { symW := 32, weightW := 32, nodeCap := 8191 } ∧
  (∀ s : State, ∃ t, exec .init s = .next t ∧ t.Fresh) ∧
  (∀ (s : State) (es : List HostEvent), s.cmd = none → s.host = .hardwareReset :: es →
    ∃ t, step s = .next t ∧ t.Fresh ∧ t.cmd = none ∧ t.SameChannels s ∧ t.host = es ∧
      t.history = s.history ++ [.hardwareReset] ∧ t.responses = s.responses) ∧
  ∀ s : State, s.Fresh → s.tree.pathTo ESC = [false]

/-- The invariant holds after reset, for every legal choice of the parameters. -/
def Obligations.ResetMeetsTheInvariant : Prop :=
  ∀ p : Params, p.Legal → Inv (State.resetWith p)

/-- 44_host_commands.md R190: NOP responds OK in every state and writes nothing else. -/
def Obligations.NopOnlyResponds : Prop :=
  decode 0x00000000#32 = .ok .nop ∧
  ∀ s : State, exec .nop s = .next (s.answer (okRecord 0#4 0#32 0#1 0#64))

/-- 44_host_commands.md R192, R193: INIT in every state: the whole next state; channels, parameters and `SYM_IN` untouched. -/
def Obligations.InitRestartsAndLeavesChannels : Prop :=
  decode 0x00000001#32 = .ok .init ∧
  ∀ s : State, exec .init s = .next
    { s with
      engine := .ready, lastResult := .none, errCause := none, lastLen := 0#32, cmd := none
      tree :=
        { nodes := [ { kind := .internal, sym := 0#64, weight := 0, low := some 1, high := none, parent := none },
                     { kind := .escape, sym := 0#64, weight := 0, low := none, high := none, parent := some 0 } ]
          order := [1, 0] }
      history := s.history ++ [.respond (okRecord 0#4 0#32 0#1 0#64)] }

/-- 10_state.md R27, R31, 44_host_commands.md R194, 60_exceptions.md R216: READ_REG of each assigned number responds OK with
its value, and of any other number is the rejection BAD_ARG (7); in every state, and nothing else is written. -/
def Obligations.ReadRegReturnsEachRegister : Prop :=
  ∀ (s : State) (n : Nat),
    let table : List (Nat × RegWord) :=
      [ (0x00, 0x48554646#32), (0x01, 1#32), (0x02, BitVec.ofNat 32 s.params.nodeCap),
        (0x03, BitVec.ofNat 32 s.params.weightW), (0x04, BitVec.ofNat 32 s.params.symW), (0x08, statusWord s),
        (0x09, BitVec.ofNat 32 s.tree.nodes.length),
        (0x0A, BitVec.ofNat 32 (if s.tree.nodes.length = 2 then 0 else (s.tree.nodes.length - 1) / 2)),
        (0x0B, BitVec.ofNat 32 (s.tree.node 0).weight), (0x0C, s.lastLen),
        (0x0D, BitVec.ofNat 32 (s.tree.pathTo 1).length), (0x0E, 0#32), (0x0F, 1#32) ]
    (∀ v, (n, v) ∈ table → exec (.readReg n) s = .next (s.answer (okRecord 0#4 v 0#1 0#64))) ∧
    ((∀ v, (n, v) ∉ table) → exec (.readReg n) s = .next (s.answer (bareRecord 7#4)))

/-- 10_state.md R24, R25, R26, R28, 60_exceptions.md R211: the numbers of the states, results and causes, and the layout of
STATUS, which READ_REG 0x08 returns. -/
def Obligations.StatusRegisterLayout : Prop :=
  (EngineState.ready.code = 0#2 ∧ EngineState.ended.code = 1#2 ∧ EngineState.fault.code = 2#2) ∧
  (ResultCode.none.code = 0#4 ∧ ResultCode.encKnown.code = 1#4 ∧ ResultCode.encNew.code = 2#4 ∧
    ResultCode.decKnown.code = 3#4 ∧ ResultCode.decNew.code = 4#4 ∧ ResultCode.decEnd.code = 5#4) ∧
  (errCauseCode none = 0#8 ∧ errCauseCode (some .truncatedStream) = 1#8 ∧ errCauseCode (some .truncatedFallback) = 2#8 ∧
    errCauseCode (some .corruptTree) = 3#8 ∧ errCauseCode (some .capacityExceeded) = 4#8 ∧
    errCauseCode (some .weightOverflow) = 5#8) ∧
  ∀ s : State,
    exec (.readReg 0x08) s = .next (s.answer (okRecord 0#4 (statusWord s) 0#1 0#64)) ∧
    (statusWord s).extractLsb' 0 2 = s.engine.code ∧ (statusWord s).extractLsb' 2 2 = 0#2 ∧
    (statusWord s).extractLsb' 4 4 = s.lastResult.code ∧ (statusWord s).extractLsb' 8 8 = errCauseCode s.errCause ∧
    (statusWord s).extractLsb' 16 16 = 0#16

/-- 10_state.md R33, 44_host_commands.md R195, R196: the numbers of the node kinds; the word of READ_NODE; READ_NODE of an allocated entry responds OK with its fields, NIL as 0xFFFFFF, in every
state; of any other index it is the rejection BAD_ARG (7). Neither writes anything else. -/
def Obligations.ReadNodeReturnsTheEntry : Prop :=
  (kindCode .internal = 0#2 ∧ kindCode .escape = 1#2 ∧ kindCode .ordinary = 2#2 ∧ kindCode .endMarker = 3#2) ∧
  ∀ (s : State) (k : Nat),
    let link : Option Nat → BitVec 24 := fun o => match o with | none => 0xFFFFFF#24 | some j => BitVec.ofNat 24 j
    (k ≤ 0xFFFFFF → decode (BitVec.ofNat 32 (k * 256 + 6)) = .ok (.readNode k)) ∧
    (∀ nd, s.tree.nodes[k]? = some nd →
      exec (.readNode k) s = .next (s.answer
        { okRecord 0#4 0#32 0#1 0#64 with
          node := { kind := kindCode nd.kind, sym := nd.sym, weight := BitVec.ofNat 32 nd.weight, low := link nd.low,
                    high := link nd.high, parent := link nd.parent, rank := BitVec.ofNat 24 (s.tree.order.idxOf k) } })) ∧
    (s.tree.nodes[k]? = none → exec (.readNode k) s = .next (s.answer (bareRecord 7#4)))

/-! ## Encode -/

/-- 40_encode.md R102, R105, R106, R109: ENCODE and ENCODE_NULL of a new key: the escape code, one literal, the index event, growth
and one update pass, the result registers, the response; everything else unchanged. -/
def Obligations.EncodeOfNewKeyCompletes : Prop :=
  ∀ (i : Instr) (s : State) (key : Key), encodedKey i s = some key →
    s.engine = .ready → s.tree.WF → s.tree.lookup key = none →
    s.tree.count + s.tree.need ≤ s.params.nodeCap → (s.tree.node ROOT).weight ≠ 2 ^ s.params.weightW - 1 →
    exec i s = .next
      { s with
        engine := engineAfter key, lastResult := .encNew, lastLen := BitVec.ofNat 32 (s.tree.depth ESC), cmd := none
        tree := CodeTree.update s.params (s.tree.add key) s.tree.addedLeaf
        bitOut := s.bitOut ++ s.tree.pathTo ESC
        litOut := s.litOut ++ [key]
        history := s.history ++ (s.tree.pathTo ESC).map .bitWrite ++
          [.litWrite key, .indexInsert key s.tree.addedLeaf,
           .respond (okRecord 2#4 (BitVec.ofNat 32 (s.tree.depth ESC)) 0#1 0#64)] }

/-- 40_encode.md R102, R104, R106, R109: ENCODE and ENCODE_NULL of a known key: the leaf's code as the tree stood, one update pass, no
literal; everything else unchanged. -/
def Obligations.EncodeOfKnownKeyCompletes : Prop :=
  ∀ (i : Instr) (s : State) (key : Key) (leaf : Nat), encodedKey i s = some key →
    s.engine = .ready → s.tree.WF → s.tree.lookup key = some leaf → (s.tree.node ROOT).weight ≠ 2 ^ s.params.weightW - 1 →
    exec i s = .next
      { s with
        engine := engineAfter key, lastResult := .encKnown, lastLen := BitVec.ofNat 32 (s.tree.depth leaf), cmd := none
        tree := CodeTree.update s.params s.tree leaf
        bitOut := s.bitOut ++ s.tree.pathTo leaf
        history := s.history ++ (s.tree.pathTo leaf).map .bitWrite ++
          [.respond (okRecord 1#4 (BitVec.ofNat 32 (s.tree.depth leaf)) 0#1 0#64)] }

/-- 40_encode.md R103: the checks of an encode in their order, and that a failed one has written nothing. -/
def Obligations.EncodeChecksInOrder : Prop :=
  ∀ (i : Instr) (s : State) (key : Key), encodedKey i s = some key →
    (s.engine ≠ .ready → exec i s = .next (s.answer (bareRecord 8#4))) ∧
    (s.engine = .ready → ¬ s.tree.WF → exec i s = .next (s.faulted .corruptTree 3#4)) ∧
    (s.engine = .ready → s.tree.WF → s.tree.lookup key = none → ¬ s.tree.count + s.tree.need ≤ s.params.nodeCap →
      exec i s = .next (s.faulted .capacityExceeded 4#4)) ∧
    (s.engine = .ready → s.tree.WF → s.tree.lookup key = none → s.tree.count + s.tree.need ≤ s.params.nodeCap →
      (s.tree.node ROOT).weight = 2 ^ s.params.weightW - 1 → exec i s = .next (s.faulted .weightOverflow 5#4)) ∧
    (∀ leaf, s.engine = .ready → s.tree.WF → s.tree.lookup key = some leaf →
      (s.tree.node ROOT).weight = 2 ^ s.params.weightW - 1 → exec i s = .next (s.faulted .weightOverflow 5#4))

/-- 40_encode.md R110: the first encode of a symbol writes exactly one literal and the escape code; from then on the symbol is
known, and an encode of a known symbol writes no literal. -/
def Obligations.LiteralOnlyOnFirstOccurrence : Prop :=
  ∀ (s t : State) (key : Key) (r : Response), encodedKey .encode s = some key → s.engine = .ready →
    exec .encode s = .next t → t.Answered r → r.status = 0#4 →
    (s.tree.lookup key = none → t.litOut = s.litOut ++ [key] ∧ t.bitOut = s.bitOut ++ s.tree.pathTo ESC) ∧
    ((∃ leaf, s.tree.lookup key = some leaf) → t.litOut = s.litOut) ∧
    ∃ leaf, t.tree.lookup key = some leaf

/-- 20_memory.md R69, 42_tree_growth.md R143, 10_state.md R30, R35: no command but INIT forgets a key or renumbers a node: counts never fall, the
kind and symbol of an index stay, and `Lookup` of a known key keeps its answer. -/
def Obligations.NodesAreStableUntilInit : Prop :=
  ∀ (i : Instr) (s t : State), i ≠ .init → exec i s = .next t →
    (t.tree.count = s.tree.count ∨ t.tree.count = s.tree.count + s.tree.need) ∧
    (∀ j, j < s.tree.count → (t.tree.node j).kind = (s.tree.node j).kind ∧ (t.tree.node j).sym = (s.tree.node j).sym) ∧
    (∀ key leaf, s.tree.lookup key = some leaf → t.tree.lookup key = some leaf)

/-! ## Decode -/

/-- 41_decode.md R121, R122, R127: DECODE of the code of an ordinary leaf reads exactly its bits, runs one update pass and
responds with the symbol; of an end-marker leaf it ends the stream. Everything else is unchanged. -/
def Obligations.DecodeOfKnownLeafCompletes : Prop :=
  ∀ (s : State) (x : Nat) (rest : List BitToken), s.engine = .ready → s.tree.WF → x < s.tree.count →
    s.bitIn = bitTokens (s.tree.pathTo x) ++ rest → (s.tree.node ROOT).weight ≠ 2 ^ s.params.weightW - 1 →
    ((s.tree.node x).kind = .ordinary →
      exec .decode s = .next ({ s.bitsRead (s.tree.pathTo x) rest with
        lastResult := .decKnown, lastLen := BitVec.ofNat 32 (s.tree.depth x)
        tree := CodeTree.update s.params s.tree x }.answer
          (okRecord 3#4 (BitVec.ofNat 32 (s.tree.depth x)) 0#1 (s.tree.node x).sym))) ∧
    ((s.tree.node x).kind = .endMarker →
      exec .decode s = .next ({ s.bitsRead (s.tree.pathTo x) rest with
        engine := .ended, lastResult := .decEnd, lastLen := BitVec.ofNat 32 (s.tree.depth x)
        tree := CodeTree.update s.params s.tree x }.answer
          (okRecord 5#4 (BitVec.ofNat 32 (s.tree.depth x)) 1#1 0#64)))

/-- 41_decode.md R121, R123, R125: DECODE of the escape code and an ordinary literal with no leaf: one literal read, the same
growth and update pass as the encoder's, the literal as the symbol. Everything else is unchanged. -/
def Obligations.DecodeOfNewSymbolCompletes : Prop :=
  ∀ (s : State) (v : SymVal) (rest : List BitToken) (ls : List LitToken), s.engine = .ready → s.tree.WF →
    s.bitIn = bitTokens (s.tree.pathTo ESC) ++ rest → s.litIn = .lit { kind := .ord, value := v } :: ls →
    let key : Key := { kind := .ord, value := (v.setWidth s.params.symW).setWidth 64 }
    s.tree.lookup key = none → s.tree.count + s.tree.need ≤ s.params.nodeCap →
    (s.tree.node ROOT).weight ≠ 2 ^ s.params.weightW - 1 →
    exec .decode s = .next ({ ((s.bitsRead (s.tree.pathTo ESC) rest).literalRead { kind := .ord, value := v } ls) with
        lastResult := .decNew, lastLen := BitVec.ofNat 32 (s.tree.depth ESC)
        tree := CodeTree.update s.params (s.tree.add key) s.tree.addedLeaf
        history := ((s.bitsRead (s.tree.pathTo ESC) rest).literalRead { kind := .ord, value := v } ls).history ++
          [Event.indexInsert key s.tree.addedLeaf] }.answer
          (okRecord 4#4 (BitVec.ofNat 32 (s.tree.depth ESC)) 0#1 key.value))

/-- 41_decode.md R124, 30_encoding.md R91: an END literal after the escape, whatever its value, ends the stream: ENDED, tree
unchanged, no update pass, even when the root's weight is at its bound (60_exceptions.md R215). -/
def Obligations.DecodeOfEndLiteralEndsTheStream : Prop :=
  ∀ (s : State) (v : SymVal) (rest : List BitToken) (ls : List LitToken), s.engine = .ready → s.tree.WF →
    s.bitIn = bitTokens (s.tree.pathTo ESC) ++ rest → s.litIn = .lit { kind := .endMark, value := v } :: ls →
    exec .decode s = .next ({ ((s.bitsRead (s.tree.pathTo ESC) rest).literalRead { kind := .endMark, value := v } ls) with
        engine := .ended, lastResult := .decEnd, lastLen := BitVec.ofNat 32 (s.tree.depth ESC) }.answer
          (okRecord 5#4 (BitVec.ofNat 32 (s.tree.depth ESC)) 1#1 0#64))

/-- 41_decode.md R129: EOS at any read of the walk, the first included, is TRUNCATED_STREAM (1): the bits before it are
consumed, EOS stays, the tree is unchanged. That the EOS read is an event of the history is the model's choice (log 9). -/
def Obligations.EosInTheWalkIsTruncatedStream : Prop :=
  ∀ (s : State) (x : Nat) (q q' : List Bool) (b : Bool) (rest : List BitToken), s.engine = .ready → s.tree.WF →
    x < s.tree.count → s.tree.pathTo x = q ++ b :: q' → s.bitIn = bitTokens q ++ .eos :: rest →
    exec .decode s = .next
      ({ s.bitsRead q (.eos :: rest) with
         history := (s.bitsRead q (.eos :: rest)).history ++ [Event.bitRead .eos] }.faulted .truncatedStream 1#4)

/-- 41_decode.md R130: EOS as the literal after the escape is TRUNCATED_FALLBACK (2); EOS stays and the tree is unchanged.
That the EOS read is an event of the history is the model's choice (log 9). -/
def Obligations.EosAsLiteralIsTruncatedFallback : Prop :=
  ∀ (s : State) (rest : List BitToken) (ls : List LitToken), s.engine = .ready → s.tree.WF →
    s.bitIn = bitTokens (s.tree.pathTo ESC) ++ rest → s.litIn = .eos :: ls →
    exec .decode s = .next
      ({ s.bitsRead (s.tree.pathTo ESC) rest with
         history := (s.bitsRead (s.tree.pathTo ESC) rest).history ++ [Event.litRead .eos] }.faulted .truncatedFallback 2#4)

/-- 41_decode.md R131: a 1 at the root of the two-node tree is CORRUPT_TREE (3), the bit consumed; in every larger well-formed
tree no bit sequence meets an empty slot. -/
def Obligations.EmptySlotOnlyInTheInitialTree : Prop :=
  ∀ s : State, s.tree.WF →
    (∀ rest, s.engine = .ready → s.tree.count = 2 → s.bitIn = .bit true :: rest →
      exec .decode s = .next ((s.bitsRead [true] rest).faulted .corruptTree 3#4)) ∧
    (s.tree.count ≠ 2 → ∀ toks n, s.tree.walk ROOT 0 toks ≠ .emptySlot n)

/-- 41_decode.md R126, R128, 60_exceptions.md R214, R215: the checks of an ordinary literal after the escape, in their order: a
key with a leaf is CORRUPT_TREE, then CAPACITY_EXCEEDED, then WEIGHT_OVERFLOW. Bits and literal stay consumed, the tree is
unchanged. -/
def Obligations.DecodeOfLiteralChecksInOrder : Prop :=
  ∀ (s : State) (v : SymVal) (rest : List BitToken) (ls : List LitToken), s.engine = .ready → s.tree.WF →
    s.bitIn = bitTokens (s.tree.pathTo ESC) ++ rest → s.litIn = .lit { kind := .ord, value := v } :: ls →
    let key : Key := { kind := .ord, value := (v.setWidth s.params.symW).setWidth 64 }
    let s' := (s.bitsRead (s.tree.pathTo ESC) rest).literalRead { kind := .ord, value := v } ls
    ((∃ leaf, s.tree.lookup key = some leaf) → exec .decode s = .next (s'.faulted .corruptTree 3#4)) ∧
    (s.tree.lookup key = none → ¬ s.tree.count + s.tree.need ≤ s.params.nodeCap →
      exec .decode s = .next (s'.faulted .capacityExceeded 4#4)) ∧
    (s.tree.lookup key = none → s.tree.count + s.tree.need ≤ s.params.nodeCap →
      (s.tree.node ROOT).weight = 2 ^ s.params.weightW - 1 → exec .decode s = .next (s'.faulted .weightOverflow 5#4))

/-- 41_decode.md R128, 43_tree_update.md R170, 60_exceptions.md R215, R219: DECODE outside READY is NOT_READY (8); in a tree that is not well formed it is
CORRUPT_TREE before anything is read; at a known leaf with the root's weight at its bound it is WEIGHT_OVERFLOW, the bits
consumed. -/
def Obligations.DecodeChecksInOrder : Prop :=
  ∀ s : State,
    (s.engine ≠ .ready → exec .decode s = .next (s.answer (bareRecord 8#4))) ∧
    (s.engine = .ready → ¬ s.tree.WF → exec .decode s = .next (s.faulted .corruptTree 3#4)) ∧
    (∀ x rest, s.engine = .ready → s.tree.WF → x < s.tree.count →
      ((s.tree.node x).kind = .ordinary ∨ (s.tree.node x).kind = .endMarker) →
      s.bitIn = bitTokens (s.tree.pathTo x) ++ rest → (s.tree.node ROOT).weight = 2 ^ s.params.weightW - 1 →
      exec .decode s = .next ((s.bitsRead (s.tree.pathTo x) rest).faulted .weightOverflow 5#4))

/-- 20_memory.md R65, R68, 41_decode.md R132: DECODE holds when BIT_IN ends within a code, and when LIT_IN is empty after the
escape code; the state is unchanged. -/
def Obligations.DecodeHoldsOnAnEmptyInput : Prop :=
  ∀ s : State, s.engine = .ready → s.tree.WF →
    (∀ x q q' b, x < s.tree.count → s.tree.pathTo x = q ++ b :: q' → s.bitIn = bitTokens q →
      holds .decode s = true ∧ exec .decode s = .next s) ∧
    (∀ rest, s.bitIn = bitTokens (s.tree.pathTo ESC) ++ rest → s.litIn = [] →
      holds .decode s = true ∧ exec .decode s = .next s)

/-- 70_reset_and_hazards.md R252, 20_memory.md R65: once both inputs hold EOS no DECODE holds, and no other command ever does. -/
def Obligations.EosLiftsEveryHold : Prop :=
  ∀ (i : Instr) (s : State), i ≠ .decode ∨ (.eos ∈ s.bitIn ∧ .eos ∈ s.litIn) → holds i s = false

/-- 41_decode.md R122, R132, 20_memory.md R68: the outcome of a DECODE that runs depends on no token behind those it reads:
with more tokens appended it is the same, and they are left in place. -/
def Obligations.DecodeIgnoresLaterTokens : Prop :=
  ∀ (s t : State) (xs : List BitToken) (ys : List LitToken), decodeFn s = .done t →
    decodeFn { s with bitIn := s.bitIn ++ xs, litIn := s.litIn ++ ys } =
      .done { t with bitIn := t.bitIn ++ xs, litIn := t.litIn ++ ys }

/-! ## Encoder and decoder together -/

/-- 41_decode.md R133: a decoder whose tree equals the encoder's, given what one OK ENCODE wrote, reads exactly that, responds
with the symbol and ends with the encoder's tree. -/
def Obligations.DecoderFollowsEncoder : Prop :=
  ∀ (e e' d : State) (bits : List Bool) (lits : List Literal) (rb : List BitToken) (rl : List LitToken),
    Inv e → Inv d → e.params = d.params → e.tree = d.tree → e.engine = .ready → d.engine = .ready →
    exec .encode e = .next e' → e'.engine = .ready →
    e'.bitOut = e.bitOut ++ bits → e'.litOut = e.litOut ++ lits →
    d.bitIn = bitTokens bits ++ rb → d.litIn = lits.map .lit ++ rl →
    ∃ d', exec .decode d = .next d' ∧ d'.engine = .ready ∧ d'.tree = e'.tree ∧ d'.bitIn = rb ∧ d'.litIn = rl ∧
      d'.lastLen = e'.lastLen ∧ d'.decodedSymbol = some ((e.symIn.setWidth e.params.symW).setWidth 64)

/-- 41_decode.md R124, 40_encode.md R106, 90_conflicts.md C3: a decoder given what one OK ENCODE_NULL wrote ends its stream and
keeps its tree; the encoder has grown. Both are ENDED. -/
def Obligations.EndMarkerEndsBothSides : Prop :=
  ∀ (e e' d : State) (bits : List Bool) (lits : List Literal) (rb : List BitToken) (rl : List LitToken),
    Inv e → Inv d → e.params = d.params → e.tree = d.tree → e.engine = .ready → d.engine = .ready →
    exec .encodeNull e = .next e' → e'.engine = .ended →
    e'.bitOut = e.bitOut ++ bits → e'.litOut = e.litOut ++ lits →
    d.bitIn = bitTokens bits ++ rb → d.litIn = lits.map .lit ++ rl →
    e'.tree.count = e.tree.count + e.tree.need ∧
    ∃ d', exec .decode d = .next d' ∧ d'.engine = .ended ∧ d'.lastResult = .decEnd ∧ d'.tree = d.tree ∧
      d'.bitIn = rb ∧ d'.litIn = rl

/-- 41_decode.md R133, 20_memory.md R73, 70_reset_and_hazards.md R254: round trip of every symbol sequence: what encoding the symbols wrote
decodes, from an equal tree, to the same symbols in the same order, and the two trees are equal again. -/
def Obligations.RoundTripOfEverySequence : Prop :=
  ∀ (vs : List SymVal) (e e' d : State) (bits : List Bool) (lits : List Literal) (rb : List BitToken) (rl : List LitToken),
    Inv e → Inv d → e.params = d.params → e.tree = d.tree → e.engine = .ready → d.engine = .ready →
    encodeAll vs e = some e' → e'.bitOut = e.bitOut ++ bits → e'.litOut = e.litOut ++ lits →
    d.bitIn = bitTokens bits ++ rb → d.litIn = lits.map .lit ++ rl →
    ∃ d', decodeAll vs.length d = some (vs.map fun v => (v.setWidth e.params.symW).setWidth 64, d') ∧
      d'.tree = e'.tree ∧ d'.bitIn = rb ∧ d'.litIn = rl

/-! ## Growth -/

/-- 42_tree_growth.md R141, R143, R144: the first growth (Case A), in full. -/
def Obligations.FirstGrowthFillsTheEmptySlot : Prop :=
  ∀ (t : CodeTree) (key : Key), t.WF → t.count = 2 → (key.kind = .endMark → key.value = 0#64) →
    (t.add key).nodes =
      [ { kind := .internal, sym := (t.node 0).sym, weight := 0, low := some 1, high := some 2, parent := none },
        { kind := .escape, sym := (t.node 1).sym, weight := 0, low := none, high := none, parent := some 0 },
        { kind := if key.kind = .ord then .ordinary else .endMarker, sym := key.value, weight := 0, low := none,
          high := none, parent := some 0 } ] ∧
    (t.add key).order = [1, 2, 0] ∧ t.addedLeaf = 2

/-- 42_tree_growth.md R142, R143, R144: every later growth (Case B), in full: the two new entries, the parent's low slot, the
escape's parent, every other entry unchanged, and the new order. -/
def Obligations.LaterGrowthSplitsTheEscape : Prop :=
  ∀ (t : CodeTree) (key : Key) (p : Nat), t.WF → 3 ≤ t.count → (key.kind = .endMark → key.value = 0#64) →
    (t.node 1).parent = some p →
    let m := t.count
    let l := t.count + 1
    (t.add key).count = t.count + 2 ∧ t.addedLeaf = l ∧
    (t.add key).node m =
      { kind := .internal, sym := 0#64, weight := 0, low := some 1, high := some l, parent := some p } ∧
    (t.add key).node l =
      { kind := if key.kind = .ord then .ordinary else .endMarker, sym := key.value, weight := 0, low := none,
        high := none, parent := some m } ∧
    (t.add key).node p = { t.node p with low := some m } ∧
    (t.add key).node 1 = { t.node 1 with parent := some m } ∧
    (∀ j, j < t.count → j ≠ p → j ≠ 1 → (t.add key).node j = t.node j) ∧
    (t.add key).order = [1, l, m] ++ t.order.drop 1

/-- 42_tree_growth.md R147: Case A happens exactly when NODE_COUNT is 2; 40_encode.md R107: so `need` is 1 then and 2 later. -/
def Obligations.CaseAExactlyAtTwoNodes : Prop :=
  ∀ t : CodeTree, t.WF → (t.hasEmptySlot = true ↔ t.count = 2) ∧ (t.count = 2 → t.need = 1) ∧ (t.count ≠ 2 → t.need = 2)

/-- 42_tree_growth.md R148: the escape leaf is the low child of its parent, and Case B puts `M` in that low slot. -/
def Obligations.EscapeIsAlwaysALowChild : Prop :=
  ∀ t : CodeTree, t.WF →
    (∃ p, (t.node ESC).parent = some p ∧ (t.node p).low = some ESC) ∧
    ∀ key p, (t.node ESC).parent = some p → t.count ≠ 2 → ((t.add key).node p).low = some t.count

/-- 42_tree_growth.md R145, 20_memory.md R69: after Add the key's `Lookup` is the new leaf, and every other key's is unchanged. -/
def Obligations.AddRegistersTheKey : Prop :=
  ∀ (t : CodeTree) (key key' : Key), t.lookup key = none →
    (t.add key).lookup key = some t.addedLeaf ∧
    ((key'.kind ≠ key.kind ∨ (key.kind = .ord ∧ key'.value ≠ key.value)) → (t.add key).lookup key' = t.lookup key')

/-! ## Update -/

/-- 43_tree_update.md R163: the successor is the highest-ranked node above `x` that has its weight and is not related to it. -/
def Obligations.SuccessorIsTheHighestCandidate : Prop :=
  ∀ (t : CodeTree) (x : Nat), t.WF → x < t.count →
    let candidate : Nat → Prop := fun y =>
      y < t.count ∧ t.rank x < t.rank y ∧ (t.node y).weight = (t.node x).weight ∧ t.related y x = false
    (∀ y, t.successor x = some y ↔ candidate y ∧ ∀ z, candidate z → t.rank z ≤ t.rank y) ∧
    (t.successor x = none ↔ ∀ y, ¬ candidate y)

/-- 43_tree_update.md R168: the root has no successor and is no node's successor. -/
def Obligations.RootIsNeverSwapped : Prop :=
  ∀ t : CodeTree, t.WF →
    t.successor ROOT = none ∧
    ∀ x y, x < t.count → t.successor x = some y →
      x ≠ ROOT ∧ y ≠ ROOT ∧ (t.node x).parent ≠ none ∧ (t.node y).parent ≠ none

/-- 43_tree_update.md R166, R167: a swap of two unrelated nodes exchanges their codes, parents, ranks and the child slots
that hold them, siblings included; every kind, symbol and weight, every other node's rank and parent, and every slot that
held neither, and so each subtree below them, is unchanged. -/
def Obligations.SwapExchangesPositions : Prop :=
  ∀ (t : CodeTree) (a b : Nat), t.WF → a < t.count → b < t.count → t.related a b = false →
    (t.swap a b).pathTo a = t.pathTo b ∧ (t.swap a b).pathTo b = t.pathTo a ∧
    (t.swap a b).rank a = t.rank b ∧ (t.swap a b).rank b = t.rank a ∧
    ((t.swap a b).node a).parent = (t.node b).parent ∧ ((t.swap a b).node b).parent = (t.node a).parent ∧
    (t.swap a b).count = t.count ∧
    (∀ i, ((t.swap a b).node i).kind = (t.node i).kind ∧ ((t.swap a b).node i).sym = (t.node i).sym ∧
      ((t.swap a b).node i).weight = (t.node i).weight) ∧
    (∀ i, i < t.count → i ≠ a → i ≠ b →
      (t.swap a b).rank i = t.rank i ∧ ((t.swap a b).node i).parent = (t.node i).parent) ∧
    (∀ i, (t.node a).parent ≠ some i → (t.node b).parent ≠ some i →
      ((t.swap a b).node i).low = (t.node i).low ∧ ((t.swap a b).node i).high = (t.node i).high) ∧
    (∀ i, i < t.count →
      ((t.swap a b).node i).low = exchangedSlot a b (t.node i).low ∧
      ((t.swap a b).node i).high = exchangedSlot a b (t.node i).high)

/-- 43_tree_update.md R161, R162, R169, 10_state.md R52: one pass adds exactly one to its leaf and one to the root, and to no other leaf.
The premise on the escape's parent is the model's strengthening of `WF` (log 19). -/
def Obligations.UpdateCountsOneOccurrence : Prop :=
  ∀ (p : Params) (t : CodeTree) (x : Nat), t.WF → t.EscapeParentThird → (t.node ROOT).weight < 2 ^ p.weightW - 1 →
    x < t.count → ((t.node x).kind = .ordinary ∨ (t.node x).kind = .endMarker) →
    ((CodeTree.update p t x).node x).weight = (t.node x).weight + 1 ∧
    ((CodeTree.update p t x).node ROOT).weight = (t.node ROOT).weight + 1 ∧
    ∀ y, y < t.count → t.isLeaf y = true → y ≠ x → ((CodeTree.update p t x).node y).weight = (t.node y).weight

/-- 43_tree_update.md R172 for a known leaf: an update pass keeps `WF` and the strengthening it needs (log 19). -/
def Obligations.UpdateOfKnownLeafKeepsTheTree : Prop :=
  ∀ (p : Params) (t : CodeTree) (x : Nat), t.WF → t.EscapeParentThird → (t.node ROOT).weight < 2 ^ p.weightW - 1 →
    x < t.count → ((t.node x).kind = .ordinary ∨ (t.node x).kind = .endMarker) →
    (CodeTree.update p t x).WF ∧ (CodeTree.update p t x).EscapeParentThird

/-- 43_tree_update.md R172 for a new key: growth and the pass after it keep `WF` and the strengthening (log 19). -/
def Obligations.GrowthAndUpdateKeepTheTree : Prop :=
  ∀ (p : Params) (t : CodeTree) (key : Key), t.WF → t.EscapeParentThird → (t.node ROOT).weight < 2 ^ p.weightW - 1 →
    t.lookup key = none →
    (CodeTree.update p (t.add key) t.addedLeaf).WF ∧ (CodeTree.update p (t.add key) t.addedLeaf).EscapeParentThird

/-! ## Derived properties of a well-formed tree -/

/-- 10_state.md R50: a leaf of lower weight never has a shorter code. -/
def Obligations.LowerWeightNeverShorterCode : Prop :=
  ∀ (t : CodeTree) (a b : Nat), t.WF → a < t.count → b < t.count → t.isLeaf a = true → t.isLeaf b = true →
    (t.node a).weight < (t.node b).weight → t.depth b ≤ t.depth a

/-- 10_state.md R51: the escape leaf is a deepest leaf. -/
def Obligations.EscapeIsADeepestLeaf : Prop :=
  ∀ (t : CodeTree) (a : Nat), t.WF → a < t.count → t.isLeaf a = true → t.depth a ≤ t.depth ESC

/-- 30_encoding.md R92: codes are prefix-free, and none is empty. -/
def Obligations.CodesArePrefixFree : Prop :=
  ∀ (t : CodeTree) (a b : Nat), t.WF → a < t.count → b < t.count → t.isLeaf a = true → t.isLeaf b = true → a ≠ b →
    ¬ t.pathTo a <+: t.pathTo b ∧ 1 ≤ (t.pathTo a).length

/-- 00_scope.md R13, 30_encoding.md R94: a code has 1 to (NODE_COUNT - 1) / 2 bits. The bound needs three nodes: in the
two-node tree, which is not full (10_state.md R40), the escape code has 1 bit (log 28). -/
def Obligations.CodeLengthIsBounded : Prop :=
  ∀ (t : CodeTree) (a : Nat), t.WF → a < t.count → t.isLeaf a = true →
    1 ≤ t.depth a ∧ (t.count ≠ 2 → t.depth a ≤ (t.count - 1) / 2) ∧ (t.count = 2 → t.depth a = 1)

/-! ## Faults, rejections, whole-machine rules -/

/-- 60_exceptions.md R217, 20_memory.md R76: a fault changes REG.STATE, REG.ERR_CAUSE and consumed input, nothing else: the tree, the
result registers, the outputs and the parameters keep their values; an encode that faults has consumed nothing either. -/
def Obligations.FaultsArePrecise : Prop :=
  ∀ (i : Instr) (s t : State) (r : Response), holds i s = false → exec i s = .next t → t.Answered r → r.isFault = true →
    t.engine = .fault ∧ errCauseCode t.errCause = r.status.setWidth 8 ∧ r = bareRecord r.status ∧ t.cmd = none ∧
    t.tree = s.tree ∧ t.lastResult = s.lastResult ∧ t.lastLen = s.lastLen ∧ t.params = s.params ∧ t.symIn = s.symIn ∧
    t.bitOut = s.bitOut ∧ t.litOut = s.litOut ∧ t.host = s.host ∧
    (∃ bs, s.bitIn = bitTokens bs ++ t.bitIn) ∧ (t.litIn = s.litIn ∨ ∃ l, s.litIn = .lit l :: t.litIn) ∧
    (i ≠ .decode → t.bitIn = s.bitIn ∧ t.litIn = s.litIn)

/-- 60_exceptions.md R218: a rejected command is as if it had not been issued, except for its response. -/
def Obligations.RejectionsChangeNothing : Prop :=
  ∀ (i : Instr) (s t : State) (r : Response), holds i s = false → exec i s = .next t → t.Answered r → r.isReject = true →
    t = s.answer (bareRecord r.status)

/-- 60_exceptions.md R212: which statuses each command can end in. -/
def Obligations.StatusesOfEachCommand : Prop :=
  ∀ (i : Instr) (s t : State) (r : Response), holds i s = false → exec i s = .next t → t.Answered r →
    match i with
    | .nop        => r.status = 0#4
    | .init       => r.status = 0#4
    | .encode     => r.status ∈ [0#4, 3#4, 4#4, 5#4, 8#4]
    | .encodeNull => r.status ∈ [0#4, 3#4, 4#4, 5#4, 8#4]
    | .decode     => r.status ∈ [0#4, 1#4, 2#4, 3#4, 4#4, 5#4, 8#4]
    | .readReg _  => r.status ∈ [0#4, 7#4]
    | .readNode _ => r.status ∈ [0#4, 7#4]

/-- 30_encoding.md R88, 70_reset_and_hazards.md R248, 20_memory.md R74, R75: every command that runs ends with exactly one response, and
it is the last event of the command. -/
def Obligations.EveryCommandRespondsOnce : Prop :=
  ∀ (i : Instr) (s : State), holds i s = false →
    ∃ (t : State) (es : List Event) (r : Response), exec i s = .next t ∧ t.cmd = none ∧
      t.history = s.history ++ es ++ [.respond r] ∧ t.responses = s.responses + 1

/-- 60_exceptions.md R221: only INIT or a hardware reset leaves FAULT or ENDED, and both discard the tree. -/
def Obligations.OnlyInitOrResetLeavesFaultAndEnded : Prop :=
  ∀ s t : State, step s = .next t → s.engine ≠ .ready → t.engine ≠ s.engine →
    (s.cmd = some 0x00000001#32 ∨ ∃ es, s.host = .hardwareReset :: es) ∧ t.Fresh

/-- 60_exceptions.md R222: in FAULT only NOP, INIT, READ_REG and READ_NODE are accepted, none faults, and a rejection, of
an illegal word too, leaves REG.STATE and REG.ERR_CAUSE as they are; only INIT changes them. -/
def Obligations.FaultsDoNotNest : Prop :=
  (∀ (i : Instr) (s : State), s.engine = .fault →
    ∃ t r, exec i s = .next t ∧ t.Answered r ∧ r.isFault = false ∧
      (i = .encode ∨ i = .encodeNull ∨ i = .decode → r.status = 8#4) ∧
      (i ≠ .init → t.engine = .fault ∧ t.errCause = s.errCause)) ∧
  ∀ (s : State) (w : CmdWord), s.engine = .fault → s.cmd = some w → (∃ e, decode w = .error e) →
    ∃ t r, step s = .next t ∧ t.Answered r ∧ r.isFault = false ∧ t.engine = .fault ∧ t.errCause = s.errCause

/-- 30_encoding.md R85: every command but ENCODE ignores SYM_IN. -/
def Obligations.OnlyEncodeReadsSymIn : Prop :=
  ∀ (i : Instr) (s : State) (v : SymVal), i ≠ .encode →
    exec i { s with symIn := v } = mapNext (fun t => { t with symIn := v }) (exec i s)

/-- 70_reset_and_hazards.md R243: no step changes the parameters, the hardware reset and the host's actions included. -/
def Obligations.ParametersNeverChange : Prop :=
  ∀ s t : State, step s = .next t → t.params = s.params

/-- 10_state.md R31, R52, 43_tree_update.md R160: TOTAL_WEIGHT rises by one at every OK encode, at every OK DECODE of a symbol, and not at
an END literal. -/
def Obligations.RootWeightCountsSymbols : Prop :=
  ∀ (i : Instr) (s t : State) (r : Response), Inv s → holds i s = false → exec i s = .next t → t.Answered r →
    r.status = 0#4 →
    (r.result ∈ [1#4, 2#4, 3#4, 4#4] → (t.tree.node ROOT).weight = (s.tree.node ROOT).weight + 1) ∧
    (r.result = 5#4 → t.tree = s.tree)

/-- 10_state.md R38 to R47, R26, R12, R127 of 41_decode.md: the invariant is kept by every step, from every state that meets it: `WF`, the
rank of the escape's parent (log 19), the bounds, the sym fields, no end-marker leaf before the end, ERR_CAUSE set exactly
in FAULT. -/
def Obligations.EveryStepKeepsTheInvariant : Prop :=
  ∀ s t : State, Inv s → step s = .next t → Inv t

/-- 10_state.md R38, R11, 43_tree_update.md R172: every step keeps `WF`, the rank of the escape's parent and the root's bound
together, whatever else the state holds: any engine state, sym fields, NODE_CAP and ERR_CAUSE. R38 and R172 say it of `WF`
alone; the other two premises are the model's (log 19). -/
def Obligations.WellFormednessIsKept : Prop :=
  ∀ s t : State, s.tree.WF → s.tree.EscapeParentThird → (s.tree.node ROOT).weight ≤ 2 ^ s.params.weightW - 1 →
    step s = .next t →
    t.tree.WF ∧ t.tree.EscapeParentThird ∧ (t.tree.node ROOT).weight ≤ 2 ^ t.params.weightW - 1
end

