-- ==== Sys2Proof/Laws/State.lean ====
section
/-! SUPPORT. One lemma per field of State per named update, true by rfl: what each operation of Machine/Ops.lean writes and
what it leaves alone, so that no later proof unfolds a record update. -/

namespace Sys2Proof.Machine

variable (s : State)

@[simp] theorem State.respond_params (r : Response) : (s.respond r).params = s.params := rfl
@[simp] theorem State.respond_engine (r : Response) : (s.respond r).engine = s.engine := rfl
@[simp] theorem State.respond_lastResult (r : Response) : (s.respond r).lastResult = s.lastResult := rfl
@[simp] theorem State.respond_errCause (r : Response) : (s.respond r).errCause = s.errCause := rfl
@[simp] theorem State.respond_lastLen (r : Response) : (s.respond r).lastLen = s.lastLen := rfl
@[simp] theorem State.respond_tree (r : Response) : (s.respond r).tree = s.tree := rfl
@[simp] theorem State.respond_cmd (r : Response) : (s.respond r).cmd = none := rfl
@[simp] theorem State.respond_symIn (r : Response) : (s.respond r).symIn = s.symIn := rfl
@[simp] theorem State.respond_bitIn (r : Response) : (s.respond r).bitIn = s.bitIn := rfl
@[simp] theorem State.respond_litIn (r : Response) : (s.respond r).litIn = s.litIn := rfl
@[simp] theorem State.respond_bitOut (r : Response) : (s.respond r).bitOut = s.bitOut := rfl
@[simp] theorem State.respond_litOut (r : Response) : (s.respond r).litOut = s.litOut := rfl
@[simp] theorem State.respond_history (r : Response) : (s.respond r).history = s.history ++ [.respond r] := rfl
@[simp] theorem State.respond_host (r : Response) : (s.respond r).host = s.host := rfl

@[simp] theorem State.raiseReject_params (c : RejectCode) : (s.raiseReject c).params = s.params := rfl
@[simp] theorem State.raiseReject_engine (c : RejectCode) : (s.raiseReject c).engine = s.engine := rfl
@[simp] theorem State.raiseReject_lastResult (c : RejectCode) : (s.raiseReject c).lastResult = s.lastResult := rfl
@[simp] theorem State.raiseReject_errCause (c : RejectCode) : (s.raiseReject c).errCause = s.errCause := rfl
@[simp] theorem State.raiseReject_lastLen (c : RejectCode) : (s.raiseReject c).lastLen = s.lastLen := rfl
@[simp] theorem State.raiseReject_tree (c : RejectCode) : (s.raiseReject c).tree = s.tree := rfl
@[simp] theorem State.raiseReject_cmd (c : RejectCode) : (s.raiseReject c).cmd = none := rfl
@[simp] theorem State.raiseReject_symIn (c : RejectCode) : (s.raiseReject c).symIn = s.symIn := rfl
@[simp] theorem State.raiseReject_bitIn (c : RejectCode) : (s.raiseReject c).bitIn = s.bitIn := rfl
@[simp] theorem State.raiseReject_litIn (c : RejectCode) : (s.raiseReject c).litIn = s.litIn := rfl
@[simp] theorem State.raiseReject_bitOut (c : RejectCode) : (s.raiseReject c).bitOut = s.bitOut := rfl
@[simp] theorem State.raiseReject_litOut (c : RejectCode) : (s.raiseReject c).litOut = s.litOut := rfl
@[simp] theorem State.raiseReject_history (c : RejectCode) : (s.raiseReject c).history = s.history ++ [.respond (.ofStatus c.code)] := rfl
@[simp] theorem State.raiseReject_host (c : RejectCode) : (s.raiseReject c).host = s.host := rfl

@[simp] theorem State.raiseFault_params (c : FaultCause) : (s.raiseFault c).params = s.params := rfl
@[simp] theorem State.raiseFault_engine (c : FaultCause) : (s.raiseFault c).engine = .fault := rfl
@[simp] theorem State.raiseFault_lastResult (c : FaultCause) : (s.raiseFault c).lastResult = s.lastResult := rfl
@[simp] theorem State.raiseFault_errCause (c : FaultCause) : (s.raiseFault c).errCause = some c := rfl
@[simp] theorem State.raiseFault_lastLen (c : FaultCause) : (s.raiseFault c).lastLen = s.lastLen := rfl
@[simp] theorem State.raiseFault_tree (c : FaultCause) : (s.raiseFault c).tree = s.tree := rfl
@[simp] theorem State.raiseFault_cmd (c : FaultCause) : (s.raiseFault c).cmd = none := rfl
@[simp] theorem State.raiseFault_symIn (c : FaultCause) : (s.raiseFault c).symIn = s.symIn := rfl
@[simp] theorem State.raiseFault_bitIn (c : FaultCause) : (s.raiseFault c).bitIn = s.bitIn := rfl
@[simp] theorem State.raiseFault_litIn (c : FaultCause) : (s.raiseFault c).litIn = s.litIn := rfl
@[simp] theorem State.raiseFault_bitOut (c : FaultCause) : (s.raiseFault c).bitOut = s.bitOut := rfl
@[simp] theorem State.raiseFault_litOut (c : FaultCause) : (s.raiseFault c).litOut = s.litOut := rfl
@[simp] theorem State.raiseFault_history (c : FaultCause) : (s.raiseFault c).history = s.history ++ [.respond (.ofStatus c.code)] := rfl
@[simp] theorem State.raiseFault_host (c : FaultCause) : (s.raiseFault c).host = s.host := rfl

@[simp] theorem State.restart_params : (s.restart).params = s.params := rfl
@[simp] theorem State.restart_engine : (s.restart).engine = .ready := rfl
@[simp] theorem State.restart_lastResult : (s.restart).lastResult = .none := rfl
@[simp] theorem State.restart_errCause : (s.restart).errCause = none := rfl
@[simp] theorem State.restart_lastLen : (s.restart).lastLen = 0#32 := rfl
@[simp] theorem State.restart_tree : (s.restart).tree = CodeTree.initial := rfl
@[simp] theorem State.restart_cmd : (s.restart).cmd = s.cmd := rfl
@[simp] theorem State.restart_symIn : (s.restart).symIn = s.symIn := rfl
@[simp] theorem State.restart_bitIn : (s.restart).bitIn = s.bitIn := rfl
@[simp] theorem State.restart_litIn : (s.restart).litIn = s.litIn := rfl
@[simp] theorem State.restart_bitOut : (s.restart).bitOut = s.bitOut := rfl
@[simp] theorem State.restart_litOut : (s.restart).litOut = s.litOut := rfl
@[simp] theorem State.restart_history : (s.restart).history = s.history := rfl
@[simp] theorem State.restart_host : (s.restart).host = s.host := rfl

@[simp] theorem State.hardwareReset_params : (s.hardwareReset).params = s.params := rfl
@[simp] theorem State.hardwareReset_engine : (s.hardwareReset).engine = .ready := rfl
@[simp] theorem State.hardwareReset_lastResult : (s.hardwareReset).lastResult = .none := rfl
@[simp] theorem State.hardwareReset_errCause : (s.hardwareReset).errCause = none := rfl
@[simp] theorem State.hardwareReset_lastLen : (s.hardwareReset).lastLen = 0#32 := rfl
@[simp] theorem State.hardwareReset_tree : (s.hardwareReset).tree = CodeTree.initial := rfl
@[simp] theorem State.hardwareReset_cmd : (s.hardwareReset).cmd = none := rfl
@[simp] theorem State.hardwareReset_symIn : (s.hardwareReset).symIn = s.symIn := rfl
@[simp] theorem State.hardwareReset_bitIn : (s.hardwareReset).bitIn = s.bitIn := rfl
@[simp] theorem State.hardwareReset_litIn : (s.hardwareReset).litIn = s.litIn := rfl
@[simp] theorem State.hardwareReset_bitOut : (s.hardwareReset).bitOut = s.bitOut := rfl
@[simp] theorem State.hardwareReset_litOut : (s.hardwareReset).litOut = s.litOut := rfl
@[simp] theorem State.hardwareReset_history : (s.hardwareReset).history = s.history ++ [.hardwareReset] := rfl
@[simp] theorem State.hardwareReset_host : (s.hardwareReset).host = s.host := rfl

@[simp] theorem State.issue_params (w : CmdWord) (v : SymVal) : (s.issue w v).params = s.params := rfl
@[simp] theorem State.issue_engine (w : CmdWord) (v : SymVal) : (s.issue w v).engine = s.engine := rfl
@[simp] theorem State.issue_lastResult (w : CmdWord) (v : SymVal) : (s.issue w v).lastResult = s.lastResult := rfl
@[simp] theorem State.issue_errCause (w : CmdWord) (v : SymVal) : (s.issue w v).errCause = s.errCause := rfl
@[simp] theorem State.issue_lastLen (w : CmdWord) (v : SymVal) : (s.issue w v).lastLen = s.lastLen := rfl
@[simp] theorem State.issue_tree (w : CmdWord) (v : SymVal) : (s.issue w v).tree = s.tree := rfl
@[simp] theorem State.issue_cmd (w : CmdWord) (v : SymVal) : (s.issue w v).cmd = some w := rfl
@[simp] theorem State.issue_symIn (w : CmdWord) (v : SymVal) : (s.issue w v).symIn = v := rfl
@[simp] theorem State.issue_bitIn (w : CmdWord) (v : SymVal) : (s.issue w v).bitIn = s.bitIn := rfl
@[simp] theorem State.issue_litIn (w : CmdWord) (v : SymVal) : (s.issue w v).litIn = s.litIn := rfl
@[simp] theorem State.issue_bitOut (w : CmdWord) (v : SymVal) : (s.issue w v).bitOut = s.bitOut := rfl
@[simp] theorem State.issue_litOut (w : CmdWord) (v : SymVal) : (s.issue w v).litOut = s.litOut := rfl
@[simp] theorem State.issue_history (w : CmdWord) (v : SymVal) : (s.issue w v).history = s.history := rfl
@[simp] theorem State.issue_host (w : CmdWord) (v : SymVal) : (s.issue w v).host = s.host := rfl

@[simp] theorem State.writeBits_params (bs : List Bool) : (s.writeBits bs).params = s.params := rfl
@[simp] theorem State.writeBits_engine (bs : List Bool) : (s.writeBits bs).engine = s.engine := rfl
@[simp] theorem State.writeBits_lastResult (bs : List Bool) : (s.writeBits bs).lastResult = s.lastResult := rfl
@[simp] theorem State.writeBits_errCause (bs : List Bool) : (s.writeBits bs).errCause = s.errCause := rfl
@[simp] theorem State.writeBits_lastLen (bs : List Bool) : (s.writeBits bs).lastLen = s.lastLen := rfl
@[simp] theorem State.writeBits_tree (bs : List Bool) : (s.writeBits bs).tree = s.tree := rfl
@[simp] theorem State.writeBits_cmd (bs : List Bool) : (s.writeBits bs).cmd = s.cmd := rfl
@[simp] theorem State.writeBits_symIn (bs : List Bool) : (s.writeBits bs).symIn = s.symIn := rfl
@[simp] theorem State.writeBits_bitIn (bs : List Bool) : (s.writeBits bs).bitIn = s.bitIn := rfl
@[simp] theorem State.writeBits_litIn (bs : List Bool) : (s.writeBits bs).litIn = s.litIn := rfl
@[simp] theorem State.writeBits_bitOut (bs : List Bool) : (s.writeBits bs).bitOut = s.bitOut ++ bs := rfl
@[simp] theorem State.writeBits_litOut (bs : List Bool) : (s.writeBits bs).litOut = s.litOut := rfl
@[simp] theorem State.writeBits_history (bs : List Bool) : (s.writeBits bs).history = s.history ++ bs.map .bitWrite := rfl
@[simp] theorem State.writeBits_host (bs : List Bool) : (s.writeBits bs).host = s.host := rfl

@[simp] theorem State.writeLit_params (l : Literal) : (s.writeLit l).params = s.params := rfl
@[simp] theorem State.writeLit_engine (l : Literal) : (s.writeLit l).engine = s.engine := rfl
@[simp] theorem State.writeLit_lastResult (l : Literal) : (s.writeLit l).lastResult = s.lastResult := rfl
@[simp] theorem State.writeLit_errCause (l : Literal) : (s.writeLit l).errCause = s.errCause := rfl
@[simp] theorem State.writeLit_lastLen (l : Literal) : (s.writeLit l).lastLen = s.lastLen := rfl
@[simp] theorem State.writeLit_tree (l : Literal) : (s.writeLit l).tree = s.tree := rfl
@[simp] theorem State.writeLit_cmd (l : Literal) : (s.writeLit l).cmd = s.cmd := rfl
@[simp] theorem State.writeLit_symIn (l : Literal) : (s.writeLit l).symIn = s.symIn := rfl
@[simp] theorem State.writeLit_bitIn (l : Literal) : (s.writeLit l).bitIn = s.bitIn := rfl
@[simp] theorem State.writeLit_litIn (l : Literal) : (s.writeLit l).litIn = s.litIn := rfl
@[simp] theorem State.writeLit_bitOut (l : Literal) : (s.writeLit l).bitOut = s.bitOut := rfl
@[simp] theorem State.writeLit_litOut (l : Literal) : (s.writeLit l).litOut = s.litOut ++ [l] := rfl
@[simp] theorem State.writeLit_history (l : Literal) : (s.writeLit l).history = s.history ++ [.litWrite l] := rfl
@[simp] theorem State.writeLit_host (l : Literal) : (s.writeLit l).host = s.host := rfl

@[simp] theorem State.consumeBits_params (n : Nat) : (s.consumeBits n).params = s.params := rfl
@[simp] theorem State.consumeBits_engine (n : Nat) : (s.consumeBits n).engine = s.engine := rfl
@[simp] theorem State.consumeBits_lastResult (n : Nat) : (s.consumeBits n).lastResult = s.lastResult := rfl
@[simp] theorem State.consumeBits_errCause (n : Nat) : (s.consumeBits n).errCause = s.errCause := rfl
@[simp] theorem State.consumeBits_lastLen (n : Nat) : (s.consumeBits n).lastLen = s.lastLen := rfl
@[simp] theorem State.consumeBits_tree (n : Nat) : (s.consumeBits n).tree = s.tree := rfl
@[simp] theorem State.consumeBits_cmd (n : Nat) : (s.consumeBits n).cmd = s.cmd := rfl
@[simp] theorem State.consumeBits_symIn (n : Nat) : (s.consumeBits n).symIn = s.symIn := rfl
@[simp] theorem State.consumeBits_bitIn (n : Nat) : (s.consumeBits n).bitIn = s.bitIn.drop n := rfl
@[simp] theorem State.consumeBits_litIn (n : Nat) : (s.consumeBits n).litIn = s.litIn := rfl
@[simp] theorem State.consumeBits_bitOut (n : Nat) : (s.consumeBits n).bitOut = s.bitOut := rfl
@[simp] theorem State.consumeBits_litOut (n : Nat) : (s.consumeBits n).litOut = s.litOut := rfl
@[simp] theorem State.consumeBits_history (n : Nat) : (s.consumeBits n).history = s.history ++ (s.bitIn.take n).map .bitRead := rfl
@[simp] theorem State.consumeBits_host (n : Nat) : (s.consumeBits n).host = s.host := rfl

@[simp] theorem State.readBitEos_params : (s.readBitEos).params = s.params := rfl
@[simp] theorem State.readBitEos_engine : (s.readBitEos).engine = s.engine := rfl
@[simp] theorem State.readBitEos_lastResult : (s.readBitEos).lastResult = s.lastResult := rfl
@[simp] theorem State.readBitEos_errCause : (s.readBitEos).errCause = s.errCause := rfl
@[simp] theorem State.readBitEos_lastLen : (s.readBitEos).lastLen = s.lastLen := rfl
@[simp] theorem State.readBitEos_tree : (s.readBitEos).tree = s.tree := rfl
@[simp] theorem State.readBitEos_cmd : (s.readBitEos).cmd = s.cmd := rfl
@[simp] theorem State.readBitEos_symIn : (s.readBitEos).symIn = s.symIn := rfl
@[simp] theorem State.readBitEos_bitIn : (s.readBitEos).bitIn = s.bitIn := rfl
@[simp] theorem State.readBitEos_litIn : (s.readBitEos).litIn = s.litIn := rfl
@[simp] theorem State.readBitEos_bitOut : (s.readBitEos).bitOut = s.bitOut := rfl
@[simp] theorem State.readBitEos_litOut : (s.readBitEos).litOut = s.litOut := rfl
@[simp] theorem State.readBitEos_history : (s.readBitEos).history = s.history ++ [.bitRead .eos] := rfl
@[simp] theorem State.readBitEos_host : (s.readBitEos).host = s.host := rfl

@[simp] theorem State.consumeLit_params (l : Literal) : (s.consumeLit l).params = s.params := rfl
@[simp] theorem State.consumeLit_engine (l : Literal) : (s.consumeLit l).engine = s.engine := rfl
@[simp] theorem State.consumeLit_lastResult (l : Literal) : (s.consumeLit l).lastResult = s.lastResult := rfl
@[simp] theorem State.consumeLit_errCause (l : Literal) : (s.consumeLit l).errCause = s.errCause := rfl
@[simp] theorem State.consumeLit_lastLen (l : Literal) : (s.consumeLit l).lastLen = s.lastLen := rfl
@[simp] theorem State.consumeLit_tree (l : Literal) : (s.consumeLit l).tree = s.tree := rfl
@[simp] theorem State.consumeLit_cmd (l : Literal) : (s.consumeLit l).cmd = s.cmd := rfl
@[simp] theorem State.consumeLit_symIn (l : Literal) : (s.consumeLit l).symIn = s.symIn := rfl
@[simp] theorem State.consumeLit_bitIn (l : Literal) : (s.consumeLit l).bitIn = s.bitIn := rfl
@[simp] theorem State.consumeLit_litIn (l : Literal) : (s.consumeLit l).litIn = s.litIn.tail := rfl
@[simp] theorem State.consumeLit_bitOut (l : Literal) : (s.consumeLit l).bitOut = s.bitOut := rfl
@[simp] theorem State.consumeLit_litOut (l : Literal) : (s.consumeLit l).litOut = s.litOut := rfl
@[simp] theorem State.consumeLit_history (l : Literal) : (s.consumeLit l).history = s.history ++ [.litRead (.lit l)] := rfl
@[simp] theorem State.consumeLit_host (l : Literal) : (s.consumeLit l).host = s.host := rfl

@[simp] theorem State.readLitEos_params : (s.readLitEos).params = s.params := rfl
@[simp] theorem State.readLitEos_engine : (s.readLitEos).engine = s.engine := rfl
@[simp] theorem State.readLitEos_lastResult : (s.readLitEos).lastResult = s.lastResult := rfl
@[simp] theorem State.readLitEos_errCause : (s.readLitEos).errCause = s.errCause := rfl
@[simp] theorem State.readLitEos_lastLen : (s.readLitEos).lastLen = s.lastLen := rfl
@[simp] theorem State.readLitEos_tree : (s.readLitEos).tree = s.tree := rfl
@[simp] theorem State.readLitEos_cmd : (s.readLitEos).cmd = s.cmd := rfl
@[simp] theorem State.readLitEos_symIn : (s.readLitEos).symIn = s.symIn := rfl
@[simp] theorem State.readLitEos_bitIn : (s.readLitEos).bitIn = s.bitIn := rfl
@[simp] theorem State.readLitEos_litIn : (s.readLitEos).litIn = s.litIn := rfl
@[simp] theorem State.readLitEos_bitOut : (s.readLitEos).bitOut = s.bitOut := rfl
@[simp] theorem State.readLitEos_litOut : (s.readLitEos).litOut = s.litOut := rfl
@[simp] theorem State.readLitEos_history : (s.readLitEos).history = s.history ++ [.litRead .eos] := rfl
@[simp] theorem State.readLitEos_host : (s.readLitEos).host = s.host := rfl

@[simp] theorem State.indexInsert_params (k : Key) (i : Nat) : (s.indexInsert k i).params = s.params := rfl
@[simp] theorem State.indexInsert_engine (k : Key) (i : Nat) : (s.indexInsert k i).engine = s.engine := rfl
@[simp] theorem State.indexInsert_lastResult (k : Key) (i : Nat) : (s.indexInsert k i).lastResult = s.lastResult := rfl
@[simp] theorem State.indexInsert_errCause (k : Key) (i : Nat) : (s.indexInsert k i).errCause = s.errCause := rfl
@[simp] theorem State.indexInsert_lastLen (k : Key) (i : Nat) : (s.indexInsert k i).lastLen = s.lastLen := rfl
@[simp] theorem State.indexInsert_tree (k : Key) (i : Nat) : (s.indexInsert k i).tree = s.tree := rfl
@[simp] theorem State.indexInsert_cmd (k : Key) (i : Nat) : (s.indexInsert k i).cmd = s.cmd := rfl
@[simp] theorem State.indexInsert_symIn (k : Key) (i : Nat) : (s.indexInsert k i).symIn = s.symIn := rfl
@[simp] theorem State.indexInsert_bitIn (k : Key) (i : Nat) : (s.indexInsert k i).bitIn = s.bitIn := rfl
@[simp] theorem State.indexInsert_litIn (k : Key) (i : Nat) : (s.indexInsert k i).litIn = s.litIn := rfl
@[simp] theorem State.indexInsert_bitOut (k : Key) (i : Nat) : (s.indexInsert k i).bitOut = s.bitOut := rfl
@[simp] theorem State.indexInsert_litOut (k : Key) (i : Nat) : (s.indexInsert k i).litOut = s.litOut := rfl
@[simp] theorem State.indexInsert_history (k : Key) (i : Nat) : (s.indexInsert k i).history = s.history ++ [.indexInsert k i] := rfl
@[simp] theorem State.indexInsert_host (k : Key) (i : Nat) : (s.indexInsert k i).host = s.host := rfl

@[simp] theorem State.setTree_params (t : CodeTree) : (s.setTree t).params = s.params := rfl
@[simp] theorem State.setTree_engine (t : CodeTree) : (s.setTree t).engine = s.engine := rfl
@[simp] theorem State.setTree_lastResult (t : CodeTree) : (s.setTree t).lastResult = s.lastResult := rfl
@[simp] theorem State.setTree_errCause (t : CodeTree) : (s.setTree t).errCause = s.errCause := rfl
@[simp] theorem State.setTree_lastLen (t : CodeTree) : (s.setTree t).lastLen = s.lastLen := rfl
@[simp] theorem State.setTree_tree (t : CodeTree) : (s.setTree t).tree = t := rfl
@[simp] theorem State.setTree_cmd (t : CodeTree) : (s.setTree t).cmd = s.cmd := rfl
@[simp] theorem State.setTree_symIn (t : CodeTree) : (s.setTree t).symIn = s.symIn := rfl
@[simp] theorem State.setTree_bitIn (t : CodeTree) : (s.setTree t).bitIn = s.bitIn := rfl
@[simp] theorem State.setTree_litIn (t : CodeTree) : (s.setTree t).litIn = s.litIn := rfl
@[simp] theorem State.setTree_bitOut (t : CodeTree) : (s.setTree t).bitOut = s.bitOut := rfl
@[simp] theorem State.setTree_litOut (t : CodeTree) : (s.setTree t).litOut = s.litOut := rfl
@[simp] theorem State.setTree_history (t : CodeTree) : (s.setTree t).history = s.history := rfl
@[simp] theorem State.setTree_host (t : CodeTree) : (s.setTree t).host = s.host := rfl

@[simp] theorem State.setResult_params (q : ResultCode) (n : Nat) : (s.setResult q n).params = s.params := rfl
@[simp] theorem State.setResult_engine (q : ResultCode) (n : Nat) : (s.setResult q n).engine = s.engine := rfl
@[simp] theorem State.setResult_lastResult (q : ResultCode) (n : Nat) : (s.setResult q n).lastResult = q := rfl
@[simp] theorem State.setResult_errCause (q : ResultCode) (n : Nat) : (s.setResult q n).errCause = s.errCause := rfl
@[simp] theorem State.setResult_lastLen (q : ResultCode) (n : Nat) : (s.setResult q n).lastLen = BitVec.ofNat 32 n := rfl
@[simp] theorem State.setResult_tree (q : ResultCode) (n : Nat) : (s.setResult q n).tree = s.tree := rfl
@[simp] theorem State.setResult_cmd (q : ResultCode) (n : Nat) : (s.setResult q n).cmd = s.cmd := rfl
@[simp] theorem State.setResult_symIn (q : ResultCode) (n : Nat) : (s.setResult q n).symIn = s.symIn := rfl
@[simp] theorem State.setResult_bitIn (q : ResultCode) (n : Nat) : (s.setResult q n).bitIn = s.bitIn := rfl
@[simp] theorem State.setResult_litIn (q : ResultCode) (n : Nat) : (s.setResult q n).litIn = s.litIn := rfl
@[simp] theorem State.setResult_bitOut (q : ResultCode) (n : Nat) : (s.setResult q n).bitOut = s.bitOut := rfl
@[simp] theorem State.setResult_litOut (q : ResultCode) (n : Nat) : (s.setResult q n).litOut = s.litOut := rfl
@[simp] theorem State.setResult_history (q : ResultCode) (n : Nat) : (s.setResult q n).history = s.history := rfl
@[simp] theorem State.setResult_host (q : ResultCode) (n : Nat) : (s.setResult q n).host = s.host := rfl

@[simp] theorem State.endStream_params : (s.endStream).params = s.params := rfl
@[simp] theorem State.endStream_engine : (s.endStream).engine = .ended := rfl
@[simp] theorem State.endStream_lastResult : (s.endStream).lastResult = s.lastResult := rfl
@[simp] theorem State.endStream_errCause : (s.endStream).errCause = s.errCause := rfl
@[simp] theorem State.endStream_lastLen : (s.endStream).lastLen = s.lastLen := rfl
@[simp] theorem State.endStream_tree : (s.endStream).tree = s.tree := rfl
@[simp] theorem State.endStream_cmd : (s.endStream).cmd = s.cmd := rfl
@[simp] theorem State.endStream_symIn : (s.endStream).symIn = s.symIn := rfl
@[simp] theorem State.endStream_bitIn : (s.endStream).bitIn = s.bitIn := rfl
@[simp] theorem State.endStream_litIn : (s.endStream).litIn = s.litIn := rfl
@[simp] theorem State.endStream_bitOut : (s.endStream).bitOut = s.bitOut := rfl
@[simp] theorem State.endStream_litOut : (s.endStream).litOut = s.litOut := rfl
@[simp] theorem State.endStream_history : (s.endStream).history = s.history := rfl
@[simp] theorem State.endStream_host : (s.endStream).host = s.host := rfl

@[simp] theorem State.placeCommand_params (n w : Nat) : (s.placeCommand n w).params = s.params := rfl
@[simp] theorem State.placeCommand_engine (n w : Nat) : (s.placeCommand n w).engine = s.engine := rfl
@[simp] theorem State.placeCommand_lastResult (n w : Nat) : (s.placeCommand n w).lastResult = s.lastResult := rfl
@[simp] theorem State.placeCommand_errCause (n w : Nat) : (s.placeCommand n w).errCause = s.errCause := rfl
@[simp] theorem State.placeCommand_lastLen (n w : Nat) : (s.placeCommand n w).lastLen = s.lastLen := rfl
@[simp] theorem State.placeCommand_tree (n w : Nat) : (s.placeCommand n w).tree = s.tree := rfl
@[simp] theorem State.placeCommand_cmd (n w : Nat) : (s.placeCommand n w).cmd = some (BitVec.ofNat 32 (w % 2 ^ n)) := rfl
@[simp] theorem State.placeCommand_symIn (n w : Nat) : (s.placeCommand n w).symIn = s.symIn := rfl
@[simp] theorem State.placeCommand_bitIn (n w : Nat) : (s.placeCommand n w).bitIn = s.bitIn := rfl
@[simp] theorem State.placeCommand_litIn (n w : Nat) : (s.placeCommand n w).litIn = s.litIn := rfl
@[simp] theorem State.placeCommand_bitOut (n w : Nat) : (s.placeCommand n w).bitOut = s.bitOut := rfl
@[simp] theorem State.placeCommand_litOut (n w : Nat) : (s.placeCommand n w).litOut = s.litOut := rfl
@[simp] theorem State.placeCommand_history (n w : Nat) : (s.placeCommand n w).history = s.history := rfl
@[simp] theorem State.placeCommand_host (n w : Nat) : (s.placeCommand n w).host = s.host := rfl

end Sys2Proof.Machine
end

