-- ==== Sys2Proof/Laws/Tree.lean ====
section
/-! SUPPORT. The small lemmas of the code tree: what reading an entry, a rank or the count gives after each named write; what
the updater never touches; the candidates of the comparator; `wf` and `WF`. -/

namespace Sys2Proof.Machine

/-! ## Reading after a write -/

theorem CodeTree.node_eq_getElem (t : CodeTree) {i : Nat} (h : i < t.nodes.length) : t.node i = t.nodes[i] := by
  simp [CodeTree.node, List.getD, List.getElem?_eq_getElem h]

theorem CodeTree.at_eq_getElem (t : CodeTree) {r : Nat} (h : r < t.order.length) : t.at r = t.order[r] := by
  simp [CodeTree.at, List.getD, List.getElem?_eq_getElem h]

@[simp] theorem CodeTree.count_modifyNode (t : CodeTree) (i : Nat) (f : Node → Node) :
    (t.modifyNode i f).count = t.count := by
  simp [CodeTree.modifyNode, CodeTree.count]

@[simp] theorem CodeTree.order_modifyNode (t : CodeTree) (i : Nat) (f : Node → Node) :
    (t.modifyNode i f).order = t.order := rfl

/-- A write to entry `i` is read at `i` and nowhere else. -/
theorem CodeTree.node_modifyNode (t : CodeTree) (i : Nat) (f : Node → Node) (j : Nat) :
    (t.modifyNode i f).node j = if j = i ∧ i < t.count then f (t.node i) else t.node j := by
  unfold CodeTree.node CodeTree.modifyNode CodeTree.count
  simp only [List.getD_eq_getElem?_getD, List.getElem?_modify]
  by_cases hji : j = i
  · subst hji
    by_cases hj : j < t.nodes.length
    · simp [hj]
    · simp [hj]
  · simp [hji, Ne.symm hji]

@[simp] theorem CodeTree.rank_modifyNode (t : CodeTree) (i : Nat) (f : Node → Node) (j : Nat) :
    (t.modifyNode i f).rank j = t.rank j := rfl

@[simp] theorem CodeTree.at_modifyNode (t : CodeTree) (i : Nat) (f : Node → Node) (r : Nat) :
    (t.modifyNode i f).at r = t.at r := rfl

@[simp] theorem CodeTree.count_setParent (t : CodeTree) (i : Nat) (p : Option Nat) :
    (t.setParent i p).count = t.count := by simp [CodeTree.setParent]

@[simp] theorem CodeTree.order_setParent (t : CodeTree) (i : Nat) (p : Option Nat) :
    (t.setParent i p).order = t.order := rfl

@[simp] theorem CodeTree.count_replaceChild (t : CodeTree) (p : Option Nat) (a b : Nat) :
    (t.replaceChild p a b).count = t.count := by cases p <;> simp [CodeTree.replaceChild]

@[simp] theorem CodeTree.order_replaceChild (t : CodeTree) (p : Option Nat) (a b : Nat) :
    (t.replaceChild p a b).order = t.order := by cases p <;> rfl

@[simp] theorem CodeTree.count_exchangeSlots (t : CodeTree) (p : Option Nat) :
    (t.exchangeSlots p).count = t.count := by cases p <;> simp [CodeTree.exchangeSlots]

@[simp] theorem CodeTree.order_exchangeSlots (t : CodeTree) (p : Option Nat) :
    (t.exchangeSlots p).order = t.order := by cases p <;> rfl

@[simp] theorem CodeTree.count_swapLinks (t : CodeTree) (a b : Nat) : (t.swapLinks a b).count = t.count := by
  unfold CodeTree.swapLinks; dsimp only; split <;> simp

@[simp] theorem CodeTree.order_swapLinks (t : CodeTree) (a b : Nat) : (t.swapLinks a b).order = t.order := by
  unfold CodeTree.swapLinks; dsimp only; split <;> simp

@[simp] theorem CodeTree.count_swap (t : CodeTree) (a b : Nat) : (t.swap a b).count = t.count :=
  CodeTree.count_swapLinks t a b

@[simp] theorem CodeTree.node_swap (t : CodeTree) (a b i : Nat) : (t.swap a b).node i = (t.swapLinks a b).node i := rfl

theorem CodeTree.order_swap (t : CodeTree) (a b : Nat) :
    (t.swap a b).order = (t.order.set (t.rank a) b).set (t.rank b) a := rfl

/-- An update pass visits with a swap along the successor, or with none. -/
theorem CodeTree.promote_cases (t : CodeTree) (x : Nat) :
    (t.successor x = none ∧ t.promote x = t) ∨ ∃ s, t.successor x = some s ∧ t.promote x = t.swap x s := by
  unfold CodeTree.promote
  cases h : t.successor x with
  | none => exact .inl ⟨rfl, rfl⟩
  | some s => exact .inr ⟨s, rfl, rfl⟩

@[simp] theorem CodeTree.count_promote (t : CodeTree) (x : Nat) : (t.promote x).count = t.count := by
  obtain ⟨-, h⟩ | ⟨s, -, h⟩ := t.promote_cases x <;> simp [h]

@[simp] theorem CodeTree.count_increment (p : Params) (t : CodeTree) (x : Nat) :
    (CodeTree.increment p t x).count = t.count := by simp [CodeTree.increment]

@[simp] theorem CodeTree.order_increment (p : Params) (t : CodeTree) (x : Nat) :
    (CodeTree.increment p t x).order = t.order := rfl

@[simp] theorem CodeTree.count_visit (p : Params) (t : CodeTree) (x : Nat) :
    (CodeTree.visit p t x).count = t.count := by simp [CodeTree.visit]

@[simp] theorem CodeTree.count_updateFrom (p : Params) (f : Nat) (t : CodeTree) (x : Option Nat) :
    (CodeTree.updateFrom p f t x).count = t.count := by
  induction f generalizing t x with
  | zero => rfl
  | succ f ih => cases x <;> simp [CodeTree.updateFrom, ih]

/-- No update pass changes `REG.NODE_COUNT` (10_state.md R30). -/
@[simp] theorem CodeTree.count_update (p : Params) (t : CodeTree) (x : Nat) :
    (CodeTree.update p t x).count = t.count := by simp [CodeTree.update]

/-! ## What the updater never touches -/

/-- `f` keeps the kind and the symbol of every entry. -/
theorem CodeTree.label_modifyNode (t : CodeTree) (i : Nat) (f : Node → Node)
    (hf : ∀ nd, (f nd).kind = nd.kind ∧ (f nd).sym = nd.sym) (j : Nat) :
    ((t.modifyNode i f).node j).kind = (t.node j).kind ∧ ((t.modifyNode i f).node j).sym = (t.node j).sym := by
  rw [CodeTree.node_modifyNode]
  split
  · rename_i h; rw [h.1]; exact hf _
  · exact ⟨rfl, rfl⟩

theorem CodeTree.label_replaceChild (t : CodeTree) (p : Option Nat) (a b j : Nat) :
    ((t.replaceChild p a b).node j).kind = (t.node j).kind ∧ ((t.replaceChild p a b).node j).sym = (t.node j).sym := by
  cases p with
  | none => exact ⟨rfl, rfl⟩
  | some p =>
    refine CodeTree.label_modifyNode t p _ ?_ j
    intro nd; split <;> exact ⟨rfl, rfl⟩

theorem CodeTree.label_exchangeSlots (t : CodeTree) (p : Option Nat) (j : Nat) :
    ((t.exchangeSlots p).node j).kind = (t.node j).kind ∧ ((t.exchangeSlots p).node j).sym = (t.node j).sym := by
  cases p with
  | none => exact ⟨rfl, rfl⟩
  | some p =>
    refine CodeTree.label_modifyNode t p _ ?_ j
    exact fun nd => ⟨rfl, rfl⟩

theorem CodeTree.label_setParent (t : CodeTree) (i : Nat) (p : Option Nat) (j : Nat) :
    ((t.setParent i p).node j).kind = (t.node j).kind ∧ ((t.setParent i p).node j).sym = (t.node j).sym := by
  refine CodeTree.label_modifyNode t i _ ?_ j
  exact fun nd => ⟨rfl, rfl⟩

/-- A swap keeps every node's kind and symbol (43_tree_update.md R166). -/
theorem CodeTree.label_swap (t : CodeTree) (a b j : Nat) :
    ((t.swap a b).node j).kind = (t.node j).kind ∧ ((t.swap a b).node j).sym = (t.node j).sym := by
  rw [CodeTree.node_swap]
  unfold CodeTree.swapLinks; dsimp only; split
  · exact t.label_exchangeSlots _ j
  · simp only [CodeTree.label_setParent, CodeTree.label_replaceChild, and_self]

theorem CodeTree.label_visit (p : Params) (t : CodeTree) (x j : Nat) :
    ((CodeTree.visit p t x).node j).kind = (t.node j).kind ∧ ((CodeTree.visit p t x).node j).sym = (t.node j).sym := by
  have h := (t.promote x).label_modifyNode x (fun nd => { nd with weight := (nd.weight + 1) % 2 ^ p.weightW })
    (fun _ => ⟨rfl, rfl⟩) j
  have h' : ((t.promote x).node j).kind = (t.node j).kind ∧ ((t.promote x).node j).sym = (t.node j).sym := by
    obtain ⟨-, e⟩ | ⟨s, -, e⟩ := t.promote_cases x
    · rw [e]; exact ⟨rfl, rfl⟩
    · rw [e]; exact t.label_swap x s j
  exact ⟨h.1.trans h'.1, h.2.trans h'.2⟩

theorem CodeTree.label_updateFrom (p : Params) (f : Nat) (t : CodeTree) (x : Option Nat) (j : Nat) :
    ((CodeTree.updateFrom p f t x).node j).kind = (t.node j).kind ∧
    ((CodeTree.updateFrom p f t x).node j).sym = (t.node j).sym := by
  induction f generalizing t x with
  | zero => exact ⟨rfl, rfl⟩
  | succ f ih =>
    cases x with
    | none => exact ⟨rfl, rfl⟩
    | some x =>
      have h := ih (CodeTree.visit p t x) ((CodeTree.visit p t x).node x).parent
      have h' := t.label_visit p x j
      exact ⟨h.1.trans h'.1, h.2.trans h'.2⟩

/-- An update pass keeps every node's kind and symbol. -/
theorem CodeTree.label_update (p : Params) (t : CodeTree) (x j : Nat) :
    ((CodeTree.update p t x).node j).kind = (t.node j).kind ∧ ((CodeTree.update p t x).node j).sym = (t.node j).sym :=
  t.label_updateFrom p t.count (some x) j

/-- `Lookup` finds the first entry that carries the key. -/
theorem CodeTree.lookup_eq_some (t : CodeTree) (key : Key) (i : Nat) :
    t.lookup key = some i ↔ i < t.count ∧ carries key (t.node i) = true ∧ ∀ j < i, carries key (t.node j) = false := by
  unfold CodeTree.lookup CodeTree.count
  rw [List.findIdx?_eq_some_iff_getElem]
  refine ⟨fun ⟨h, hp, hn⟩ => ⟨h, t.node_eq_getElem h ▸ hp, fun j hj => ?_⟩,
    fun ⟨h, hp, hn⟩ => ⟨h, t.node_eq_getElem h ▸ hp, fun j hj => ?_⟩⟩
  · rw [t.node_eq_getElem (Nat.lt_trans hj h)]
    exact Bool.eq_false_iff.2 (hn j hj)
  · rw [← t.node_eq_getElem (Nat.lt_trans hj h)]
    exact Bool.eq_false_iff.1 (hn j hj)

theorem CodeTree.lookup_eq_none (t : CodeTree) (key : Key) :
    t.lookup key = none ↔ ∀ i < t.count, carries key (t.node i) = false := by
  unfold CodeTree.lookup CodeTree.count
  rw [List.findIdx?_eq_none_iff]
  constructor
  · intro h i hi
    rw [t.node_eq_getElem hi]
    exact h _ (List.getElem_mem hi)
  · intro h x hx
    obtain ⟨i, hi, rfl⟩ := List.getElem_of_mem hx
    rw [← t.node_eq_getElem hi]
    exact h i hi

/-- Trees with the same entries' kinds and symbols, in the same number, give the same `Lookup`. -/
theorem CodeTree.lookup_congr (t t' : CodeTree) (key : Key) (hc : t'.count = t.count)
    (hl : ∀ i, (t'.node i).kind = (t.node i).kind ∧ (t'.node i).sym = (t.node i).sym) :
    t'.lookup key = t.lookup key := by
  have hcar : ∀ i, carries key (t'.node i) = carries key (t.node i) := fun i => by
    unfold carries; rw [(hl i).1, (hl i).2]
  cases h : t.lookup key with
  | none =>
    rw [CodeTree.lookup_eq_none] at h ⊢
    intro i hi; rw [hcar]; exact h i (hc ▸ hi)
  | some i =>
    rw [CodeTree.lookup_eq_some] at h ⊢
    exact ⟨hc ▸ h.1, by rw [hcar]; exact h.2.1, fun j hj => by rw [hcar]; exact h.2.2 j hj⟩

/-- An update pass does not change what `Lookup` answers (20_memory.md R69). -/
@[simp] theorem CodeTree.lookup_update (p : Params) (t : CodeTree) (x : Nat) (key : Key) :
    (CodeTree.update p t x).lookup key = t.lookup key :=
  CodeTree.lookup_congr _ _ key (CodeTree.count_update p t x) (t.label_update p x)

/-! ## The comparator -/

/-- What a candidate is (43_tree_update.md R163). -/
theorem CodeTree.mem_candidates (t : CodeTree) (x y : Nat) :
    y ∈ t.candidates x ↔
      y ∈ t.order.drop (t.rank x + 1) ∧ (t.node y).weight = (t.node x).weight ∧ t.related y x = false := by
  simp [CodeTree.candidates]

/-- A successor is a candidate. -/
theorem CodeTree.successor_mem (t : CodeTree) {x s : Nat} (h : t.successor x = some s) : s ∈ t.candidates x :=
  List.mem_of_getLast? h

/-- No successor, no candidate. -/
theorem CodeTree.successor_eq_none (t : CodeTree) (x : Nat) : t.successor x = none ↔ t.candidates x = [] := by
  simp [CodeTree.successor]

/-! ## Growth -/

theorem CodeTree.need_pos (t : CodeTree) : 1 ≤ t.need ∧ t.need ≤ 2 := by
  unfold CodeTree.need; split <;> omega

/-- Growth adds `need` nodes (10_state.md R30). -/
theorem CodeTree.count_add (t : CodeTree) (key : Key) : (t.add key).count = t.count + t.need := by
  unfold CodeTree.add CodeTree.need
  split
  · simp [CodeTree.addBesideEscape, CodeTree.allocate, CodeTree.count, CodeTree.modifyNode]
  · simp [CodeTree.addBelowParent, CodeTree.allocate, CodeTree.count, CodeTree.modifyNode, CodeTree.setParent]

/-! ## The check -/

/-- The block's check is the predicate `WF` (43_tree_update.md R170). -/
theorem CodeTree.wf_iff (t : CodeTree) : t.wf = true ↔ t.WF := by
  simp only [CodeTree.wf, CodeTree.WF, Bool.and_eq_true, decide_eq_true_eq, and_assoc]

theorem CodeTree.wf_eq_false_iff (t : CodeTree) : t.wf = false ↔ ¬ t.WF := by
  rw [← t.wf_iff]; simp

end Sys2Proof.Machine
end

