-- ==== Sys2Proof/Laws/Command.lean ====
section
/-! SUPPORT. What each command can do, said once: one inversion lemma per shared operation of the commands, for `exec`, for
the host's turn and for `step`; the walk along the path of a leaf. -/

namespace Sys2Proof.Machine

/-! ## Encode -/

/-- The seven ways `EncodeKey` ends (40_encode.md R102, R103). -/
theorem encodeKey_cases (key : Key) (s : State) :
    (s.engine ≠ .ready ∧ encodeKey key s = s.raiseReject .notReady) ∨
    (s.engine = .ready ∧ ¬ s.tree.WF ∧ encodeKey key s = s.raiseFault .corruptTree) ∨
    (s.engine = .ready ∧ s.tree.WF ∧
      ((∃ leaf, s.tree.lookup key = some leaf ∧
          ((s.atMaxWeight = true ∧ encodeKey key s = s.raiseFault .weightOverflow) ∨
           (s.atMaxWeight = false ∧ encodeKey key s = encodeKnown key leaf s))) ∨
       (s.tree.lookup key = none ∧
          ((s.lacksRoom = true ∧ encodeKey key s = s.raiseFault .capacityExceeded) ∨
           (s.lacksRoom = false ∧ s.atMaxWeight = true ∧ encodeKey key s = s.raiseFault .weightOverflow) ∨
           (s.lacksRoom = false ∧ s.atMaxWeight = false ∧ encodeKey key s = encodeNew key s))))) := by
  unfold encodeKey
  by_cases h1 : s.engine = .ready
  · by_cases h2 : s.tree.wf = true
    · have hw := s.tree.wf_iff.1 h2
      cases h3 : s.tree.lookup key with
      | some leaf => cases h4 : s.atMaxWeight <;> simp [h1, h2, hw]
      | none => cases h5 : s.lacksRoom <;> cases h4 : s.atMaxWeight <;> simp [h1, h2, hw]
    · have hf : s.tree.wf = false := by simpa using h2
      have hw := s.tree.wf_eq_false_iff.1 hf
      simp [h1, hf, hw]
  · simp [h1]

/-! ## Decode -/

/-- The ways `DecodeFn` ends (41_decode.md R121, R128). -/
theorem decodeFn_cases (s : State) :
    (s.engine ≠ .ready ∧ decodeFn s = .done (s.raiseReject .notReady)) ∨
    (s.engine = .ready ∧ ¬ s.tree.WF ∧ decodeFn s = .done (s.raiseFault .corruptTree)) ∨
    (s.engine = .ready ∧ s.tree.WF ∧
      ((s.tree.walk ROOT 0 s.bitIn = .needMore ∧ decodeFn s = .needMore) ∨
       (∃ n, s.tree.walk ROOT 0 s.bitIn = .endOfStream n ∧
          decodeFn s = .done ((s.consumeBits n).readBitEos.raiseFault .truncatedStream)) ∨
       (∃ n, s.tree.walk ROOT 0 s.bitIn = .emptySlot n ∧
          decodeFn s = .done ((s.consumeBits n).raiseFault .corruptTree)) ∨
       (∃ x n, s.tree.walk ROOT 0 s.bitIn = .leaf x n ∧ decodeFn s = decodeAtLeaf x n s))) := by
  unfold decodeFn
  by_cases h1 : s.engine = .ready
  · by_cases h2 : s.tree.wf = true
    · have hw := s.tree.wf_iff.1 h2
      cases h3 : s.tree.walk ROOT 0 s.bitIn <;> simp [h1, h2, hw]
    · have hf : s.tree.wf = false := by simpa using h2
      have hw := s.tree.wf_eq_false_iff.1 hf
      simp [h1, hf, hw]
  · simp [h1]

/-- The ways a DECODE ends at a leaf (41_decode.md R121, R123, R127). -/
theorem decodeAtLeaf_cases (x n : Nat) (s : State) :
    ((s.tree.node x).kind = .escape ∧
      ((s.litIn = [] ∧ decodeAtLeaf x n s = .needMore) ∨
       (∃ ls, s.litIn = .eos :: ls ∧
          decodeAtLeaf x n s = .done ((s.consumeBits n).readLitEos.raiseFault .truncatedFallback)) ∨
       (∃ l ls, s.litIn = .lit l :: ls ∧
          decodeAtLeaf x n s = .done (decodeLiteral l n ((s.consumeBits n).consumeLit l))))) ∨
    ((s.tree.node x).kind ≠ .escape ∧ decodeAtLeaf x n s = .done (decodeKnown x n (s.consumeBits n))) := by
  unfold decodeAtLeaf
  cases h : (s.tree.node x).kind
  case escape =>
    refine .inl ⟨rfl, ?_⟩
    unfold decodeEscape
    cases hl : s.litIn with
    | nil => simp
    | cons t ls => cases t <;> simp
  all_goals exact .inr ⟨by simp, rfl⟩

/-- The ways an ordinary literal ends (41_decode.md R121, R125, R126). -/
theorem decodeNew_cases (key : Key) (n : Nat) (s : State) :
    ((s.tree.lookup key).isSome = true ∧ decodeNew key n s = s.raiseFault .corruptTree) ∨
    (s.tree.lookup key = none ∧
      ((s.lacksRoom = true ∧ decodeNew key n s = s.raiseFault .capacityExceeded) ∨
       (s.lacksRoom = false ∧ s.atMaxWeight = true ∧ decodeNew key n s = s.raiseFault .weightOverflow) ∨
       (s.lacksRoom = false ∧ s.atMaxWeight = false ∧
          decodeNew key n s =
            (((s.indexInsert key s.tree.addedLeaf).setTree (grownTree s.params s.tree key)).setResult .decNew n).respond
              (.okDecode .decNew n key)))) := by
  unfold decodeNew
  cases h : s.tree.lookup key with
  | some l => simp
  | none => cases h5 : s.lacksRoom <;> cases h4 : s.atMaxWeight <;> simp

/-- A held DECODE is one whose `DecodeFn` needs more (41_decode.md R132). -/
theorem holds_decode_iff (s : State) : holds .decode s = true ↔ decodeFn s = .needMore := by simp [holds]

theorem holds_decode_eq_false_iff (s : State) : holds .decode s = false ↔ ∃ t, decodeFn s = .done t := by
  unfold holds
  cases h : decodeFn s with
  | needMore => simp
  | done t => simp

/-! ## All commands -/

theorem exec_decode_of_done {s t : State} (h : decodeFn s = .done t) : exec .decode s = .next t := by
  simp [exec, execDecode, h]

theorem exec_decode_of_needMore {s : State} (h : decodeFn s = .needMore) : exec .decode s = .next s := by
  simp [exec, execDecode, h]

/-- The two ways READ_REG ends (44_host_commands.md R194). -/
theorem execReadReg_cases (n : Nat) (s : State) :
    (s.csr n = none ∧ execReadReg n s = .next (s.raiseReject .badArg)) ∨
    ∃ v, s.csr n = some v ∧ execReadReg n s = .next (s.respond (.okData v)) := by
  unfold execReadReg
  cases s.csr n with
  | none => exact .inl ⟨rfl, rfl⟩
  | some v => exact .inr ⟨v, rfl, rfl⟩

/-- The two ways READ_NODE ends (44_host_commands.md R195). -/
theorem execReadNode_cases (i : Nat) (s : State) :
    (i < s.tree.count ∧ execReadNode i s = .next (s.respond (.okNode (s.tree.record i)))) ∨
    (¬ i < s.tree.count ∧ execReadNode i s = .next (s.raiseReject .badArg)) := by
  unfold execReadNode
  split
  · exact .inl ⟨‹_›, rfl⟩
  · exact .inr ⟨‹_›, rfl⟩

/-- Every command answers a next state: no command stops the machine. -/
theorem exec_answers_next (i : Instr) (s : State) : ∃ t, exec i s = .next t := by
  cases i with
  | nop => exact ⟨_, rfl⟩
  | init => exact ⟨_, rfl⟩
  | encode => exact ⟨_, rfl⟩
  | encodeNull => exact ⟨_, rfl⟩
  | decode =>
    cases h : decodeFn s with
    | needMore => exact ⟨_, exec_decode_of_needMore h⟩
    | done t => exact ⟨_, exec_decode_of_done h⟩
  | readReg n =>
    obtain ⟨-, h⟩ | ⟨v, -, h⟩ := execReadReg_cases n s
    · exact ⟨_, h⟩
    · exact ⟨_, h⟩
  | readNode k =>
    obtain ⟨-, h⟩ | ⟨-, h⟩ := execReadNode_cases k s
    · exact ⟨_, h⟩
    · exact ⟨_, h⟩

/-! ## The step -/

/-- What an action of the host can do (70_reset_and_hazards.md R249): the hardware reset, or a change of the port and the
channels alone. -/
theorem hostAction_next {e : HostEvent} {s t : State} (h : hostAction e s = .next t) :
    (e = .hardwareReset ∧ t = s.hardwareReset) ∨
    (e ≠ .hardwareReset ∧ ∃ c v bi li bo lo, t =
      { s with cmd := c, symIn := v, bitIn := bi, litIn := li, bitOut := bo, litOut := lo }) := by
  cases e <;> simp only [hostAction, whenIdle] at h
  case hardwareReset => exact .inl ⟨rfl, by simpa using h.symm⟩
  all_goals refine .inr ⟨by simp, ?_⟩
  all_goals first
    | (simp only [Host.Outcome.next.injEq] at h; exact ⟨_, _, _, _, _, _, h.symm⟩)
    | (split at h
       · simp only [Host.Outcome.next.injEq] at h; exact ⟨_, _, _, _, _, _, h.symm⟩
       · simp at h)

/-- With a command in flight an action of the host that is not refused is an append, a drain of an output or the hardware
reset (41_decode.md R132, log 12, log 22). -/
theorem hostAction_in_flight {e : HostEvent} {s t : State} (hc : s.cmd ≠ none) (h : hostAction e s = .next t) :
    (∃ b, e = .appendBit b ∧ t = { s with bitIn := s.bitIn ++ [b] }) ∨
    (∃ l, e = .appendLit l ∧ t = { s with litIn := s.litIn ++ [l] }) ∨
    (e = .takeBit ∧ t = { s with bitOut := s.bitOut.tail }) ∨ (e = .takeLit ∧ t = { s with litOut := s.litOut.tail }) ∨
    (e = .hardwareReset ∧ t = s.hardwareReset) := by
  obtain ⟨c, hc⟩ := Option.ne_none_iff_exists'.1 hc
  cases e <;> simp_all [hostAction, whenIdle]

/-- What the host's turn can do (70_reset_and_hazards.md R249): nothing, or its next action. -/
theorem hostTurn_cases (s : State) :
    (s.host = [] ∧ hostTurn s = .next s) ∨
    ∃ e es, s.host = e :: es ∧ hostTurn s = hostAction e { s with host := es } := by
  unfold hostTurn
  cases h : s.host with
  | nil => exact .inl ⟨rfl, rfl⟩
  | cons e es => exact .inr ⟨e, es, rfl, rfl⟩

/-- What a step can do. -/
theorem step_cases (s : State) :
    (s.cmd = none ∧ step s = hostTurn s) ∨
    (∃ w e, s.cmd = some w ∧ decode w = .error e ∧ step s = .next (s.raiseReject .illegalCommand)) ∨
    (∃ w i, s.cmd = some w ∧ decode w = .ok i ∧
      ((holds i s = true ∧ step s = hostTurn s) ∨ (holds i s = false ∧ step s = exec i s))) := by
  unfold step
  cases h : s.cmd with
  | none => exact .inl ⟨rfl, rfl⟩
  | some w =>
    cases hd : decode w with
    | error e => exact .inr (.inl ⟨w, e, rfl, hd, by simp [hd, rejectIllegal]⟩)
    | ok i =>
      refine .inr (.inr ⟨w, i, rfl, hd, ?_⟩)
      cases hh : holds i s <;> simp [hd, runCommand, hh]

/-! ## The walk -/

/-- At a leaf the walk stops, whatever the tokens (41_decode.md R122). -/
theorem CodeTree.walk_of_leaf (t : CodeTree) {x : Nat} (h : t.isLeaf x = true) (n : Nat) (toks : List BitToken) :
    t.walk x n toks = .leaf x n := by
  cases toks with
  | nil => simp [CodeTree.walk, h]
  | cons a rest => cases a <;> simp [CodeTree.walk, h]

/-- At an internal node a bit selects a child (41_decode.md R122). -/
theorem CodeTree.walk_of_bit (t : CodeTree) {x c : Nat} {b : Bool} (h : t.isLeaf x = false) (hc : t.child x b = some c)
    (n : Nat) (rest : List BitToken) : t.walk x n (.bit b :: rest) = t.walk c (n + 1) rest := by
  simp [CodeTree.walk, h, hc]

/-- The walk along the path that leads from the root to `i` arrives at `i`, when the nodes above are internal. -/
theorem CodeTree.walk_along_path (t : CodeTree)
    (hint : ∀ p < t.count, ∀ b c, t.child p b = some c → t.isLeaf p = false)
    (hpar : ∀ i < t.count, ∀ p, (t.node i).parent = some p → p < t.count) :
    ∀ (f i : Nat) (bs : List Bool), i < t.count → t.pathWithin f i = some bs → ∀ (n : Nat) (rest : List BitToken),
      t.walk ROOT n (bs.map .bit ++ rest) = t.walk i (n + bs.length) rest := by
  intro f
  induction f with
  | zero =>
    intro i bs hi0 h n rest
    simp only [CodeTree.pathWithin] at h
    split at h
    · rename_i hi; subst hi; cases h; rfl
    · cases h
  | succ f ih =>
    intro i bs hi0 h n rest
    simp only [CodeTree.pathWithin] at h
    split at h
    · rename_i hi; subst hi; cases h; rfl
    · split at h
      · cases h
      · rename_i p hp
        have key : ∀ (b : Bool), t.child p b = some i → (t.pathWithin f p).map (· ++ [b]) = some bs →
            t.walk ROOT n (bs.map .bit ++ rest) = t.walk i (n + bs.length) rest := by
          intro b hb hm
          obtain ⟨bs', hb', rfl⟩ := Option.map_eq_some_iff.1 hm
          have := ih p bs' (hpar i hi0 p hp) hb' n (.bit b :: rest)
          simp only [List.map_append, List.map_cons, List.map_nil, List.append_assoc, List.cons_append, List.nil_append,
            List.length_append, List.length_cons, List.length_nil]
          rw [this, t.walk_of_bit (hint p (hpar i hi0 p hp) b i hb) hb]
          rfl
        split at h
        · rename_i hl; exact key false hl h
        · split at h
          · rename_i hh; exact key true hh h
          · cases h

end Sys2Proof.Machine
end

