-- ==== Sys2Proof/Laws/Encoding.lean ====
section
/-! SUPPORT. The fields of a packed command word (spec/30_encoding.md R81). -/

namespace Sys2Proof

theorem packWord_toNat (opc : BitVec 4) (arg : BitVec 24) : (packWord opc arg).toNat = arg.toNat * 256 + opc.toNat := by
  have h := opc.isLt
  simp only [packWord, BitVec.toNat_append, BitVec.toNat_ofNat]
  rw [← Nat.shiftLeft_add_eq_or_of_lt h, ← Nat.shiftLeft_add_eq_or_of_lt (by simp), Nat.shiftLeft_eq, Nat.shiftLeft_eq]
  omega

@[simp] theorem opcOf_packWord (opc : BitVec 4) (arg : BitVec 24) : opcOf (packWord opc arg) = opc := by
  have h := opc.isLt
  apply BitVec.eq_of_toNat_eq
  simp [opcOf, packWord_toNat]
  omega

@[simp] theorem mbzOf_packWord (opc : BitVec 4) (arg : BitVec 24) : mbzOf (packWord opc arg) = 0#4 := by
  have h := opc.isLt
  apply BitVec.eq_of_toNat_eq
  simp [mbzOf, packWord_toNat, Nat.shiftRight_eq_div_pow]
  omega

@[simp] theorem argOf_packWord (opc : BitVec 4) (arg : BitVec 24) : argOf (packWord opc arg) = arg := by
  have h := opc.isLt
  have h' := arg.isLt
  apply BitVec.eq_of_toNat_eq
  simp [argOf, packWord_toNat, Nat.shiftRight_eq_div_pow]
  omega

theorem lowByte_packWord (opc : BitVec 4) (arg : BitVec 24) :
    (packWord opc arg).extractLsb' 0 8 = opc.setWidth 8 := by
  have h := opc.isLt
  apply BitVec.eq_of_toNat_eq
  simp [packWord_toNat]

end Sys2Proof
end

