-- ==== Sys2Proof/Laws/PerInstr.lean ====
section
/-! SUPPORT. What holds of every command as syntax, one lemma per constructor. -/

namespace Sys2Proof.Laws.OpcodeByte

/-- The opcode of 30_encoding.md R82. -/
def opcode : Instr → Nat
  | .nop        => 0x0
  | .init       => 0x1
  | .encode     => 0x2
  | .encodeNull => 0x3
  | .decode     => 0x4
  | .readReg _  => 0x5
  | .readNode _ => 0x6

/-- The low byte of a command's word is its opcode with MBZ zero (30_encoding.md R81, R82). -/
def Statement (i : Instr) : Prop := (encode i).extractLsb' 0 8 = BitVec.ofNat 8 (opcode i)

theorem nop : Statement .nop := rfl

theorem init : Statement .init := rfl

theorem encode : Statement .encode := rfl

theorem encodeNull : Statement .encodeNull := rfl

theorem decode : Statement .decode := rfl

theorem readReg (n : Nat) : Statement (.readReg n) := lowByte_packWord _ _

theorem readNode (i : Nat) : Statement (.readNode i) := lowByte_packWord _ _

end Sys2Proof.Laws.OpcodeByte
end

