-- ==== Sys2Proof/Tests/Slice0.lean ====
section
/-! SUPPORT. Tests: ill-formed commands refused, one word per command written out from the encoding table, single steps from
the vectors of spec/95_test_vectors.md, and for every statement with hypotheses a witness that meets them all. -/

namespace Sys2Proof.Tests

open Sys2Proof.Machine

/-! ## WellFormed -/

theorem test_readReg_argument_too_wide : (Instr.readReg 0x1000000).wf = false := by decide

theorem test_readNode_argument_too_wide : (Instr.readNode 0x1000000).wf = false := by decide

/-! ## Decoding: ARG (24 bits), MBZ (4), OPC (4), from 30_encoding.md R81 and R82 -/

theorem test_decode_nop : decode 0b000000000000000000000000_0000_0000#32 = .ok .nop := rfl

theorem test_decode_init : decode 0b000000000000000000000000_0000_0001#32 = .ok .init := rfl

theorem test_decode_encode : decode 0b000000000000000000000000_0000_0010#32 = .ok .encode := rfl

theorem test_decode_encodeNull : decode 0b000000000000000000000000_0000_0011#32 = .ok .encodeNull := rfl

theorem test_decode_decode : decode 0b000000000000000000000000_0000_0100#32 = .ok .decode := rfl

theorem test_decode_readReg : decode 0b100000000000000000001000_0000_0101#32 = .ok (.readReg 0x800008) := rfl

theorem test_decode_readNode : decode 0b100000000000000000000011_0000_0110#32 = .ok (.readNode 0x800003) := rfl

/-! ## Start states of 95_test_vectors.md section 2 -/

/-- "Unless a row says otherwise". -/
def p8 : Params := { symW := 8, weightW := 32, nodeCap := 8191 }

/-- An ordinary leaf. -/
def ordLeaf (v : SymVal) (w p : Nat) : Node :=
  { kind := .ordinary, sym := v, weight := w, low := none, high := none, parent := some p }

/-- The escape leaf. -/
def escLeaf (p : Nat) : Node :=
  { kind := .escape, sym := 0#64, weight := 0, low := none, high := none, parent := some p }

/-- The end-marker leaf. -/
def endLeaf (w p : Nat) : Node :=
  { kind := .endMarker, sym := 0#64, weight := w, low := none, high := none, parent := some p }

/-- An internal node with two children. -/
def inner (w l h : Nat) (p : Option Nat) : Node :=
  { kind := .internal, sym := 0#64, weight := w, low := some l, high := some h, parent := p }

def t1 : CodeTree := { nodes := [inner 1 1 2 none, escLeaf 0, ordLeaf 0x41 1 0], order := [1, 2, 0] }

def t2 : CodeTree :=
  { nodes := [inner 2 3 2 none, escLeaf 3, ordLeaf 0x41 1 0, inner 1 1 4 (some 0), ordLeaf 0x42 1 3]
    order := [1, 4, 3, 2, 0] }

def t3 : CodeTree :=
  { nodes := [inner 3 2 3 none, escLeaf 5, ordLeaf 0x41 1 0, inner 2 5 4 (some 0), ordLeaf 0x42 1 3,
      inner 1 1 6 (some 3), ordLeaf 0x43 1 5]
    order := [1, 6, 5, 4, 2, 3, 0] }

def t5 : CodeTree :=
  { nodes := [inner 5 3 2 none, escLeaf 5, ordLeaf 0x41 3 0, inner 2 5 4 (some 0), ordLeaf 0x42 1 3,
      inner 1 1 6 (some 3), ordLeaf 0x43 1 5]
    order := [1, 6, 5, 4, 3, 2, 0] }

def tN : CodeTree := { nodes := [inner 1 1 2 none, escLeaf 0, endLeaf 1 0], order := [1, 2, 0] }

/-- A READY state with this tree and parameters, nothing in the channels. -/
def ready (p : Params) (t : CodeTree) : State := { State.resetWith p with tree := t }

/-- The same with a command word and `SYM_IN` at the port. -/
def issued (t : CodeTree) (w : CmdWord) (v : SymVal) : State := (ready p8 t).issue w v

/-- `f` holds of the next state. -/
def nextHas (o : Host.Outcome State Fault Refusal) (f : State → Bool) : Bool :=
  match o with
  | .next s => f s
  | .fault _ => false
  | .refused _ => false

/-- The last response. -/
def lastResponse (s : State) : Option Response :=
  match s.history.getLast? with
  | some (.respond r) => some r
  | _ => none

/-- The bits of a string of 0 and 1. -/
def bits (l : List Nat) : List Bool := l.map fun n => n == 1

/-! ## One step per vector -/

/-- 44_host_commands.md R190: `nop` in FAULT responds OK and ERR_CAUSE keeps its value. -/
theorem test_nop_in_fault :
    nextHas (step { issued t1 0x0#32 0 with engine := .fault, errCause := some .corruptTree }) (fun s =>
      s.engine == .fault && s.errCause == some .corruptTree && lastResponse s == some (okRecord 0#4 0#32 0#1 0#64)) = true := by
  decide +kernel

/-- 44_host_commands.md R192: "after any program, `init` then `rdreg 0x09` returns 2"; REG.STATE is READY again. -/
theorem test_init_after_a_fault :
    nextHas (step { issued t2 0x1#32 0 with engine := .fault, errCause := some .corruptTree, bitIn := [.eos] }) (fun s =>
      s.engine == .ready && s.errCause == none && s.tree.order == [1, 0] && s.tree.count == 2 && s.bitIn == [.eos]) = true := by
  decide +kernel

/-- V-UPD-3, V-ENC-5: code 01, then leaf 4 and leaf 2 exchanged. -/
theorem test_encode_known_swaps_leaves :
    nextHas (step (issued t2 0x2#32 0x42)) (fun s =>
      s.bitOut == bits [0, 1] && s.litOut == [] && s.lastResult == .encKnown && s.lastLen == 2#32 &&
      s.tree == { nodes := [inner 3 3 4 none, escLeaf 3, ordLeaf 0x41 1 3, inner 1 1 2 (some 0), ordLeaf 0x42 2 0]
                  order := [1, 2, 3, 4, 0] }) = true := by
  decide +kernel

/-- V-UPD-5: code 100 and a literal, Case B, an internal node exchanged with a leaf that is not its sibling. -/
theorem test_encode_new_moves_a_subtree :
    nextHas (step (issued t3 0x2#32 0x44)) (fun s =>
      s.bitOut == bits [1, 0, 0] && s.litOut == [{ kind := .ord, value := 0x44 }] && s.lastResult == .encNew &&
      s.tree.nodes.drop 3 == [inner 2 2 4 (some 0), ordLeaf 0x42 1 3, inner 2 7 6 (some 0), ordLeaf 0x43 1 5,
        inner 1 1 8 (some 5), ordLeaf 0x44 1 7] &&
      s.tree.order == [1, 8, 7, 6, 2, 4, 5, 3, 0]) = true := by
  decide +kernel

/-- V-UPD-8: the end marker after other symbols: code 000, the literal (END, 0), ENDED. -/
theorem test_encodeNull_grows_and_ends :
    nextHas (step (issued t5 0x3#32 0x41)) (fun s =>
      s.engine == .ended && s.bitOut == bits [0, 0, 0] && s.litOut == [{ kind := .endMark, value := 0 }] &&
      s.tree.order == [1, 8, 7, 6, 4, 5, 3, 2, 0] && s.tree.pathTo 8 == bits [0, 1, 0, 1] &&
      s.tree.node 8 == endLeaf 1 7) = true := by
  decide +kernel

/-- V-ENC-7, V-ENC-10: the end marker from reset, and an encode after it. -/
theorem test_encodeNull_from_reset :
    nextHas (step (issued .initial 0x3#32 0)) (fun s => s.engine == .ended && s.tree == tN && s.bitOut == [false] &&
      nextHas (step (s.issue 0x2#32 0x41)) (fun u => lastResponse u == some (bareRecord 8#4) && u.tree == tN)) = true := by
  decide +kernel

/-- V-DEC-16: a known symbol; the bit that follows its code stays. -/
theorem test_decode_known :
    nextHas (step { issued t2 0x4#32 0 with bitIn := [.bit false, .bit true, .bit true] }) (fun s =>
      s.bitIn == [.bit true] && lastResponse s == some (okRecord 3#4 2#32 0#1 0x42) && s.tree.order == [1, 2, 3, 4, 0]) = true := by
  decide +kernel

/-- V-DEC-18: a new symbol takes one literal of two. -/
theorem test_decode_new :
    nextHas (step { issued t1 0x4#32 0 with
        bitIn := [.bit false], litIn := [.lit { kind := .ord, value := 0x42 }, .lit { kind := .ord, value := 0x43 }] })
      (fun s => s.litIn == [.lit { kind := .ord, value := 0x43 }] && s.bitIn == [] &&
        lastResponse s == some (okRecord 4#4 1#32 0#1 0x42) && s.tree == t2) = true := by
  decide +kernel

/-- 44_host_commands.md R194: STATUS with STATE = ENDED and LAST_RESULT = ENC_NEW is 0x21. -/
theorem test_readReg_status :
    nextHas (step { issued tN 0x805#32 0 with engine := .ended, lastResult := .encNew }) (fun s =>
      lastResponse s == some (okRecord 0#4 0x21#32 0#1 0#64)) = true := by
  decide +kernel

/-- 10_state.md R27: 0x05 is unassigned. -/
theorem test_readReg_unassigned :
    nextHas (step (issued t1 0x505#32 0)) (fun s => lastResponse s == some (bareRecord 7#4)) = true := by
  decide +kernel

/-- 44_host_commands.md R195: "after reset, `rdnode 1` returns kind 1 (ESCAPE), sym 0, weight 0, low 0xFFFFFF, high 0xFFFFFF,
parent 0, rank 0". -/
theorem test_readNode_escape :
    nextHas (step (issued .initial 0x106#32 0)) (fun s => lastResponse s == some
      { okRecord 0#4 0#32 0#1 0#64 with
        node := { kind := 1#2, sym := 0, weight := 0, low := 0xFFFFFF#24, high := 0xFFFFFF#24, parent := 0#24, rank := 0#24 } }) = true := by
  decide +kernel

/-- 44_host_commands.md R195: BAD_ARG for a free index. -/
theorem test_readNode_free :
    nextHas (step (issued .initial 0x206#32 0)) (fun s => lastResponse s == some (bareRecord 7#4)) = true := by
  decide +kernel

/-- 60_exceptions.md R220: in FAULT, DECODE with ARG = 1 is ILLEGAL_COMMAND and not NOT_READY. -/
theorem test_illegal_before_not_ready :
    nextHas (step { issued t1 0x104#32 0 with engine := .fault, errCause := some .truncatedStream }) (fun s =>
      lastResponse s == some (bareRecord 6#4) && s.engine == .fault) = true := by
  decide +kernel

/-- An opcode-table row's bits at the port of the reset state are the next command: the row of ENCODE. -/
theorem test_withFetchWord_runs_the_row :
    decodeTableWord 32 0x2 = some .encode ∧
    nextHas (step (State.reset.withFetchWord 32 0x2)) (fun s => s.bitOut == [false] && s.tree.count == 3) = true := by
  decide +kernel

/-! ## Witnesses: the hypotheses of each statement met together -/

theorem wf_initial : CodeTree.initial.WF := (CodeTree.wf_iff _).1 (by decide +kernel)

theorem wf_t1 : t1.WF := (CodeTree.wf_iff _).1 (by decide +kernel)

theorem wf_t2 : t2.WF := (CodeTree.wf_iff _).1 (by decide +kernel)

theorem wf_t3 : t3.WF := (CodeTree.wf_iff _).1 (by decide +kernel)

theorem wf_tN : tN.WF := (CodeTree.wf_iff _).1 (by decide +kernel)

/-- A tree that is not well formed: the root's weight is not its children's sum. -/
def tBad : CodeTree := { t1 with nodes := [inner 2 1 2 none, escLeaf 0, ordLeaf 0x41 1 0] }

theorem not_wf_tBad : ¬ tBad.WF := (CodeTree.wf_eq_false_iff _).1 (by decide +kernel)

theorem third_t1 : t1.EscapeParentThird := by unfold CodeTree.EscapeParentThird; decide +kernel

theorem third_t2 : t2.EscapeParentThird := by unfold CodeTree.EscapeParentThird; decide +kernel

theorem third_t3 : t3.EscapeParentThird := by unfold CodeTree.EscapeParentThird; decide +kernel

/-- The invariant of a READY state with tree `t2`, whatever the port, the channels, the history and the script hold. -/
theorem inv_t2 (s : State) (hp : s.params = p8) (ht : s.tree = t2) (he : s.engine = .ready) (hc : s.errCause = none) :
    Inv s where
  legal := by rw [hp]; decide +kernel
  wf := by rw [ht]; exact wf_t2
  third := by rw [ht]; exact third_t2
  fits := by rw [ht, hp]; decide +kernel
  rootFits := by rw [ht, hp]; decide +kernel
  syms := by rw [ht, hp]; unfold CodeTree.SymsFit; decide +kernel
  noEnd := by rw [ht]; intro _; unfold CodeTree.NoEndLeaf; decide +kernel
  cause := by rw [he, hc]; decide +kernel

/-- A READY state with tree `t`, `DECODE` in flight and these inputs. -/
def decoding (t : CodeTree) (bs : List BitToken) (ls : List LitToken) : State :=
  { issued t 0x4#32 0 with bitIn := bs, litIn := ls }

def k41 : Key := { kind := .ord, value := 0x41 }

def k42 : Key := { kind := .ord, value := 0x42 }

def kEnd : Key := { kind := .endMark, value := 0#64 }

theorem witness_DecodeOfEncodeIsIdentity : (Instr.readReg 0xFFFFFF).wf = true ∧ (Instr.readNode 0).wf = true := by decide

theorem witness_EncodeOfDecodeIsIdentity : decode 0xFFFFFF05#32 = .ok (.readReg 0xFFFFFF) := rfl

theorem witness_IllegalWordsAreRejected :
    (issued t1 0x10#32 0).cmd = some 0x10#32 ∧ decode 0x10#32 = .error .mbzNotZero ∧
    decode 0x7#32 = .error .reservedOpcode ∧ decode 0xF#32 = .error .reservedOpcode ∧
    decode 0x104#32 = .error .argNotZero ∧ decode 0x80000000#32 = .error .argNotZero := ⟨rfl, rfl, rfl, rfl, rfl, rfl⟩

theorem witness_AssemblerLinesAreOneCommand :
    255 < 2 ^ p8.symW ∧ ¬ 256 < 2 ^ p8.symW ∧ 0xFFFFFF ≤ 0xFFFFFF ∧ ¬ 0x1000000 ≤ 0xFFFFFF ∧
    0xFFFFFFFF < 2 ^ 32 ∧ ¬ 0x100000000 < 2 ^ 32 := by decide

theorem witness_StepRunsTheDecodedCommand :
    (decoding t1 [] []).cmd = some 0x4#32 ∧ decode 0x4#32 = .ok .decode ∧ holds .decode (decoding t1 [] []) = true ∧
    holds .decode (decoding t1 [.bit true] []) = false ∧ holds .nop (issued t1 0x0#32 0) = false :=
  ⟨rfl, rfl, by decide +kernel⟩

/-- A state with no command in flight, something in every channel, and this action next. -/
def idle (e : HostEvent) : State :=
  { ready p8 t1 with bitIn := [.eos], litIn := [.eos], bitOut := [true], litOut := [k41], host := [e] }

theorem witness_HostActionsLandWhenIdle :
    (idle .takeBit).cmd = none ∧ (ready p8 t1).host = [] ∧ (idle (.issue 0x2#32 0x41)).host = [.issue 0x2#32 0x41] ∧
    (idle (.appendBit .eos)).host = [.appendBit .eos] ∧ (idle (.appendLit .eos)).host = [.appendLit .eos] ∧
    (idle .takeBit).bitOut = [true] ∧ (idle .takeBit).host = [.takeBit] ∧
    (idle .takeLit).litOut = [k41] ∧ (idle .takeLit).host = [.takeLit] ∧
    (idle .dropBitIn).bitIn = [.eos] ∧ (idle .dropBitIn).host = [.dropBitIn] ∧
    (idle .dropLitIn).litIn = [.eos] ∧ (idle .dropLitIn).host = [.dropLitIn] := by decide +kernel

/-- A held DECODE with this script, something in both outputs. -/
def held (es : List HostEvent) : State :=
  { decoding t2 [.bit false] [] with bitOut := [true], litOut := [k41], host := es }

theorem witness_HostActionsLandWhileHeld :
    decode 0x4#32 = .ok .decode ∧
    (∀ es ∈ [[], [.appendBit .eos], [.appendLit .eos], [.takeBit], [.takeLit], [.issue 0#32 0], [.dropBitIn], [.dropLitIn],
        [.hardwareReset]],
      (held es).cmd = some 0x4#32 ∧ holds .decode (held es) = true ∧ (held es).host = es ∧ (held es).bitOut = true :: [] ∧
      (held es).litOut = k41 :: []) ∧
    nextHas (step (held [.appendBit (.bit true)])) (fun t => t.cmd == some 0x4#32 && !holds .decode t) = true :=
  ⟨rfl, by decide +kernel, by decide +kernel⟩

/-- 41_decode.md R132, with the start state S3: removing a bit of a held DECODE's input is no move of the host's. -/
theorem test_removal_does_not_lift_a_hold :
    let s : State := { decoding t3 [.bit true, .bit false] [] with host := [.dropBitIn] }
    holds .decode s = true ∧ (match step s with
      | .next _ => false
      | .fault _ => false
      | .refused r => r == .removalInFlight) = true := by decide +kernel

theorem witness_ResetAndInitLeaveTheInitialTree :
    (idle .hardwareReset).cmd = none ∧ (idle .hardwareReset).host = [.hardwareReset] ∧ (ready p8 .initial).Fresh := by
  refine ⟨rfl, rfl, ?_⟩
  unfold State.Fresh
  decide +kernel

theorem witness_ResetMeetsTheInvariant :
    Config.defaultParams.Legal ∧ Params.Legal { symW := 1, weightW := 1, nodeCap := 3 } ∧
    Params.Legal { symW := 64, weightW := 32, nodeCap := 16777215 } := by decide

theorem witness_ReadRegReturnsEachRegister :
    ((0x0F, 1#32) : Nat × RegWord) ∈ [((0x0E, 0#32) : Nat × RegWord), (0x0F, 1#32)] ∧
    (∀ n ∈ [0x05, 0x06, 0x07, 0x10, 0xFFFFFF], ∀ m ∈ [0x00, 0x01, 0x02, 0x03, 0x04, 0x08, 0x09, 0x0A, 0x0B, 0x0C, 0x0D, 0x0E, 0x0F],
      n ≠ m) := by decide

theorem witness_ReadNodeReturnsTheEntry :
    (0xFFFFFF ≤ 0xFFFFFF) ∧ t1.nodes[2]? = some (ordLeaf 0x41 1 0) ∧ t1.nodes[3]? = none := by decide +kernel

/-- The smallest instance: one growth fills it and one pass brings the root to its bound. -/
def p3 : Params := { symW := 8, weightW := 1, nodeCap := 3 }

theorem witness_EncodeOfNewKeyCompletes :
    encodedKey .encode ((ready p3 .initial).issue 0x2#32 0x41) = some k41 ∧
    encodedKey .encodeNull (ready p3 .initial) = some kEnd ∧ (ready p3 .initial).engine = .ready ∧
    CodeTree.initial.WF ∧ CodeTree.initial.lookup k41 = none ∧ CodeTree.initial.lookup kEnd = none ∧
    CodeTree.initial.count + CodeTree.initial.need ≤ p3.nodeCap ∧ (CodeTree.initial.node ROOT).weight ≠ 2 ^ p3.weightW - 1 :=
  ⟨by decide +kernel, by decide +kernel, rfl, wf_initial, by decide +kernel⟩

theorem witness_EncodeOfKnownKeyCompletes :
    encodedKey .encode (issued t2 0x2#32 0x42) = some k42 ∧ encodedKey .encodeNull (ready p8 tN) = some kEnd ∧
    (ready p8 tN).engine = .ready ∧ t2.WF ∧ tN.WF ∧ t2.lookup k42 = some 4 ∧ tN.lookup kEnd = some 2 ∧
    (t2.node ROOT).weight ≠ 2 ^ p8.weightW - 1 ∧ (tN.node ROOT).weight ≠ 2 ^ p8.weightW - 1 :=
  ⟨by decide +kernel, by decide +kernel, rfl, wf_t2, wf_tN, by decide +kernel⟩

theorem witness_EncodeChecksInOrder :
    encodedKey .encode (issued tN 0x2#32 0x41) = some k41 ∧ ({ ready p8 tN with engine := .ended } : State).engine ≠ .ready ∧
    ¬ tBad.WF ∧ t1.WF ∧ t1.lookup k42 = none ∧ ¬ t1.count + t1.need ≤ 4 ∧ t1.count + t1.need ≤ 5 ∧
    (t1.node ROOT).weight = 2 ^ p3.weightW - 1 ∧ t1.lookup k41 = some 2 :=
  ⟨by decide +kernel, by decide +kernel, not_wf_tBad, wf_t1, by decide +kernel⟩

theorem witness_LiteralOnlyOnFirstOccurrence :
    let s := issued t2 0x2#32 0x42
    let u := issued t1 0x2#32 0x42
    encodedKey .encode s = some k42 ∧ s.engine = .ready ∧ s.tree.lookup k42 = some 4 ∧
    exec .encode s = .next (encodeKey k42 s) ∧ (encodeKey k42 s).Answered (okRecord 1#4 2#32 0#1 0#64) ∧
    encodedKey .encode u = some k42 ∧ u.tree.lookup k42 = none ∧ exec .encode u = .next (encodeKey k42 u) ∧
    (encodeKey k42 u).Answered (okRecord 2#4 1#32 0#1 0#64) :=
  ⟨by decide +kernel, rfl, by decide +kernel, rfl, by unfold State.Answered; decide +kernel, by decide +kernel,
    by decide +kernel, rfl, by unfold State.Answered; decide +kernel⟩

theorem witness_NodesAreStableUntilInit :
    let s := issued t2 0x2#32 0x42
    Instr.encode ≠ .init ∧ exec .encode s = .next (encodeKey k42 s) ∧ s.tree.lookup k42 = some 4 ∧ 4 < s.tree.count :=
  ⟨by decide, rfl, by decide +kernel, by decide +kernel⟩

theorem witness_DecodeOfKnownLeafCompletes :
    t2.WF ∧ tN.WF ∧ 4 < t2.count ∧ 2 < tN.count ∧
    (decoding t2 [.bit false, .bit true, .bit true] []).bitIn = bitTokens (t2.pathTo 4) ++ [.bit true] ∧
    (decoding tN [.bit true] []).bitIn = bitTokens (tN.pathTo 2) ++ [] ∧
    (t2.node ROOT).weight ≠ 2 ^ p8.weightW - 1 ∧ (tN.node ROOT).weight ≠ 2 ^ p8.weightW - 1 ∧
    (t2.node 4).kind = .ordinary ∧ (tN.node 2).kind = .endMarker :=
  ⟨wf_t2, wf_tN, by decide +kernel⟩

theorem witness_DecodeOfNewSymbolCompletes :
    let s := decoding t1 [.bit false] [.lit k42]
    s.engine = .ready ∧ s.tree.WF ∧ s.bitIn = bitTokens (s.tree.pathTo ESC) ++ [] ∧ s.litIn = .lit k42 :: [] ∧
    s.tree.lookup k42 = none ∧ s.tree.count + s.tree.need ≤ s.params.nodeCap ∧
    (s.tree.node ROOT).weight ≠ 2 ^ s.params.weightW - 1 :=
  ⟨rfl, wf_t1, by decide +kernel⟩

/-- V-DEC-12: the END literal with value 5. -/
theorem witness_DecodeOfEndLiteralEndsTheStream :
    let s := decoding .initial [.bit false] [.lit { kind := .endMark, value := 5 }]
    s.engine = .ready ∧ s.tree.WF ∧ s.bitIn = bitTokens (s.tree.pathTo ESC) ++ [] ∧
    s.litIn = .lit { kind := .endMark, value := 5 } :: [] :=
  ⟨rfl, wf_initial, by decide +kernel⟩

/-- V-DEC-1 (the first read) and V-DEC-11 (in mid-code). -/
theorem witness_EosInTheWalkIsTruncatedStream :
    CodeTree.initial.WF ∧ t2.WF ∧ 1 < CodeTree.initial.count ∧ 1 < t2.count ∧
    CodeTree.initial.pathTo 1 = [] ++ false :: [] ∧ (decoding .initial [.eos] []).bitIn = bitTokens [] ++ .eos :: [] ∧
    t2.pathTo 1 = [false] ++ false :: [] ∧ (decoding t2 [.bit false, .eos] []).bitIn = bitTokens [false] ++ .eos :: [] :=
  ⟨wf_initial, wf_t2, by decide +kernel⟩

/-- V-DEC-3. -/
theorem witness_EosAsLiteralIsTruncatedFallback :
    let s := decoding .initial [.bit false] [.eos]
    s.engine = .ready ∧ s.tree.WF ∧ s.bitIn = bitTokens (s.tree.pathTo ESC) ++ [] ∧ s.litIn = .eos :: [] :=
  ⟨rfl, wf_initial, by decide +kernel⟩

/-- V-DEC-2, and a larger tree. -/
theorem witness_EmptySlotOnlyInTheInitialTree :
    let s := decoding .initial [.bit true] []
    s.tree.WF ∧ s.engine = .ready ∧ s.tree.count = 2 ∧ s.bitIn = .bit true :: [] ∧ t1.WF ∧ t1.count ≠ 2 :=
  ⟨wf_initial, rfl, by decide +kernel, rfl, wf_t1, by decide +kernel⟩

/-- V-DEC-7, V-DEC-13 (NODE_CAP = 4), and WEIGHT_W = 1 with room for the growth. -/
theorem witness_DecodeOfLiteralChecksInOrder :
    t1.WF ∧ (decoding t1 [.bit false] [.lit k41]).bitIn = bitTokens (t1.pathTo ESC) ++ [] ∧
    t1.lookup { kind := .ord, value := ((0x41#64).setWidth p8.symW).setWidth 64 } = some 2 ∧
    t1.lookup { kind := .ord, value := ((0x42#64).setWidth p8.symW).setWidth 64 } = none ∧
    ¬ t1.count + t1.need ≤ 4 ∧ t1.count + t1.need ≤ 5 ∧ (t1.node ROOT).weight = 2 ^ 1 - 1 :=
  ⟨wf_t1, by decide +kernel⟩

/-- V-DEC-17, a broken tree, and V-DEC-14 (WEIGHT_W = 1). -/
theorem witness_DecodeChecksInOrder :
    ({ decoding tN [.bit false] [] with engine := .ended } : State).engine ≠ .ready ∧ ¬ tBad.WF ∧ t1.WF ∧ 2 < t1.count ∧
    (t1.node 2).kind = .ordinary ∧ (decoding t1 [.bit true] []).bitIn = bitTokens (t1.pathTo 2) ++ [] ∧
    (t1.node ROOT).weight = 2 ^ 1 - 1 :=
  ⟨by decide +kernel, not_wf_tBad, wf_t1, by decide +kernel⟩

/-- V-DEC-8, V-DEC-9 and V-DEC-10. -/
theorem witness_DecodeHoldsOnAnEmptyInput :
    t1.WF ∧ t2.WF ∧ 1 < t1.count ∧ t1.pathTo 1 = [] ++ false :: [] ∧ (decoding t1 [] []).bitIn = bitTokens [] ∧
    1 < t2.count ∧ t2.pathTo 1 = [false] ++ false :: [] ∧ (decoding t2 [.bit false] []).bitIn = bitTokens [false] ∧
    (decoding t2 [.bit false, .bit false] []).bitIn = bitTokens (t2.pathTo ESC) ++ [] ∧ (decoding t2 [] []).litIn = [] :=
  ⟨wf_t1, wf_t2, by decide +kernel⟩

theorem witness_EosLiftsEveryHold :
    Instr.nop ≠ .decode ∧ .eos ∈ (decoding t2 [.bit false, .eos] [.eos]).bitIn ∧
    .eos ∈ (decoding t2 [.bit false, .eos] [.eos]).litIn := by decide +kernel

theorem witness_DecodeIgnoresLaterTokens : ∃ t, decodeFn (decoding t2 [.bit true] []) = .done t :=
  (holds_decode_eq_false_iff _).1 (by decide +kernel)

/-- V-ENC-5 and the decoder of its output. -/
theorem witness_DecoderFollowsEncoder :
    let e := issued t2 0x2#32 0x42
    let d := decoding t2 [.bit false, .bit true, .bit true] []
    let e' := encodeKey k42 e
    Inv e ∧ Inv d ∧ e.params = d.params ∧ e.tree = d.tree ∧ e.engine = .ready ∧ d.engine = .ready ∧
    exec .encode e = .next e' ∧ e'.engine = .ready ∧ e'.bitOut = e.bitOut ++ [false, true] ∧ e'.litOut = e.litOut ++ [] ∧
    d.bitIn = bitTokens [false, true] ++ [.bit true] ∧ d.litIn = [].map .lit ++ [] :=
  ⟨inv_t2 _ rfl rfl rfl rfl, inv_t2 _ rfl rfl rfl rfl, rfl, rfl, rfl, rfl, rfl, by decide +kernel⟩

/-- V-ENC-8 and the decoder of its output. -/
theorem witness_EndMarkerEndsBothSides :
    let e := issued t2 0x3#32 0
    let d := decoding t2 [.bit false, .bit false] [.lit kEnd]
    let e' := encodeKey kEnd e
    Inv e ∧ Inv d ∧ e.params = d.params ∧ e.tree = d.tree ∧ e.engine = .ready ∧ d.engine = .ready ∧
    exec .encodeNull e = .next e' ∧ e'.engine = .ended ∧ e'.bitOut = e.bitOut ++ [false, false] ∧
    e'.litOut = e.litOut ++ [kEnd] ∧ d.bitIn = bitTokens [false, false] ++ [] ∧ d.litIn = [kEnd].map .lit ++ [] :=
  ⟨inv_t2 _ rfl rfl rfl rfl, inv_t2 _ rfl rfl rfl rfl, rfl, rfl, rfl, rfl, rfl, by decide +kernel⟩

/-- A known symbol and then a new one. -/
theorem witness_RoundTripOfEverySequence :
    ∃ e', let e := issued t2 0x2#32 0x42
    let d := decoding t2 ([false, true, false, false].map .bit) [.lit { kind := .ord, value := 0x43 }]
    Inv e ∧ Inv d ∧ e.params = d.params ∧ e.tree = d.tree ∧ e.engine = .ready ∧ d.engine = .ready ∧
    encodeAll [0x42, 0x43] e = some e' ∧ e'.bitOut = e.bitOut ++ [false, true, false, false] ∧
    e'.litOut = e.litOut ++ [{ kind := .ord, value := 0x43 }] ∧
    d.bitIn = bitTokens [false, true, false, false] ++ [] ∧
    d.litIn = [{ kind := .ord, value := 0x43 }].map .lit ++ [] :=
  ⟨encodeKey { kind := .ord, value := 0x43 } { encodeKey k42 (issued t2 0x2#32 0x42) with symIn := 0x43 },
    inv_t2 _ rfl rfl rfl rfl, inv_t2 _ rfl rfl rfl rfl, rfl, rfl, rfl, rfl, by decide +kernel⟩

theorem witness_FirstGrowthFillsTheEmptySlot :
    CodeTree.initial.WF ∧ CodeTree.initial.count = 2 ∧ (kEnd.kind = .endMark → kEnd.value = 0#64) :=
  ⟨wf_initial, by decide +kernel, fun _ => rfl⟩

theorem witness_LaterGrowthSplitsTheEscape :
    t1.WF ∧ 3 ≤ t1.count ∧ (k42.kind = .endMark → k42.value = 0#64) ∧ (t1.node 1).parent = some 0 :=
  ⟨wf_t1, by decide +kernel⟩

theorem witness_CaseAExactlyAtTwoNodes : CodeTree.initial.WF ∧ CodeTree.initial.count = 2 ∧ t1.WF ∧ t1.count ≠ 2 :=
  ⟨wf_initial, by decide +kernel, wf_t1, by decide +kernel⟩

theorem witness_EscapeIsAlwaysALowChild : t2.WF ∧ (t2.node ESC).parent = some 3 ∧ t2.count ≠ 2 :=
  ⟨wf_t2, by decide +kernel⟩

theorem witness_AddRegistersTheKey :
    t1.lookup k42 = none ∧ kEnd.kind ≠ k42.kind ∧ k42.kind = .ord ∧ k41.value ≠ k42.value := by decide +kernel

/-- V-UPD-3: a candidate that is the successor; V-UPD-4: the tie of the parent alone, no candidate. -/
theorem witness_SuccessorIsTheHighestCandidate :
    t2.WF ∧ 4 < t2.count ∧ t2.successor 4 = some 2 ∧ t1.WF ∧ 2 < t1.count ∧ t1.successor 2 = none :=
  ⟨wf_t2, by decide +kernel, by decide +kernel, wf_t1, by decide +kernel⟩

theorem witness_RootIsNeverSwapped : t2.WF ∧ 4 < t2.count ∧ t2.successor 4 = some 2 := ⟨wf_t2, by decide +kernel⟩

/-- Two nodes with different parents, and two siblings. -/
theorem witness_SwapExchangesPositions :
    t2.WF ∧ 4 < t2.count ∧ 2 < t2.count ∧ t2.related 4 2 = false ∧ t2.related 3 2 = false ∧
    (t2.node 3).parent = (t2.node 2).parent ∧ 1 < t2.count ∧ 1 ≠ 4 ∧ 1 ≠ 2 ∧
    (t2.node 4).parent ≠ some 2 ∧ (t2.node 2).parent ≠ some 2 :=
  ⟨wf_t2, by decide +kernel⟩

theorem witness_UpdateCountsOneOccurrence :
    t2.WF ∧ t2.EscapeParentThird ∧ (t2.node ROOT).weight < 2 ^ p8.weightW - 1 ∧ 4 < t2.count ∧
    (t2.node 4).kind = .ordinary ∧ 2 < t2.count ∧ t2.isLeaf 2 = true ∧ (2 : Nat) ≠ 4 :=
  ⟨wf_t2, third_t2, by decide +kernel⟩

theorem witness_UpdateOfKnownLeafKeepsTheTree :
    t2.WF ∧ t2.EscapeParentThird ∧ (t2.node ROOT).weight < 2 ^ p8.weightW - 1 ∧ 4 < t2.count ∧ (t2.node 4).kind = .ordinary :=
  ⟨wf_t2, third_t2, by decide +kernel⟩

theorem witness_GrowthAndUpdateKeepTheTree :
    t3.WF ∧ t3.EscapeParentThird ∧ (t3.node ROOT).weight < 2 ^ p8.weightW - 1 ∧ t3.lookup kEnd = none :=
  ⟨wf_t3, third_t3, by decide +kernel⟩

theorem witness_LowerWeightNeverShorterCode :
    t2.WF ∧ 1 < t2.count ∧ 2 < t2.count ∧ t2.isLeaf 1 = true ∧ t2.isLeaf 2 = true ∧ (t2.node 1).weight < (t2.node 2).weight :=
  ⟨wf_t2, by decide +kernel⟩

theorem witness_EscapeIsADeepestLeaf : t2.WF ∧ 2 < t2.count ∧ t2.isLeaf 2 = true := ⟨wf_t2, by decide +kernel⟩

theorem witness_CodesArePrefixFree : t2.WF ∧ 1 < t2.count ∧ 4 < t2.count ∧ t2.isLeaf 1 = true ∧ t2.isLeaf 4 = true ∧ 1 ≠ 4 :=
  ⟨wf_t2, by decide +kernel⟩

theorem witness_CodeLengthIsBounded :
    t2.WF ∧ 1 < t2.count ∧ t2.isLeaf 1 = true ∧ t2.count ≠ 2 ∧ CodeTree.initial.WF ∧ CodeTree.initial.count = 2 ∧
    CodeTree.initial.isLeaf 1 = true :=
  ⟨wf_t2, by decide +kernel, by decide +kernel, by decide +kernel, wf_initial, by decide +kernel⟩

/-- V-ENC-11's fault, an encode without room, and V-DEC-7's, a DECODE that has read a bit and a literal. -/
theorem witness_FaultsArePrecise :
    let s := (ready { p8 with nodeCap := 4 } t1).issue 0x2#32 0x42
    holds .encode s = false ∧ exec .encode s = .next (encodeKey k42 s) ∧ (encodeKey k42 s).Answered (bareRecord 4#4) ∧
    (bareRecord 4#4).isFault = true ∧ Instr.encode ≠ .decode ∧
    holds .decode (decoding t1 [.bit false] [.lit k41]) = false ∧
    nextHas (exec .decode (decoding t1 [.bit false] [.lit k41])) (fun t => lastResponse t == some (bareRecord 3#4)) = true ∧
    (bareRecord 3#4).isFault = true :=
  ⟨rfl, rfl, by unfold State.Answered; decide +kernel, by decide +kernel, by decide, by decide +kernel⟩

/-- V-ENC-10's rejection. -/
theorem witness_RejectionsChangeNothing :
    let s : State := { issued tN 0x2#32 0x41 with engine := .ended }
    holds .encode s = false ∧ exec .encode s = .next (encodeKey k41 s) ∧ (encodeKey k41 s).Answered (bareRecord 8#4) ∧
    (bareRecord 8#4).isReject = true :=
  ⟨rfl, rfl, by unfold State.Answered; decide +kernel, by decide +kernel⟩

theorem witness_StatusesOfEachCommand :
    holds .nop (ready p8 t1) = false ∧ exec .nop (ready p8 t1) = .next ((ready p8 t1).respond (.ofStatus statusOk)) ∧
    ((ready p8 t1).respond (.ofStatus statusOk)).Answered (.ofStatus statusOk) ∧
    holds .decode (decoding t2 [.bit true] []) = false :=
  ⟨rfl, rfl, rfl, by decide +kernel⟩

theorem witness_EveryCommandRespondsOnce :
    holds .decode (decoding t2 [.bit true] []) = false ∧ holds .init (ready p8 t1) = false := by decide +kernel

/-- INIT in FAULT, and a hardware reset in ENDED. -/
theorem witness_OnlyInitOrResetLeavesFaultAndEnded :
    let s : State := { issued t1 0x1#32 0 with engine := .fault, errCause := some .corruptTree }
    let u : State := { idle .hardwareReset with engine := .ended }
    step s = .next (s.restart.respond (.ofStatus statusOk)) ∧ s.engine ≠ .ready ∧ s.restart.engine ≠ s.engine ∧
    step u = .next ({ u with host := [] } : State).hardwareReset ∧ u.engine ≠ .ready :=
  ⟨rfl, by decide, by decide, rfl, by decide⟩

theorem witness_FaultsDoNotNest :
    let s : State := { issued t1 0x12#32 0 with engine := .fault, errCause := some .corruptTree }
    s.engine = .fault ∧ s.cmd = some 0x12#32 ∧ decode 0x12#32 = .error .mbzNotZero ∧ Instr.decode ≠ .init :=
  ⟨rfl, rfl, rfl, by decide⟩

theorem witness_OnlyEncodeReadsSymIn : Instr.encodeNull ≠ .encode ∧ Instr.decode ≠ .encode := by decide

theorem witness_ParametersNeverChange : step (idle .takeBit) = .next { idle .takeBit with bitOut := [], host := [] } := rfl

/-- An OK encode of a known symbol, and the END literal after the escape. -/
theorem witness_RootWeightCountsSymbols :
    let s := issued t2 0x2#32 0x42
    let d := decoding t2 [.bit false, .bit false] [.lit kEnd]
    let d' := decodeEnd 2 ((d.consumeBits 2).consumeLit kEnd)
    Inv s ∧ holds .encode s = false ∧ exec .encode s = .next (encodeKey k42 s) ∧
    (encodeKey k42 s).Answered (okRecord 1#4 2#32 0#1 0#64) ∧
    Inv d ∧ holds .decode d = false ∧ decodeFn d = .done d' ∧ d'.Answered (okRecord 5#4 2#32 1#1 0#64) :=
  ⟨inv_t2 _ rfl rfl rfl rfl, rfl, rfl, by unfold State.Answered; decide +kernel, inv_t2 _ rfl rfl rfl rfl,
    by decide +kernel, by decide +kernel, by unfold State.Answered; decide +kernel⟩

theorem witness_EveryStepKeepsTheInvariant :
    Inv (issued t2 0x2#32 0x42) ∧ step (issued t2 0x2#32 0x42) = .next (encodeKey k42 (issued t2 0x2#32 0x42)) :=
  ⟨inv_t2 _ rfl rfl rfl rfl, rfl⟩

theorem witness_WellFormednessIsKept :
    let s : State := { issued t2 0x2#32 0x42 with bitIn := [.eos] }
    s.tree.WF ∧ s.tree.EscapeParentThird ∧ (s.tree.node ROOT).weight ≤ 2 ^ s.params.weightW - 1 ∧
    step s = .next (encodeKey k42 s) :=
  ⟨wf_t2, third_t2, by decide +kernel, rfl⟩

/-- Log 19's tree: well formed, the escape's parent at rank 3. No run reaches it. -/
def tUnreached : CodeTree :=
  { nodes := [inner 2 3 4 none, escLeaf 4, ordLeaf 0x41 1 4, ordLeaf 0x42 1 0, inner 1 1 2 (some 0)]
    order := [1, 2, 3, 4, 0] }

/-- Log 19: by the steps of R161 worked by hand, ENCODE of 0x41 exchanges nodes 2 and 3 and then visits the root, and
`ORDER` [1, 3, 2, 4, 0] has weights 0, 1, 2, 1, 3: R38's sentence fails of `WF` alone. -/
theorem test_wf_alone_is_not_kept :
    tUnreached.wf = true ∧ nextHas (step (issued tUnreached 0x2#32 0x41)) (fun t =>
      t.tree.order == [1, 3, 2, 4, 0] && t.tree.order.map (fun i => (t.tree.node i).weight) == [0, 1, 2, 1, 3] &&
      !t.tree.wf) = true := by
  decide +kernel

end Sys2Proof.Tests
end

section
/-! The weight-order list and the links of a tree, as `WF` gives them -/
namespace Sys2Proof.Machine

/-! ## Ranks and positions -/

section Order
variable {t : CodeTree} (h : t.OrderLists)
include h

theorem CodeTree.mem_order_iff {i : Nat} : i ∈ t.order ↔ i < t.count := by
  obtain ⟨hlen, hnodup, hlt⟩ := h
  have hsub : t.order.toFinset ⊆ Finset.range t.count := fun i hi => by simpa using hlt i (by simpa using hi)
  have hcard : (Finset.range t.count).card ≤ t.order.toFinset.card := by
    simp [List.toFinset_card_of_nodup hnodup, hlen]
  have heq := Finset.eq_of_subset_of_card_le hsub hcard
  simpa using Finset.ext_iff.1 heq i

theorem CodeTree.rank_lt {i : Nat} (hi : i < t.count) : t.rank i < t.count :=
  h.1 ▸ List.idxOf_lt_length_of_mem ((CodeTree.mem_order_iff h).2 hi)

theorem CodeTree.at_lt {r : Nat} (hr : r < t.count) : t.at r < t.count := by
  have hr' : r < t.order.length := h.1 ▸ hr
  rw [t.at_eq_getElem hr']
  exact h.2.2 _ (List.getElem_mem hr')

theorem CodeTree.at_rank {i : Nat} (hi : i < t.count) : t.at (t.rank i) = i := by
  rw [t.at_eq_getElem (h.1 ▸ CodeTree.rank_lt h hi)]
  exact List.getElem_idxOf _

theorem CodeTree.rank_at {r : Nat} (hr : r < t.count) : t.rank (t.at r) = r := by
  have hr' : r < t.order.length := h.1 ▸ hr
  rw [t.at_eq_getElem hr']
  exact h.2.1.idxOf_getElem r hr'

theorem CodeTree.rank_inj {i j : Nat} (hi : i < t.count) (hj : j < t.count) (e : t.rank i = t.rank j) : i = j := by
  rw [← CodeTree.at_rank h hi, e, CodeTree.at_rank h hj]

end Order

/-! ## The conjuncts of `WF` that no weight enters -/

/-- What `WF` says of a tree of three or more nodes apart from its weights. Reachability is left out: it follows
(`CodeTree.Shape.reachedOnce`). -/
structure CodeTree.Shape (t : CodeTree) : Prop where
  three : 3 ≤ t.count
  lists : t.OrderLists
  parents : t.ParentsOk
  children : t.ChildrenOk
  full : t.Full
  escape : t.OneEscape
  paired : t.SiblingsPaired
  ends : t.RankEnds
  keys : t.KeysUnique

theorem CodeTree.WF.shape {t : CodeTree} (h : t.WF) (h3 : 3 ≤ t.count) : t.Shape := by
  obtain ⟨hlists, hparents, hchildren, -, hfull, hescape, -, -, hpaired, hends, hkeys, -⟩ := h
  exact ⟨h3, hlists, hparents, hchildren, hfull, hescape, hpaired, hends, hkeys⟩

/-- A well-formed tree holds the root and the escape (10_state.md R41). -/
theorem CodeTree.WF.two_le_count {t : CodeTree} (h : t.WF) : 2 ≤ t.count := by
  obtain ⟨-, -, -, -, -, ⟨hesc, -⟩, -⟩ := h
  exact hesc

theorem CodeTree.WF.childrenOk {t : CodeTree} (h : t.WF) : t.ChildrenOk := by
  obtain ⟨-, -, hchildren, -⟩ := h
  exact hchildren

namespace CodeTree.Shape
variable {t : CodeTree} (h : t.Shape)
include h

theorem count_odd : t.count % 2 = 1 := (h.paired h.three).1

theorem root_lt : ROOT < t.count := Nat.lt_of_lt_of_le (by decide) h.three

theorem esc_lt : ESC < t.count := h.escape.1

theorem rank_lt {i : Nat} (hi : i < t.count) : t.rank i < t.count := CodeTree.rank_lt h.lists hi

theorem at_lt {r : Nat} (hr : r < t.count) : t.at r < t.count := CodeTree.at_lt h.lists hr

theorem at_rank {i : Nat} (hi : i < t.count) : t.at (t.rank i) = i := CodeTree.at_rank h.lists hi

theorem rank_at {r : Nat} (hr : r < t.count) : t.rank (t.at r) = r := CodeTree.rank_at h.lists hr

theorem rank_inj {i j : Nat} (hi : i < t.count) (hj : j < t.count) (e : t.rank i = t.rank j) : i = j :=
  CodeTree.rank_inj h.lists hi hj e

theorem at_zero : t.at 0 = ESC := h.ends.1

theorem at_last : t.at (t.count - 1) = ROOT := h.ends.2.1

theorem root_parent : (t.node ROOT).parent = none := h.parents.1

theorem escape_iff {i : Nat} (hi : i < t.count) : (t.node i).kind = .escape ↔ i = ESC := h.escape.2 i hi

theorem internal_iff {i : Nat} (hi : i < t.count) :
    (t.node i).kind = .internal ↔ ¬((t.node i).low = none ∧ (t.node i).high = none) := h.full.2.2 i hi

theorem low_eq_none_iff {i : Nat} (hi : i < t.count) : (t.node i).low = none ↔ (t.node i).high = none :=
  h.full.1 h.three i hi

theorem rank_esc : t.rank ESC = 0 := by
  have := h.three
  rw [← h.at_zero, h.rank_at (by omega)]

theorem rank_root : t.rank ROOT = t.count - 1 := by
  have := h.three
  rw [← h.at_last, h.rank_at (by omega)]

theorem eq_esc_of_rank {i : Nat} (hi : i < t.count) (e : t.rank i = 0) : i = ESC :=
  h.rank_inj hi h.esc_lt (e.trans h.rank_esc.symm)

theorem rank_add_one_lt {i : Nat} (hi : i < t.count) (hr : i ≠ ROOT) : t.rank i + 1 < t.count := by
  have hne : t.rank i ≠ t.rank ROOT := fun e => hr (h.rank_inj hi h.root_lt e)
  have := h.rank_root
  have := h.rank_lt hi
  omega

theorem ne_root_of_rank_lt {i j : Nat} (hj : j < t.count) (hij : t.rank i < t.rank j) : i ≠ ROOT := by
  rintro rfl
  have := h.rank_root
  have := h.rank_lt hj
  omega

/-! ### Parents, children and siblings -/

theorem parent_of_child {i c : Nat} (hi : i < t.count) (hc : (t.node i).low = some c ∨ (t.node i).high = some c) :
    c < t.count ∧ (t.node c).parent = some i := by
  obtain ⟨hlow, hhigh⟩ := h.children i hi
  obtain hc | hc := hc
  · obtain hn | ⟨c', hlt, e, hp⟩ := hlow
    · simp [hn] at hc
    · obtain rfl : c' = c := by simpa [e] using hc
      exact ⟨hlt, hp⟩
  · obtain hn | ⟨c', hlt, e, hp⟩ := hhigh
    · simp [hn] at hc
    · obtain rfl : c' = c := by simpa [e] using hc
      exact ⟨hlt, hp⟩

theorem ne_root_of_parent {i p : Nat} (hp : (t.node i).parent = some p) : i ≠ ROOT := by
  rintro rfl
  simp [h.root_parent] at hp

/-- A parent is allocated, ranks above its child and holds it in exactly one slot. -/
theorem parent_spec {i p : Nat} (hi : i < t.count) (hp : (t.node i).parent = some p) :
    p < t.count ∧ t.rank i < t.rank p ∧ ((t.node p).low = some i ∨ (t.node p).high = some i) ∧
      ¬((t.node p).low = some i ∧ (t.node p).high = some i) := by
  have hr := h.ne_root_of_parent hp
  obtain ⟨q, hq, e, hslot⟩ := h.parents.2 i hi hr
  obtain ⟨q', -, e', hrank⟩ := h.ends.2.2 i hi hr
  obtain rfl : q = p := by simpa [e] using hp
  obtain rfl : q' = q := by simpa [e'] using hp
  exact ⟨hq, hrank, hslot⟩

theorem parent_lt {i p : Nat} (hi : i < t.count) (hp : (t.node i).parent = some p) : p < t.count :=
  (h.parent_spec hi hp).1

theorem rank_lt_parent {i p : Nat} (hi : i < t.count) (hp : (t.node i).parent = some p) : t.rank i < t.rank p :=
  (h.parent_spec hi hp).2.1

theorem exists_parent {i : Nat} (hi : i < t.count) (hr : i ≠ ROOT) : ∃ p, (t.node i).parent = some p := by
  obtain ⟨p, -, e, -⟩ := h.parents.2 i hi hr
  exact ⟨p, e⟩

theorem internal_of_parent {i p : Nat} (hi : i < t.count) (hp : (t.node i).parent = some p) :
    (t.node p).kind = .internal := by
  obtain ⟨hplt, -, hslot, -⟩ := h.parent_spec hi hp
  refine (h.internal_iff hplt).2 fun ⟨hl, hh⟩ => ?_
  simp [hl, hh] at hslot

/-- The node at an even rank and the one above it are the low and the high child of one parent (10_state.md R44). -/
theorem pair {r : Nat} (hr : r + 1 < t.count) :
    ∃ p < t.count, (t.node (t.at (2 * (r / 2)))).parent = some p ∧ (t.node (t.at (2 * (r / 2) + 1))).parent = some p ∧
      (t.node p).low = some (t.at (2 * (r / 2))) ∧ (t.node p).high = some (t.at (2 * (r / 2) + 1)) ∧
      2 * (r / 2) + 1 < t.rank p := by
  have hodd := h.count_odd
  obtain ⟨p, hp, hlo, hhi, hlow, hhigh⟩ := (h.paired h.three).2.1 (r / 2) (by omega)
  have hlt : 2 * (r / 2) + 1 < t.count := by omega
  obtain ⟨-, hrank, -⟩ := h.parent_spec (h.at_lt hlt) hhi
  rw [h.rank_at hlt] at hrank
  exact ⟨p, hp, hlo, hhi, hlow, hhigh, hrank⟩

/-- Every node but the root has a sibling `k`, in the same pair of ranks; the parent ranks above the pair. -/
theorem sibling {i p : Nat} (hi : i < t.count) (hp : (t.node i).parent = some p) :
    ∃ k < t.count, k ≠ i ∧ (t.node k).parent = some p ∧ t.rank k / 2 = t.rank i / 2 ∧ t.rank i / 2 < t.rank p / 2 ∧
      ((t.node p).low = some i ∧ (t.node p).high = some k ∨ (t.node p).low = some k ∧ (t.node p).high = some i) := by
  have hr := h.rank_add_one_lt hi (h.ne_root_of_parent hp)
  have hodd := h.count_odd
  obtain ⟨q, hq, hlo, hhi, hlow, hhigh, hrank⟩ := h.pair hr
  have hlt : 2 * (t.rank i / 2) + 1 < t.count := by have := h.rank_lt hq; omega
  have hlorank := h.rank_at (r := 2 * (t.rank i / 2)) (by omega)
  have hhirank := h.rank_at hlt
  obtain hpar | hpar : t.rank i = 2 * (t.rank i / 2) ∨ t.rank i = 2 * (t.rank i / 2) + 1 := by omega
  · have e : t.at (2 * (t.rank i / 2)) = i := by rw [← hpar, h.at_rank hi]
    rw [e] at hlo hlow
    obtain rfl : q = p := by simpa [hlo] using hp
    refine ⟨_, h.at_lt hlt, fun e' => ?_, hhi, by omega, by omega, .inl ⟨hlow, hhigh⟩⟩
    rw [e'] at hhirank; omega
  · have e : t.at (2 * (t.rank i / 2) + 1) = i := by rw [← hpar, h.at_rank hi]
    rw [e] at hhi hhigh
    obtain rfl : q = p := by simpa [hhi] using hp
    refine ⟨_, h.at_lt (by omega), fun e' => ?_, hlo, by omega, by omega, .inr ⟨hlow, hhigh⟩⟩
    rw [e'] at hlorank; omega

theorem root_internal : (t.node ROOT).kind = .internal := by
  have h3 := h.three
  obtain ⟨p, hp, -, hpar, -, -, hrank⟩ := h.pair (r := t.count - 2) (by omega)
  have hodd := h.count_odd
  have := h.rank_lt hp
  obtain rfl : p = ROOT := h.rank_inj hp h.root_lt (by rw [h.rank_root]; omega)
  exact h.internal_of_parent (h.at_lt (by omega)) hpar

end CodeTree.Shape

/-! ## Reachability -/

/-- The child slots of a node, empty ones left out. -/
def CodeTree.kids (t : CodeTree) (i : Nat) : List Nat := (t.node i).low.toList ++ (t.node i).high.toList

theorem CodeTree.reach_succ (t : CodeTree) (f i : Nat) : t.reach (f + 1) i = i :: (t.kids i).flatMap (t.reach f) := rfl

namespace CodeTree.Shape
variable {t : CodeTree} (h : t.Shape)
include h

theorem mem_kids_iff {i c : Nat} (hi : i < t.count) : c ∈ t.kids i ↔ c < t.count ∧ (t.node c).parent = some i := by
  simp only [CodeTree.kids, List.mem_append, Option.mem_toList]
  exact ⟨h.parent_of_child hi, fun ⟨hc, hp⟩ => (h.parent_spec hc hp).2.2.1⟩

/-- No node is in two slots (10_state.md R39). -/
theorem nodup_kids {i : Nat} (hi : i < t.count) : (t.kids i).Nodup := by
  have hdisj : ∀ c, (t.node i).low = some c → ¬ (t.node i).high = some c := fun c hl hh => by
    obtain ⟨hc, hp⟩ := h.parent_of_child hi (.inl hl)
    exact (h.parent_spec hc hp).2.2.2 ⟨hl, hh⟩
  unfold CodeTree.kids
  cases hl : (t.node i).low with
  | none => cases (t.node i).high <;> simp
  | some c =>
    cases hh : (t.node i).high with
    | none => simp
    | some d => simpa [hh, eq_comm] using hdisj c hl

theorem root_not_mem_reach {f i : Nat} (hi : i < t.count) (hne : i ≠ ROOT) : ROOT ∉ t.reach f i := by
  induction f generalizing i with
  | zero => simp [CodeTree.reach]
  | succ f ih =>
    rw [CodeTree.reach_succ, List.mem_cons, List.mem_flatMap]
    rintro (e | ⟨c, hc, hroot⟩)
    · exact hne e.symm
    · obtain ⟨hclt, hp⟩ := (h.mem_kids_iff hi).1 hc
      exact ih hclt (h.ne_root_of_parent hp) hroot

/-- Below `i`, a node is met one level after its parent, and as often. -/
theorem count_reach_succ {f i j p : Nat} (hi : i < t.count) (hj : j < t.count) (hp : (t.node j).parent = some p) :
    (t.reach (f + 1) i).count j = (if i = j then 1 else 0) + (t.reach f i).count p := by
  induction f generalizing i with
  | zero => simp [CodeTree.reach, List.count_cons, List.flatMap_eq_nil_iff.2]
  | succ f ih =>
    have hkids : ((t.kids i).map fun c => if c = j then 1 else 0).sum = if i = p then 1 else 0 := by
      have hcount : ((t.kids i).map fun c => if c = j then 1 else 0).sum = (t.kids i).count j := by
        simp [List.sum_map_ite, List.count, List.countP_eq_length_filter, Bool.beq_eq_decide_eq]
      rw [hcount, (h.nodup_kids hi).count]
      simp [h.mem_kids_iff hi, hj, hp, eq_comm]
    have hstep : ∀ c ∈ t.kids i, (t.reach (f + 1) c).count j = (if c = j then 1 else 0) + (t.reach f c).count p :=
      fun c hc => ih ((h.mem_kids_iff hi).1 hc).1
    rw [CodeTree.reach_succ t (f + 1), CodeTree.reach_succ t f, List.count_cons, List.count_cons, List.count_flatMap,
      List.count_flatMap, show List.map (List.count j ∘ t.reach (f + 1)) (t.kids i) = _ from List.map_congr_left hstep,
      List.sum_map_add, hkids]
    simp only [beq_iff_eq, Function.comp_def]
    omega

/-- Every node is reached from the root exactly once: a node's parent ranks above it, so its chain of parents ends at the
root within `REG.NODE_COUNT` levels. -/
theorem reachedOnce : t.ReachedOnce := by
  have key : ∀ f j, j < t.count → t.count ≤ f + t.rank j → (t.reach f ROOT).count j = 1 := by
    intro f
    induction f with
    | zero =>
      intro j hj hf
      have := h.rank_lt hj
      omega
    | succ f ih =>
      intro j hj hf
      by_cases hr : j = ROOT
      · subst hr
        have hnone : ROOT ∉ (t.kids ROOT).flatMap (t.reach f) := fun hm => by
          obtain ⟨c, hc, hroot⟩ := List.mem_flatMap.1 hm
          obtain ⟨hclt, hp⟩ := (h.mem_kids_iff h.root_lt).1 hc
          exact h.root_not_mem_reach hclt (h.ne_root_of_parent hp) hroot
        rw [CodeTree.reach_succ, List.count_cons_self, List.count_eq_zero.2 hnone]
      · obtain ⟨p, hp⟩ := h.exists_parent hj hr
        obtain ⟨hplt, hrank, -⟩ := h.parent_spec hj hp
        rw [h.count_reach_succ h.root_lt hj hp, if_neg (Ne.symm hr), ih p hplt (by omega)]
  exact fun i hi => key t.count i hi (Nat.le_add_right _ _)

end CodeTree.Shape

end Sys2Proof.Machine
end

section
/-! The length of a code. -/
namespace Sys2Proof.Machine

theorem CodeTree.pathWithin_root (t : CodeTree) (f : Nat) : t.pathWithin f ROOT = some [] := by
  cases f <;> simp [CodeTree.pathWithin]

/-- The path of a child is its parent's, and the bit of the slot that holds it. -/
theorem CodeTree.pathWithin_of_child (t : CodeTree) {i p : Nat} (hr : i ≠ ROOT) (hp : (t.node i).parent = some p)
    (hslot : (t.node p).low = some i ∨ (t.node p).high = some i) (f : Nat) :
    ∃ b, t.child p b = some i ∧ t.pathWithin (f + 1) i = (t.pathWithin f p).map (· ++ [b]) := by
  by_cases hlow : (t.node p).low = some i
  · exact ⟨false, hlow, by simp [CodeTree.pathWithin, hr, hp, hlow]⟩
  · have hhigh : (t.node p).high = some i := hslot.resolve_left hlow
    exact ⟨true, hhigh, by simp [CodeTree.pathWithin, hr, hp, hlow, hhigh]⟩

/-- Every edge towards the root climbs at least one pair of ranks, and there are `(NODE_COUNT - 1) / 2` pairs below the
root's rank. -/
theorem CodeTree.Shape.exists_path {t : CodeTree} (h : t.Shape) (f i : Nat) (hi : i < t.count)
    (hf : (t.count - 1) / 2 ≤ f + t.rank i / 2) :
    ∃ bs, t.pathWithin f i = some bs ∧ bs.length + t.rank i / 2 ≤ (t.count - 1) / 2 ∧ (i ≠ ROOT → 1 ≤ bs.length) := by
  induction f generalizing i with
  | zero =>
    have hodd := h.count_odd
    have hr : i = ROOT := by
      by_contra hr
      have := h.rank_add_one_lt hi hr
      omega
    subst hr
    exact ⟨[], t.pathWithin_root 0, by simp [h.rank_root], fun hr => absurd rfl hr⟩
  | succ f ih =>
    by_cases hr : i = ROOT
    · subst hr
      exact ⟨[], t.pathWithin_root _, by simp [h.rank_root], fun hr => absurd rfl hr⟩
    · obtain ⟨p, hp⟩ := h.exists_parent hi hr
      obtain ⟨hplt, -, hslot, -⟩ := h.parent_spec hi hp
      obtain ⟨-, -, -, -, -, hrank, -⟩ := h.sibling hi hp
      obtain ⟨bs, hbs, hlen, -⟩ := ih p hplt (by omega)
      obtain ⟨b, -, hpath⟩ := t.pathWithin_of_child hr hp hslot f
      refine ⟨bs ++ [b], by rw [hpath, hbs]; rfl, ?_, fun _ => by simp⟩
      rw [List.length_append, List.length_singleton]
      omega

theorem CodeTree.pathTo_of_pathWithin {t : CodeTree} {i : Nat} {bs : List Bool}
    (h : t.pathWithin t.count i = some bs) : t.pathTo i = bs := by simp [CodeTree.pathTo, h]

theorem CodeTree.Shape.depth_le {t : CodeTree} (h : t.Shape) {i : Nat} (hi : i < t.count) :
    t.depth i ≤ (t.count - 1) / 2 ∧ (i ≠ ROOT → 1 ≤ t.depth i) := by
  obtain ⟨bs, hbs, hlen, hpos⟩ := h.exists_path t.count i hi (by omega)
  rw [CodeTree.depth, CodeTree.pathTo_of_pathWithin hbs]
  exact ⟨by omega, hpos⟩

/-! ## The two-node tree -/

/-- The root with an empty high slot and the escape, their symbol fields being `a` and `b`. -/
def twoNodes (a b : SymVal) : CodeTree :=
  { nodes := [ { kind := .internal, sym := a, weight := 0, low := some ESC, high := none, parent := none },
               { kind := .escape, sym := b, weight := 0, low := none, high := none, parent := some ROOT } ]
    order := [ESC, ROOT] }

/-- A well-formed tree of two nodes is INIT's but for the symbol fields (10_state.md R40). -/
theorem CodeTree.WF.eq_twoNodes {t : CodeTree} (h : t.WF) (h2 : t.count = 2) : ∃ a b, t = twoNodes a b := by
  obtain ⟨⟨hlen, -⟩, ⟨hroot, -⟩, -, -, ⟨-, hslots, hkinds⟩, ⟨hesc, hescape⟩, hsums, -, -, ⟨hat0, hat1, hrank⟩, -, hw, -⟩ :=
    h
  have hroot_lt : ROOT < t.count := h2 ▸ Nat.zero_lt_two
  obtain ⟨hlow, hhigh⟩ := hslots h2
  have hkind : (t.node ROOT).kind = .internal := (hkinds ROOT hroot_lt).2 (by simp [hlow])
  have hsum := hsums ROOT hroot_lt hkind
  have hescKind : (t.node ESC).kind = .escape := (hescape ESC hesc).2 rfl
  have hleaf : (t.node ESC).low = none ∧ (t.node ESC).high = none := by
    by_contra hc
    exact absurd ((hkinds ESC hesc).2 hc) (by simp [hescKind])
  obtain ⟨p, hp, hpar, hlt⟩ := hrank ESC hesc (by decide)
  have hpr : p = ROOT := by
    have hpe : p ≠ ESC := fun e => by simp [e] at hlt
    rw [h2] at hp
    unfold ROOT ESC at *
    omega
  subst hpr
  have horder : t.order = [ESC, ROOT] := by
    rw [h2] at hlen hat1
    obtain ⟨a, b, hab⟩ := List.length_eq_two.1 hlen
    rw [CodeTree.at, hab] at hat0 hat1
    simpa [hab] using And.intro hat0 hat1
  obtain ⟨nodes, order⟩ := t
  obtain ⟨n0, n1, rfl⟩ := List.length_eq_two.1 h2
  refine ⟨n0.sym, n1.sym, ?_⟩
  cases n0
  cases n1
  simp_all [CodeTree.node, CodeTree.slotWeight, twoNodes]

/-- Settles O49: from three nodes on by the climb through the pairs of ranks, in the two-node tree by its one path. -/
theorem codeLengthIsBounded : Obligations.CodeLengthIsBounded := by
  intro t a hwf ha hleaf
  obtain h2 | h3 : t.count = 2 ∨ 3 ≤ t.count := by have := hwf.two_le_count; omega
  · obtain ⟨u, v, rfl⟩ := hwf.eq_twoNodes h2
    have hcases : a = ROOT ∨ a = ESC := by
      change a < 2 at ha
      unfold ROOT ESC
      omega
    obtain rfl | rfl := hcases
    · cases hleaf
    · have hdepth : (twoNodes u v).depth ESC = 1 := rfl
      omega
  · have h := hwf.shape h3
    have hne : a ≠ ROOT := by rintro rfl; simp [CodeTree.isLeaf, h.root_internal] at hleaf
    obtain ⟨hle, hpos⟩ := h.depth_le ha
    exact ⟨hpos hne, fun _ => hle, fun h2 => by omega⟩

end Sys2Proof.Machine
end

section
/-! What the increment and the swap of an update pass do to a tree. -/
namespace Sys2Proof

/-! ## Two indices exchanged -/

theorem map_swap_of_ne {a b : Nat} {o : Option Nat} (ha : o ≠ some a) (hb : o ≠ some b) :
    o.map (Equiv.swap a b) = o := by
  cases o with
  | none => rfl
  | some c => exact congrArg some (Equiv.swap_apply_of_ne_of_ne (by simpa using ha) (by simpa using hb))

theorem map_swap_eq_some_iff {a b c : Nat} {o : Option Nat} :
    o.map (Equiv.swap a b) = some c ↔ o = some (Equiv.swap a b c) := by
  cases o with
  | none => simp
  | some d =>
    simp only [Option.map_some, Option.some.injEq]
    exact ⟨fun e => by rw [← e, Equiv.swap_apply_self], fun e => by rw [e, Equiv.swap_apply_self]⟩

/-- Entry `nd` with the indices `a` and `b` exchanged in its slots. -/
def Node.exchange (a b : Nat) (nd : Node) : Node :=
  { nd with low := nd.low.map (Equiv.swap a b), high := nd.high.map (Equiv.swap a b) }

theorem Node.exchange_of_ne {a b : Nat} {nd : Node} (ha : nd.low ≠ some a ∧ nd.high ≠ some a)
    (hb : nd.low ≠ some b ∧ nd.high ≠ some b) : nd.exchange a b = nd := by
  rw [Node.exchange, map_swap_of_ne ha.1 hb.1, map_swap_of_ne ha.2 hb.2]

theorem Node.exchange_comm (a b : Nat) (nd : Node) : nd.exchange a b = nd.exchange b a := by
  rw [Node.exchange, Equiv.swap_comm, Node.exchange]

end Sys2Proof

namespace Sys2Proof.Machine

/-! ## Increment -/

section Increment
variable (P : Params) (t : CodeTree) (x : Nat)

@[simp] theorem CodeTree.rank_increment (i : Nat) : (CodeTree.increment P t x).rank i = t.rank i := rfl

@[simp] theorem CodeTree.at_increment (r : Nat) : (CodeTree.increment P t x).at r = t.at r := rfl

/-- The increment changes one weight and nothing else (43_tree_update.md R169). -/
theorem CodeTree.node_increment (i : Nat) : (CodeTree.increment P t x).node i =
    { t.node i with weight := ((CodeTree.increment P t x).node i).weight } := by
  simp only [CodeTree.increment, CodeTree.node_modifyNode]
  split
  · rename_i h; rw [h.1]
  · rfl

@[simp] theorem CodeTree.kind_increment (i : Nat) : ((CodeTree.increment P t x).node i).kind = (t.node i).kind := by
  rw [CodeTree.node_increment]

@[simp] theorem CodeTree.sym_increment (i : Nat) : ((CodeTree.increment P t x).node i).sym = (t.node i).sym := by
  rw [CodeTree.node_increment]

@[simp] theorem CodeTree.low_increment (i : Nat) : ((CodeTree.increment P t x).node i).low = (t.node i).low := by
  rw [CodeTree.node_increment]

@[simp] theorem CodeTree.high_increment (i : Nat) : ((CodeTree.increment P t x).node i).high = (t.node i).high := by
  rw [CodeTree.node_increment]

@[simp] theorem CodeTree.parent_increment (i : Nat) : ((CodeTree.increment P t x).node i).parent = (t.node i).parent := by
  rw [CodeTree.node_increment]

variable {P t x}

theorem CodeTree.weight_increment (hx : x < t.count) (hfits : (t.node x).weight + 1 < 2 ^ P.weightW) (i : Nat) :
    ((CodeTree.increment P t x).node i).weight = (t.node i).weight + if i = x then 1 else 0 := by
  simp only [CodeTree.increment, CodeTree.node_modifyNode, hx, and_true]
  split
  · rename_i h; subst h; exact Nat.mod_eq_of_lt hfits
  · rfl

theorem CodeTree.Shape.increment (h : t.Shape) : (CodeTree.increment P t x).Shape where
  three := by simpa using h.three
  lists := by simpa [CodeTree.OrderLists] using h.lists
  parents := by simpa [CodeTree.ParentsOk] using h.parents
  children := by simpa [CodeTree.ChildrenOk] using h.children
  full := by simpa [CodeTree.Full] using h.full
  escape := by simpa [CodeTree.OneEscape] using h.escape
  paired := by simpa [CodeTree.SiblingsPaired] using h.paired
  ends := by simpa [CodeTree.RankEnds] using h.ends
  keys := by simpa [CodeTree.KeysUnique] using h.keys

end Increment

/-! ## Swap -/

theorem CodeTree.Shape.slots_ne_of_parent_ne {t : CodeTree} (h : t.Shape) {i c : Nat} (hi : i < t.count)
    (hne : (t.node c).parent ≠ some i) : (t.node i).low ≠ some c ∧ (t.node i).high ≠ some c :=
  ⟨fun e => hne (h.parent_of_child hi (.inl e)).2, fun e => hne (h.parent_of_child hi (.inr e)).2⟩

/-- In a parent that holds `a` in one slot and not `b`, to replace `a` by `b` is to exchange the two. -/
theorem CodeTree.node_replaceChild {t : CodeTree} {p a b : Nat} (hp : p < t.count)
    (hslot : (t.node p).low = some a ∨ (t.node p).high = some a)
    (hone : ¬((t.node p).low = some a ∧ (t.node p).high = some a))
    (hb : (t.node p).low ≠ some b ∧ (t.node p).high ≠ some b) (i : Nat) :
    (t.replaceChild (some p) a b).node i = if i = p then (t.node p).exchange a b else t.node i := by
  simp only [CodeTree.replaceChild, CodeTree.node_modifyNode, hp, and_true]
  by_cases hl : (t.node p).low = some a
  · simp [Node.exchange, hl, map_swap_of_ne (fun hh => hone ⟨hl, hh⟩) hb.2]
  · simp [Node.exchange, hl, hslot.resolve_left hl, map_swap_of_ne hl hb.1]

/-- Entry `i` after a swap of `a` and `b`: the two indices are exchanged in its slots, and it has the parent of the node
whose place it takes (43_tree_update.md R166, R167). -/
def CodeTree.swapped (t : CodeTree) (a b i : Nat) : Node :=
  { (t.node i).exchange a b with parent := (t.node (Equiv.swap a b i)).parent }

theorem CodeTree.node_setParent {t : CodeTree} {a : Nat} (ha : a < t.count) (p : Option Nat) (i : Nat) :
    (t.setParent a p).node i = { t.node i with parent := if i = a then p else (t.node i).parent } := by
  rw [CodeTree.setParent, CodeTree.node_modifyNode]
  by_cases e : i = a
  · simp [e, ha]
  · simp [e]

section Swap
variable {t : CodeTree} (h : t.Shape) {a b : Nat} (ha : a < t.count) (hb : b < t.count) (hab : a ≠ b)
include h ha hb hab

theorem CodeTree.Shape.node_swap_siblings {p : Nat} (hpa : (t.node a).parent = some p) (hpb : (t.node b).parent = some p)
    {i : Nat} (hi : i < t.count) : (t.swap a b).node i = t.swapped a b i := by
  obtain ⟨hp, -, hslota, -⟩ := h.parent_spec ha hpa
  obtain ⟨-, -, hslotb, -⟩ := h.parent_spec hb hpb
  have hparent : (t.node (Equiv.swap a b i)).parent = (t.node i).parent := by
    rw [Equiv.swap_apply_def]
    split
    · next e => rw [e, hpa, hpb]
    · split
      · next e => rw [e, hpa, hpb]
      · rfl
  rw [CodeTree.node_swap, CodeTree.swapLinks, hpa, hpb, if_pos rfl, CodeTree.exchangeSlots, CodeTree.node_modifyNode,
    CodeTree.swapped, hparent]
  split
  · next e =>
    obtain ⟨rfl, -⟩ := e
    obtain ⟨hl, hh⟩ | ⟨hl, hh⟩ : ((t.node i).low = some a ∧ (t.node i).high = some b) ∨
        ((t.node i).low = some b ∧ (t.node i).high = some a) := by
      grind
    · simp [Node.exchange, hl, hh]
    · simp [Node.exchange, hl, hh]
  · next e =>
    have hip : p ≠ i := fun hpi => e ⟨hpi.symm, hp⟩
    rw [Node.exchange_of_ne (h.slots_ne_of_parent_ne hi (c := a) (by simpa [hpa] using hip))
      (h.slots_ne_of_parent_ne hi (c := b) (by simpa [hpb] using hip))]

theorem CodeTree.Shape.node_swap_of_parents_ne {p q : Nat} (hpa : (t.node a).parent = some p)
    (hpb : (t.node b).parent = some q) (hpq : p ≠ q) {i : Nat} (hi : i < t.count) :
    (t.swap a b).node i = t.swapped a b i := by
  obtain ⟨hp, -, hslota, honea⟩ := h.parent_spec ha hpa
  obtain ⟨hq, -, hslotb, honeb⟩ := h.parent_spec hb hpb
  have hslots : ∀ c r, (t.node c).parent = some r → r ≠ i → (t.node i).low ≠ some c ∧ (t.node i).high ≠ some c :=
    fun c r hc hr => h.slots_ne_of_parent_ne hi (by simpa [hc] using hr)
  have hp' := t.node_replaceChild hp hslota honea
    (h.slots_ne_of_parent_ne hp (c := b) (by simpa [hpb] using Ne.symm hpq))
  have hq' := (t.replaceChild (some p) a b).node_replaceChild (p := q) (a := b) (b := a) (by simpa using hq)
  simp only [hp', if_neg (Ne.symm hpq)] at hq'
  replace hq' := hq' hslotb honeb (h.slots_ne_of_parent_ne hq (c := a) (by simpa [hpa] using hpq))
  have hlinks : ((t.replaceChild (some p) a b).replaceChild (some q) b a).node i = (t.node i).exchange a b := by
    rw [hq']
    split
    · next e => rw [e, Node.exchange_comm]
    · next hiq =>
      split
      · next e => rw [e]
      · next hip => rw [Node.exchange_of_ne (hslots a p hpa (Ne.symm hip)) (hslots b q hpb (Ne.symm hiq))]
  have hparent : (t.node (Equiv.swap a b i)).parent =
      if i = b then some p else if i = a then some q else (t.node i).parent := by
    rw [Equiv.swap_apply_def]
    grind
  rw [CodeTree.node_swap, CodeTree.swapLinks, hpa, hpb, if_neg (by simpa using hpq),
    CodeTree.node_setParent (by simpa using hb), CodeTree.node_setParent (by simpa using ha), hlinks, CodeTree.swapped,
    hparent]
  rfl

theorem CodeTree.Shape.node_swap_eq (hra : a ≠ ROOT) (hrb : b ≠ ROOT) {i : Nat} (hi : i < t.count) :
    (t.swap a b).node i = t.swapped a b i := by
  obtain ⟨p, hpa⟩ := h.exists_parent ha hra
  obtain ⟨q, hpb⟩ := h.exists_parent hb hrb
  by_cases hpq : p = q
  · exact h.node_swap_siblings ha hb hab hpa (hpq ▸ hpb) hi
  · exact h.node_swap_of_parents_ne ha hb hab hpa hpb hpq hi

end Swap

section SwapRanks
variable {t : CodeTree} {a b : Nat}

theorem CodeTree.order_swap_eq_map (h : t.OrderLists) (ha : a < t.count) (hb : b < t.count) :
    (t.swap a b).order = t.order.map (Equiv.swap a b) := by
  rw [CodeTree.order_swap]
  refine List.ext_getElem (by simp) fun r hr _ => ?_
  have hr' : r < t.count := by simpa [h.1] using hr
  have hiff : ∀ c < t.count, t.rank c = r ↔ t.order[r]'(h.1 ▸ hr') = c := fun c hc => by
    rw [← t.at_eq_getElem (h.1 ▸ hr')]
    exact ⟨fun e => e ▸ CodeTree.at_rank h hc, fun e => e ▸ CodeTree.rank_at h hr'⟩
  simp only [List.getElem_set, List.getElem_map, Equiv.swap_apply_def, hiff a ha, hiff b hb]
  split
  · next e =>
    split
    · next e' => rw [← e, e']
    · rfl
  · rfl

theorem CodeTree.swap_apply_lt (ha : a < t.count) (hb : b < t.count) {i : Nat} (hi : i < t.count) :
    Equiv.swap a b i < t.count := by
  rw [Equiv.swap_apply_def]
  split_ifs <;> assumption

variable (h : t.OrderLists) (ha : a < t.count) (hb : b < t.count)
include h ha hb

theorem CodeTree.orderLists_swap : (t.swap a b).OrderLists := by
  have hmap := CodeTree.order_swap_eq_map h ha hb
  obtain ⟨hlen, hnodup, hlt⟩ := h
  refine ⟨by simp [hmap, hlen], hmap ▸ hnodup.map (Equiv.injective _), fun i hi => ?_⟩
  rw [hmap] at hi
  obtain ⟨j, hj, rfl⟩ := List.mem_map.1 hi
  simpa using CodeTree.swap_apply_lt ha hb (hlt j hj)

theorem CodeTree.at_swap {r : Nat} (hr : r < t.count) : (t.swap a b).at r = Equiv.swap a b (t.at r) := by
  have hr' : r < t.order.length := h.1 ▸ hr
  rw [CodeTree.at_eq_getElem _ (by rw [CodeTree.order_swap_eq_map h ha hb, List.length_map]; exact hr'),
    t.at_eq_getElem hr']
  simp [CodeTree.order_swap_eq_map h ha hb]

theorem CodeTree.rank_swap {i : Nat} (hi : i < t.count) : (t.swap a b).rank i = t.rank (Equiv.swap a b i) := by
  have hs := CodeTree.swap_apply_lt ha hb hi
  have hlt := CodeTree.rank_lt h hs
  have hat := CodeTree.at_swap h ha hb hlt
  rw [CodeTree.at_rank h hs, Equiv.swap_apply_self] at hat
  rw [← CodeTree.rank_at (CodeTree.orderLists_swap h ha hb) (r := t.rank (Equiv.swap a b i)) (by simpa using hlt), hat]

end SwapRanks

/-! ### A swap keeps the shape -/

section SwapShape
variable {t : CodeTree} {a b : Nat}

/-- What an update pass knows of the nodes it exchanges: `b` ranks above `a`, neither is the root or the escape, and
the children of `b` rank below `a`, where `b` goes. -/
structure CodeTree.Exchangeable (t : CodeTree) (a b : Nat) : Prop where
  lower : t.rank a < t.rank b
  ne_esc : a ≠ ESC
  ne_root : b ≠ ROOT
  above_children : ∀ i < t.count, (t.node i).parent = some b → t.rank i < t.rank a

theorem CodeTree.Shape.swap_apply_root (h : t.Shape) (hb : b < t.count) (he : t.Exchangeable a b) :
    Equiv.swap a b ROOT = ROOT :=
  Equiv.swap_apply_of_ne_of_ne (h.ne_root_of_rank_lt hb he.lower).symm he.ne_root.symm

theorem CodeTree.Shape.swap_apply_esc (h : t.Shape) (he : t.Exchangeable a b) : Equiv.swap a b ESC = ESC :=
  Equiv.swap_apply_of_ne_of_ne he.ne_esc.symm fun e => by
    have := he.lower
    simp [← e, h.rank_esc] at this

variable (h : t.Shape) (ha : a < t.count) (hb : b < t.count) (he : t.Exchangeable a b)
include h ha hb he

theorem CodeTree.Shape.node_swap {i : Nat} (hi : i < t.count) : (t.swap a b).node i = t.swapped a b i :=
  h.node_swap_eq ha hb (fun e => by have := he.lower; simp [e] at this) (h.ne_root_of_rank_lt hb he.lower) he.ne_root hi

theorem CodeTree.Shape.parent_swap {i : Nat} (hi : i < t.count) :
    ((t.swap a b).node i).parent = (t.node (Equiv.swap a b i)).parent := by
  rw [h.node_swap ha hb he hi]; rfl

theorem CodeTree.Shape.low_swap {i : Nat} (hi : i < t.count) :
    ((t.swap a b).node i).low = (t.node i).low.map (Equiv.swap a b) := by
  rw [h.node_swap ha hb he hi]; rfl

theorem CodeTree.Shape.high_swap {i : Nat} (hi : i < t.count) :
    ((t.swap a b).node i).high = (t.node i).high.map (Equiv.swap a b) := by
  rw [h.node_swap ha hb he hi]; rfl

theorem CodeTree.Shape.weight_swap {i : Nat} (hi : i < t.count) :
    ((t.swap a b).node i).weight = (t.node i).weight := by
  rw [h.node_swap ha hb he hi]; rfl

/-- Every parent still ranks above its child: the lower node `a` only rises, and `b` comes down to a rank above its
children. -/
theorem CodeTree.Shape.rank_lt_of_parent_swap {i p : Nat} (hi : i < t.count)
    (hp : (t.node (Equiv.swap a b i)).parent = some p) : p < t.count ∧ (t.swap a b).rank i < (t.swap a b).rank p := by
  have hs := CodeTree.swap_apply_lt ha hb hi
  obtain ⟨hplt, hrank, -⟩ := h.parent_spec hs hp
  refine ⟨hplt, ?_⟩
  rw [CodeTree.rank_swap h.lists ha hb hi, CodeTree.rank_swap h.lists ha hb hplt]
  by_cases hpa : p = a
  · rw [hpa, Equiv.swap_apply_left]
    exact (hpa ▸ hrank).trans he.lower
  · by_cases hpb : p = b
    · rw [hpb, Equiv.swap_apply_right]
      exact he.above_children _ hs (hpb ▸ hp)
    · rwa [Equiv.swap_apply_of_ne_of_ne hpa hpb]

theorem CodeTree.Shape.parents_swap : (t.swap a b).ParentsOk := by
  refine ⟨?_, fun i hi hr => ?_⟩
  · rw [h.parent_swap ha hb he h.root_lt, h.swap_apply_root hb he]
    exact h.root_parent
  · rw [CodeTree.count_swap] at hi ⊢
    have hs := CodeTree.swap_apply_lt ha hb hi
    have hne : Equiv.swap a b i ≠ ROOT := fun e => hr <| by
      rw [← h.swap_apply_root hb he] at e
      exact (Equiv.injective _) e
    obtain ⟨p, hp, hpar, hslot⟩ := h.parents.2 _ hs hne
    refine ⟨p, hp, by rw [h.parent_swap ha hb he hi, hpar], ?_⟩
    rwa [h.low_swap ha hb he hp, h.high_swap ha hb he hp, map_swap_eq_some_iff, map_swap_eq_some_iff]

theorem CodeTree.Shape.children_swap : (t.swap a b).ChildrenOk := by
  intro i hi
  rw [CodeTree.count_swap] at hi ⊢
  have hslot : ∀ o : Option Nat, (o = none ∨ ∃ c < t.count, o = some c ∧ (t.node c).parent = some i) →
      o.map (Equiv.swap a b) = none ∨
        ∃ c < t.count, o.map (Equiv.swap a b) = some c ∧ ((t.swap a b).node c).parent = some i := by
    rintro o (rfl | ⟨c, hc, rfl, hpar⟩)
    · exact .inl rfl
    · have hs := CodeTree.swap_apply_lt ha hb hc
      exact .inr ⟨_, hs, rfl, by rw [h.parent_swap ha hb he hs, Equiv.swap_apply_self, hpar]⟩
  rw [h.low_swap ha hb he hi, h.high_swap ha hb he hi]
  exact ⟨hslot _ (h.children i hi).1, hslot _ (h.children i hi).2⟩

theorem CodeTree.Shape.full_swap : (t.swap a b).Full := by
  have h3 := h.three
  obtain ⟨hfull, -, hkind⟩ := h.full
  refine ⟨fun _ i hi => ?_, fun h2 => ?_, fun i hi => ?_⟩
  · rw [CodeTree.count_swap] at hi
    rw [h.low_swap ha hb he hi, h.high_swap ha hb he hi, Option.map_eq_none_iff, Option.map_eq_none_iff]
    exact hfull h3 i hi
  · rw [CodeTree.count_swap] at h2
    omega
  · rw [CodeTree.count_swap] at hi
    rw [(t.label_swap a b i).1, h.low_swap ha hb he hi, h.high_swap ha hb he hi, Option.map_eq_none_iff,
      Option.map_eq_none_iff]
    exact hkind i hi

theorem CodeTree.Shape.paired_swap : (t.swap a b).SiblingsPaired := by
  have h3 := h.three
  obtain ⟨hodd, hpairs, hroot⟩ := h.paired h3
  intro _
  rw [CodeTree.count_swap]
  refine ⟨hodd, fun j hj => ?_, ?_⟩
  · obtain ⟨p, hp, hlo, hhi, hlow, hhigh⟩ := hpairs j hj
    have hat : ∀ r < t.count, (t.node (t.at r)).parent = some p →
        ((t.swap a b).node (Equiv.swap a b (t.at r))).parent = some p := fun r hr hpar => by
      rw [h.parent_swap ha hb he (CodeTree.swap_apply_lt ha hb (h.at_lt hr)), Equiv.swap_apply_self, hpar]
    rw [CodeTree.at_swap h.lists ha hb (by omega), CodeTree.at_swap h.lists ha hb (by omega)]
    refine ⟨p, hp, hat _ (by omega) hlo, hat _ (by omega) hhi, ?_, ?_⟩
    · rw [h.low_swap ha hb he hp, hlow]; rfl
    · rw [h.high_swap ha hb he hp, hhigh]; rfl
  · rw [CodeTree.at_swap h.lists ha hb (by omega), hroot, h.swap_apply_root hb he]

theorem CodeTree.Shape.ends_swap : (t.swap a b).RankEnds := by
  have h3 := h.three
  obtain ⟨hfirst, hlast, -⟩ := h.ends
  rw [CodeTree.RankEnds, CodeTree.count_swap]
  refine ⟨?_, ?_, fun i hi hr => ?_⟩
  · rw [CodeTree.at_swap h.lists ha hb (by omega), hfirst, h.swap_apply_esc he]
  · rw [CodeTree.at_swap h.lists ha hb (by omega), hlast, h.swap_apply_root hb he]
  · obtain ⟨p, -, hpar, -⟩ := (h.parents_swap ha hb he).2 i (by simpa using hi) hr
    rw [h.parent_swap ha hb he hi] at hpar
    obtain ⟨hp, hrank⟩ := h.rank_lt_of_parent_swap ha hb he hi hpar
    exact ⟨p, hp, by rw [h.parent_swap ha hb he hi, hpar], hrank⟩

theorem CodeTree.Shape.swap : (t.swap a b).Shape where
  three := by simpa using h.three
  lists := CodeTree.orderLists_swap h.lists ha hb
  parents := h.parents_swap ha hb he
  children := h.children_swap ha hb he
  full := h.full_swap ha hb he
  escape := by
    simp only [CodeTree.OneEscape, CodeTree.count_swap, (t.label_swap a b _).1]
    exact h.escape
  paired := h.paired_swap ha hb he
  ends := h.ends_swap ha hb he
  keys := by
    simp only [CodeTree.KeysUnique, CodeTree.count_swap, (t.label_swap a b _).1, (t.label_swap a b _).2]
    exact h.keys

end SwapShape
end Sys2Proof.Machine
end

section
/-! Ancestors, and the successor of a node. -/
namespace Sys2Proof.Machine

/-! ## Ancestors -/

theorem CodeTree.climb_of_parent {t : CodeTree} {i p : Nat} (hp : (t.node i).parent = some p) (f : Nat) :
    t.climb (f + 1) i = p :: t.climb f p := by simp [CodeTree.climb, hp]

theorem CodeTree.climb_of_no_parent {t : CodeTree} {i : Nat} (hp : (t.node i).parent = none) (f : Nat) :
    t.climb f i = [] := by cases f <;> simp [CodeTree.climb, hp]

/-- The parent is an ancestor, and every other ancestor is one of the parent's. -/
theorem CodeTree.mem_climb_iff_of_parent {t : CodeTree} {i p a : Nat} (hp : (t.node i).parent = some p) (f : Nat) :
    a ∈ t.climb (f + 1) i ↔ a = p ∨ a ∈ t.climb f p := by rw [CodeTree.climb_of_parent hp, List.mem_cons]

namespace CodeTree.Shape
variable {t : CodeTree} (h : t.Shape)
include h

/-- The parent is the nearest ancestor. -/
theorem rank_parent_le_of_mem_climb {f i p a : Nat} (hi : i < t.count) (hp : (t.node i).parent = some p)
    (ha : a ∈ t.climb f i) : a < t.count ∧ t.rank p ≤ t.rank a := by
  induction f generalizing i p with
  | zero => simp [CodeTree.climb] at ha
  | succ f ih =>
    obtain ⟨hplt, -⟩ := h.parent_spec hi hp
    rw [CodeTree.climb_of_parent hp, List.mem_cons] at ha
    obtain rfl | ha := ha
    · exact ⟨hplt, le_rfl⟩
    · cases hq : (t.node p).parent with
      | none => simp [CodeTree.climb_of_no_parent hq] at ha
      | some q =>
        obtain ⟨halt, hle⟩ := ih hplt hq ha
        exact ⟨halt, (h.rank_lt_parent hplt hq).le.trans hle⟩

theorem root_mem_climb {f i : Nat} (hi : i < t.count) (hr : i ≠ ROOT) (hf : t.count ≤ f + t.rank i + 1) :
    ROOT ∈ t.climb f i := by
  induction f generalizing i with
  | zero =>
    have := h.rank_add_one_lt hi hr
    omega
  | succ f ih =>
    obtain ⟨p, hp⟩ := h.exists_parent hi hr
    obtain ⟨hplt, hrank, -⟩ := h.parent_spec hi hp
    rw [CodeTree.mem_climb_iff_of_parent hp]
    by_cases hpr : p = ROOT
    · exact .inl hpr.symm
    · exact .inr (ih hplt hpr (by omega))

theorem related_parent {i p : Nat} (hp : (t.node i).parent = some p) : t.related p i = true := by
  have hmem : p ∈ t.climb (t.count - 1 + 1) i := (CodeTree.mem_climb_iff_of_parent hp _).2 (.inl rfl)
  rw [Nat.sub_add_cancel (Nat.le_trans (by decide) h.three)] at hmem
  simp [CodeTree.related, CodeTree.ancestor, hmem]

theorem related_root {i : Nat} (hi : i < t.count) : t.related ROOT i = true := by
  by_cases hr : i = ROOT
  · simp [CodeTree.related, hr]
  · have hmem := h.root_mem_climb (f := t.count) hi hr (by omega)
    simp [CodeTree.related, CodeTree.ancestor, hmem]

/-- Of two related nodes, the one that ranks higher is the ancestor (10_state.md R45). -/
theorem mem_climb_of_related {y i : Nat} (hy : y < t.count) (hi : i < t.count) (hlt : t.rank i < t.rank y)
    (hrel : t.related y i = true) : y ∈ t.climb t.count i := by
  simp only [CodeTree.related, CodeTree.ancestor, Bool.or_eq_true, beq_iff_eq, decide_eq_true_eq] at hrel
  obtain (rfl | hmem) | hmem := hrel
  · omega
  · exact hmem
  · exfalso
    cases hp : (t.node y).parent with
    | none => simp [CodeTree.climb_of_no_parent hp] at hmem
    | some p =>
      have := (h.rank_parent_le_of_mem_climb hy hp hmem).2
      have := h.rank_lt_parent hy hp
      omega

end CodeTree.Shape

/-! ## The comparator -/

section Successor
variable {t : CodeTree} (h : t.OrderLists)
include h

theorem CodeTree.order_pairwise : t.order.Pairwise fun a b => t.rank a < t.rank b := by
  have hrank : ∀ (r : Nat) (hr : r < t.order.length), t.rank t.order[r] = r := fun r hr => by
    rw [← t.at_eq_getElem hr, CodeTree.rank_at h (h.1 ▸ hr)]
  rw [List.pairwise_iff_getElem]
  intro i j hi hj hij
  rwa [hrank i hi, hrank j hj]

theorem CodeTree.mem_drop_order_iff {k y : Nat} : y ∈ t.order.drop k ↔ y < t.count ∧ k ≤ t.rank y := by
  rw [List.mem_drop_iff_getElem]
  constructor
  · rintro ⟨j, hj, rfl⟩
    rw [← t.at_eq_getElem]
    have hj' : k + j < t.count := by have := h.1; omega
    exact ⟨CodeTree.at_lt h (by omega), by rw [CodeTree.rank_at h (by omega)]; omega⟩
  · rintro ⟨hy, hk⟩
    obtain ⟨j, hj⟩ := Nat.exists_eq_add_of_le hk
    have hlt : k + j < t.order.length := hj ▸ h.1 ▸ CodeTree.rank_lt h hy
    exact ⟨j, by omega, by rw [← t.at_eq_getElem hlt, ← hj, CodeTree.at_rank h hy]⟩

/-- The candidates of R163 in terms of ranks. -/
theorem CodeTree.mem_candidates_iff {x y : Nat} :
    y ∈ t.candidates x ↔
      y < t.count ∧ t.rank x < t.rank y ∧ (t.node y).weight = (t.node x).weight ∧ t.related y x = false := by
  rw [t.mem_candidates, CodeTree.mem_drop_order_iff h, Nat.add_one_le_iff, and_assoc]

/-- A successor is a candidate, and no candidate ranks above it (43_tree_update.md R163). -/
theorem CodeTree.successor_spec {x s : Nat} (hs : t.successor x = some s) :
    s ∈ t.candidates x ∧ ∀ y ∈ t.candidates x, t.rank y ≤ t.rank s := by
  refine ⟨t.successor_mem hs, fun y hy => ?_⟩
  have hsub : (t.candidates x).Pairwise fun a b => t.rank a < t.rank b :=
    (CodeTree.order_pairwise h).sublist (List.filter_sublist.trans (List.drop_sublist _ _))
  obtain ⟨ys, hys⟩ := List.getLast?_eq_some_iff.1 hs
  rw [hys, List.pairwise_append] at hsub
  rw [hys, List.mem_append, List.mem_singleton] at hy
  obtain hy | rfl := hy
  · exact (hsub.2.2 y hy s (by simp)).le
  · exact le_rfl

end Successor
end Sys2Proof.Machine
end

section
/-! The invariant of an update pass, between two visits. -/
namespace Sys2Proof.Machine

/-! ## Weights along `ORDER` -/

/-- Weights do not fall with the rank: R43 over nodes. -/
def CodeTree.Ascending (t : CodeTree) : Prop :=
  ∀ i < t.count, ∀ j < t.count, t.rank i < t.rank j → (t.node i).weight ≤ (t.node j).weight

/-- Weights would not fall with the rank if `x` weighed one more. -/
def CodeTree.AscendingWith (t : CodeTree) (x : Nat) : Prop :=
  ∀ i < t.count, ∀ j < t.count, t.rank i < t.rank j →
    (t.node i).weight + (if i = x then 1 else 0) ≤ (t.node j).weight + (if j = x then 1 else 0)

theorem CodeTree.weightsOrdered_iff {t : CodeTree} (h : t.OrderLists) : t.WeightsOrdered ↔ t.Ascending := by
  constructor
  · intro ho i hi j hj hij
    have hmono : ∀ d r, r + d < t.count → (t.node (t.at r)).weight ≤ (t.node (t.at (r + d))).weight := by
      intro d r
      induction d with
      | zero => exact fun _ => le_rfl
      | succ d ih => exact fun hr => (ih (by omega)).trans (ho (r + d) (by omega))
    obtain ⟨d, hd⟩ := Nat.exists_eq_add_of_lt hij
    have := hmono (d + 1) (t.rank i) (by have := CodeTree.rank_lt h hj; omega)
    rwa [← Nat.add_assoc, ← hd, CodeTree.at_rank h hi, CodeTree.at_rank h hj] at this
  · intro ho r hr
    refine ho _ (CodeTree.at_lt h (by omega)) _ (CodeTree.at_lt h (by omega)) ?_
    rw [CodeTree.rank_at h (by omega), CodeTree.rank_at h (by omega)]
    exact Nat.lt_succ_self r

/-- A node that every higher one outweighs can weigh one more. -/
theorem CodeTree.Ascending.ascendingWith {t : CodeTree} (h : t.Ascending) {x : Nat}
    (htop : ∀ j < t.count, t.rank x < t.rank j → (t.node x).weight < (t.node j).weight) : t.AscendingWith x := by
  intro i hi j hj hij
  have hle := h i hi j hj hij
  by_cases hix : i = x
  · subst hix
    have := htop j hj hij
    split <;> split <;> omega
  · rw [if_neg hix]
    omega

/-- The parts of `WF`: reachability follows from the shape. -/
theorem CodeTree.Shape.wf {t : CodeTree} (h : t.Shape) (hsums : t.SumsOk) (hord : t.Ascending) (hleaf : t.LeafWeights) :
    t.WF :=
  ⟨h.lists, h.parents, h.children, h.reachedOnce, h.full, h.escape, hsums, (CodeTree.weightsOrdered_iff h.lists).2 hord,
    h.paired, h.ends, h.keys, hleaf⟩

/-! ## The lowest ranks -/

namespace CodeTree.Shape
variable {t : CodeTree} (h : t.Shape)
include h

theorem ne_esc_of_internal {i : Nat} (hk : (t.node i).kind = .internal) : i ≠ ESC := by
  rintro rfl
  have := (h.escape_iff (i := ESC) h.esc_lt).2 rfl
  simp [hk] at this

theorem exists_child {i : Nat} (hi : i < t.count) (hk : (t.node i).kind = .internal) :
    ∃ c < t.count, (t.node c).parent = some i := by
  have hne := (h.internal_iff hi).1 hk
  obtain ⟨hlow, hhigh⟩ := h.children i hi
  obtain hl | ⟨c, hc, -, hp⟩ := hlow
  · obtain hh | ⟨c, hc, -, hp⟩ := hhigh
    · exact absurd ⟨hl, hh⟩ hne
    · exact ⟨c, hc, hp⟩
  · exact ⟨c, hc, hp⟩

variable (h2 : (t.node ESC).parent = some (t.at 2))
include h2

/-- The children of the escape's parent are the two nodes of lowest rank. -/
theorem parent_eq_at_two_iff {i : Nat} (hi : i < t.count) : (t.node i).parent = some (t.at 2) ↔ t.rank i ≤ 1 := by
  obtain ⟨k, hk, hne, hpk, hrank, -, hslots⟩ := h.sibling h.esc_lt h2
  have hkrank : t.rank k = 1 := by
    have := h.rank_esc
    have : t.rank k ≠ t.rank ESC := fun e => hne (h.rank_inj hk h.esc_lt e)
    omega
  constructor
  · intro hp
    have hslot := (h.parent_spec hi hp).2.2.1
    have : i = ESC ∨ i = k := by grind
    obtain rfl | rfl := this
    · exact h.rank_esc.le.trans (Nat.zero_le 1)
    · exact hkrank.le
  · intro hle
    obtain h0 | h1 : t.rank i = 0 ∨ t.rank i = 1 := by omega
    · rw [h.eq_esc_of_rank hi h0, h2]
    · rw [h.rank_inj hi hk (h1.trans hkrank.symm), hpk]

/-- The escape's parent is the internal node of lowest rank, and ranks 1 and 3 hold leaves. -/
theorem rank_of_internal {i : Nat} (hi : i < t.count) (hk : (t.node i).kind = .internal) :
    t.rank i = 2 ∨ 4 ≤ t.rank i := by
  obtain ⟨c, hc, hp⟩ := h.exists_child hi hk
  obtain ⟨-, -, -, -, -, hrank, -⟩ := h.sibling hc hp
  by_cases hle : t.rank c ≤ 1
  · left
    have hp' := (h.parent_eq_at_two_iff h2 hc).2 hle
    obtain rfl : t.at 2 = i := by simpa [hp] using hp'.symm
    exact h.rank_at (Nat.lt_of_lt_of_le (by decide) h.three)
  · right
    omega

end CodeTree.Shape

/-! ## Between two visits -/

/-- What holds when `Update` is about to count one occurrence at `x`: the tree is well formed but for the order of the
weights, `x` weighs one less than its children together, and `x` itself may be a new leaf of weight 0. -/
structure CodeTree.Pending (t : CodeTree) (x : Nat) : Prop where
  shape : t.Shape
  /-- The escape's parent has rank 2 (log 19). -/
  third : (t.node ESC).parent = some (t.at 2)
  lt : x < t.count
  ne_esc : x ≠ ESC
  esc_weight : (t.node ESC).weight = 0
  leaf_weights : ∀ i < t.count, ((t.node i).kind = .ordinary ∨ (t.node i).kind = .endMarker) →
    1 ≤ (t.node i).weight ∨ (i = x ∧ t.rank x = 1)
  sums : ∀ i < t.count, (t.node i).kind = .internal →
    (t.node i).weight + (if i = x then 1 else 0) = t.slotWeight (t.node i).low + t.slotWeight (t.node i).high

namespace CodeTree.Pending
variable {t : CodeTree} {x : Nat} (h : t.Pending x)
include h

theorem rank_pos : 1 ≤ t.rank x := by
  by_contra hr
  exact h.ne_esc (h.shape.eq_esc_of_rank h.lt (by omega))

theorem parent_weight {i p : Nat} (hi : i < t.count) (hp : (t.node i).parent = some p) :
    ∃ k < t.count, k ≠ i ∧ (t.node k).parent = some p ∧ t.rank k / 2 = t.rank i / 2 ∧ t.rank i / 2 < t.rank p / 2 ∧
      (t.node p).weight + (if p = x then 1 else 0) = (t.node i).weight + (t.node k).weight := by
  obtain ⟨k, hk, hne, hpk, hrank, hlt, hslots⟩ := h.shape.sibling hi hp
  have hsum := h.sums p (h.shape.parent_lt hi hp) (h.shape.internal_of_parent hi hp)
  refine ⟨k, hk, hne, hpk, hrank, hlt, hsum.trans ?_⟩
  obtain ⟨hl, hh⟩ | ⟨hl, hh⟩ := hslots
  · rw [hl, hh]; rfl
  · rw [hl, hh]; exact Nat.add_comm _ _

theorem leaf_weight {i : Nat} (hi : i < t.count) (hk : (t.node i).kind ≠ .internal) (he : i ≠ ESC) :
    1 ≤ (t.node i).weight ∨ (i = x ∧ t.rank x = 1) := by
  refine h.leaf_weights i hi ?_
  cases hkind : (t.node i).kind with
  | internal => exact absurd hkind hk
  | escape => exact absurd ((h.shape.escape_iff hi).1 hkind) he
  | ordinary => exact .inl rfl
  | endMarker => exact .inr rfl

theorem leaf_weight_of_rank {i : Nat} (hi : i < t.count) (hr : t.rank i = 1 ∨ t.rank i = 3) :
    1 ≤ (t.node i).weight ∨ (i = x ∧ t.rank x = 1) := by
  refine h.leaf_weight hi (fun hk => ?_) (fun e => ?_)
  · have := h.shape.rank_of_internal h.third hi hk
    omega
  · have := h.shape.rank_esc
    rw [e] at hr
    omega

/-- A candidate is no relative: neither the root nor the parent of `x`. -/
theorem candidate_not_parent {s : Nat} (hs : s ∈ t.candidates x) : s ≠ ROOT ∧ (t.node x).parent ≠ some s := by
  obtain ⟨-, -, -, hrel⟩ := (CodeTree.mem_candidates_iff h.shape.lists).1 hs
  refine ⟨?_, fun hp => ?_⟩
  · rintro rfl
    simp [h.shape.related_root h.lt] at hrel
  · simp [h.shape.related_parent hp] at hrel

theorem candidate_above_two {s : Nat} (hs : s ∈ t.candidates x) : 3 ≤ t.rank s := by
  obtain ⟨hslt, hlt, -⟩ := (CodeTree.mem_candidates_iff h.shape.lists).1 hs
  have hpos := h.rank_pos
  have hnp := (h.candidate_not_parent hs).2
  by_contra hr
  have hx1 : t.rank x ≤ 1 := by omega
  have hs2 : t.rank s = 2 := by omega
  rw [← h.shape.at_rank hslt, hs2] at hnp
  exact hnp ((h.shape.parent_eq_at_two_iff h.third h.lt).2 hx1)

variable (ho : t.Ascending)
include ho

/-- While the weights ascend the node to count next is not the escape's parent: it would weigh one less than its other
child. -/
theorem rank_ne_two : t.rank x ≠ 2 := by
  intro hx
  have hx2 : t.at 2 = x := by rw [← hx, h.shape.at_rank h.lt]
  obtain ⟨k, hk, hne, hpk, hrank, hlt, hsum⟩ := h.parent_weight h.shape.esc_lt h.third
  rw [hx2, if_pos rfl, h.esc_weight] at hsum
  have := ho k hk x h.lt (h.shape.rank_lt_parent hk (hx2 ▸ hpk))
  omega

/-- The nodes without weight: the escape, the node to count next, and in a tree just grown the parent of both. -/
theorem eq_of_weight_eq_zero {i : Nat} (hi : i < t.count) (hw : (t.node i).weight = 0) :
    i = ESC ∨ i = x ∨ (t.rank x = 1 ∧ t.rank i = 2) := by
  by_cases hk : (t.node i).kind = .internal
  · obtain hr | hr := h.shape.rank_of_internal h.third hi hk
    · by_cases hix : i = x
      · exact .inr (.inl hix)
      · have hi2 : t.at 2 = i := by rw [← hr, h.shape.at_rank hi]
        obtain ⟨k, hkt, hne, -, hrank, -, hsum⟩ := h.parent_weight h.shape.esc_lt h.third
        rw [hi2, if_neg hix, h.esc_weight] at hsum
        have hk0 : t.rank k ≠ 0 := fun e => hne (h.shape.eq_esc_of_rank hkt e)
        have hk1 : t.rank k = 1 := by have := h.shape.rank_esc; omega
        obtain hpos | ⟨-, hx⟩ := h.leaf_weight_of_rank hkt (.inl hk1)
        · omega
        · exact .inr (.inr ⟨hx, hr⟩)
    · exfalso
      have h3 : 3 < t.count := by have := h.shape.rank_lt hi; omega
      have hrank := h.shape.rank_at h3
      have hle := ho _ (h.shape.at_lt h3) i hi (by omega)
      obtain hpos | ⟨e, hx⟩ := h.leaf_weight_of_rank (h.shape.at_lt h3) (.inr hrank)
      · omega
      · rw [e] at hrank
        omega
  · by_cases he : i = ESC
    · exact .inl he
    · obtain hpos | ⟨e, -⟩ := h.leaf_weight hi hk he
      · omega
      · exact .inr (.inl e)

/-- A node that weighs as much as its parent has a sibling without weight. -/
theorem weightless_sibling {i p : Nat} (hi : i < t.count) (hp : (t.node i).parent = some p) (hpx : p ≠ x)
    (hw : (t.node p).weight = (t.node i).weight) :
    ∃ k < t.count, k ≠ i ∧ (t.node k).parent = some p ∧ t.rank k / 2 = t.rank i / 2 ∧ (t.node k).weight = 0 ∧
      (k = ESC ∨ k = x ∨ (t.rank x = 1 ∧ t.rank k = 2)) := by
  obtain ⟨k, hk, hne, hpk, hrank, -, hsum⟩ := h.parent_weight hi hp
  rw [if_neg hpx] at hsum
  have hk0 : (t.node k).weight = 0 := by omega
  exact ⟨k, hk, hne, hpk, hrank, hk0, h.eq_of_weight_eq_zero ho hk hk0⟩

theorem rank_eq_one_of_parent_weight {p : Nat} (hp : (t.node x).parent = some p)
    (hw : (t.node p).weight = (t.node x).weight) : t.rank x = 1 := by
  have hxp := h.shape.rank_lt_parent h.lt hp
  obtain ⟨k, -, hne, -, hrank, -, hk⟩ := h.weightless_sibling ho h.lt hp (fun e => by simp [e] at hxp) hw
  have := h.rank_pos
  obtain rfl | rfl | ⟨hx, -⟩ := hk
  · have := h.shape.rank_esc
    omega
  · exact absurd rfl hne
  · exact hx

/-- Above the escape's parent the weights of a path rise, when `x` stands beside the escape. -/
theorem weight_ne_of_rank_two (hx : t.rank x = 1) {p q : Nat} (hp : p < t.count) (hp2 : t.rank p = 2)
    (hq : (t.node p).parent = some q) : (t.node q).weight ≠ (t.node p).weight := by
  intro hw
  have hpq := h.shape.rank_lt_parent hp hq
  obtain ⟨k, hk, hne, -, hrank, -, hcase⟩ := h.weightless_sibling ho hp hq (fun e => by rw [e] at hpq; omega) hw
  obtain rfl | rfl | ⟨-, hk2⟩ := hcase
  · have := h.shape.rank_esc
    omega
  · omega
  · exact hne (h.shape.rank_inj hk hp (hk2.trans hp2.symm))

/-- The only tie with an ancestor: `x` beside the escape, and their parent (43_tree_update.md R165). -/
theorem ranks_of_related {y : Nat} (hy : y < t.count) (hlt : t.rank x < t.rank y)
    (hw : (t.node y).weight = (t.node x).weight) (hrel : t.related y x = true) : t.rank x = 1 ∧ t.rank y = 2 := by
  have hmem := h.shape.mem_climb_of_related hy h.lt hlt hrel
  obtain ⟨p, hp⟩ := h.shape.exists_parent h.lt (h.shape.ne_root_of_rank_lt hy hlt)
  obtain ⟨hplt, hxp, -⟩ := h.shape.parent_spec h.lt hp
  have hpy := (h.shape.rank_parent_le_of_mem_climb h.lt hp hmem).2
  have hflat : ∀ q < t.count, t.rank x < t.rank q → t.rank q ≤ t.rank y → (t.node q).weight = (t.node x).weight := by
    intro q hq hxq hqy
    have hlow := ho x h.lt q hq hxq
    obtain heq | hqy := hqy.eq_or_lt
    · rw [h.shape.rank_inj hq hy heq, hw]
    · have := ho q hq y hy hqy
      omega
  have hx1 := h.rank_eq_one_of_parent_weight ho hp (hflat p hplt hxp hpy)
  have hp2 : t.rank p = 2 := by
    obtain rfl : t.at 2 = p := by simpa [hp] using ((h.shape.parent_eq_at_two_iff h.third h.lt).2 hx1.le).symm
    exact h.shape.rank_at (Nat.lt_of_lt_of_le (by decide) h.shape.three)
  refine ⟨hx1, ?_⟩
  obtain ⟨f, hf⟩ : ∃ f, t.count = f + 1 := Nat.exists_eq_add_one.2 (Nat.zero_lt_of_lt hy)
  rw [hf, CodeTree.mem_climb_iff_of_parent hp] at hmem
  obtain rfl | hmem := hmem
  · exact hp2
  · exfalso
    cases hq : (t.node p).parent with
    | none => simp [CodeTree.climb_of_no_parent hq] at hmem
    | some q =>
      have hpq := h.shape.rank_lt_parent hplt hq
      obtain ⟨-, hqy⟩ := h.shape.rank_parent_le_of_mem_climb hplt hq hmem
      exact h.weight_ne_of_rank_two ho hx1 hplt hp2 hq
        ((hflat q (h.shape.parent_lt hplt hq) (by omega) hqy).trans (hflat p hplt hxp hpy).symm)

/-- A node above `x` that weighs the same is a candidate, or the parent of `x` and the escape. -/
theorem mem_candidates_or_tie {y : Nat} (hy : y < t.count) (hlt : t.rank x < t.rank y)
    (hw : (t.node y).weight = (t.node x).weight) : y ∈ t.candidates x ∨ (t.rank x = 1 ∧ t.rank y = 2) := by
  cases hrel : t.related y x with
  | false => exact .inl ((CodeTree.mem_candidates_iff h.shape.lists).2 ⟨hy, hlt, hw, hrel⟩)
  | true => exact .inr (h.ranks_of_related ho hy hlt hw hrel)

/-- Children of a candidate rank below `x`, so an exchange with it keeps every parent above its children. -/
theorem exchangeable {s : Nat} (hs : s ∈ t.candidates x) : t.Exchangeable x s := by
  obtain ⟨hslt, hlt, hw, -⟩ := (CodeTree.mem_candidates_iff h.shape.lists).1 hs
  obtain ⟨hroot, hnp⟩ := h.candidate_not_parent hs
  refine ⟨hlt, h.ne_esc, hroot, fun i hi hp => ?_⟩
  by_contra hge
  have hix : i ≠ x := fun e => hnp (e ▸ hp)
  have hxi : t.rank x < t.rank i := by
    have : t.rank x ≠ t.rank i := fun e => hix (h.shape.rank_inj hi h.lt e.symm)
    omega
  have hle := ho x h.lt i hi hxi
  have hle' := ho i hi s hslt (h.shape.rank_lt_parent hi hp)
  obtain ⟨k, hk, hne, hpk, hrank, hk0, hcase⟩ := h.weightless_sibling ho hi hp (fun e => by simp [e] at hlt) (by omega)
  obtain rfl | rfl | ⟨hx, hk2⟩ := hcase
  · have h3 := h.candidate_above_two hs
    have hi1 : t.rank i ≤ 1 := by have := h.shape.rank_esc; omega
    have hs2 : t.at 2 = s := by simpa [hp] using ((h.shape.parent_eq_at_two_iff h.third hi).2 hi1).symm
    rw [← hs2, h.shape.rank_at (Nat.lt_of_lt_of_le (by decide) h.shape.three)] at h3
    omega
  · exact hnp hpk
  · have hxk := ho x h.lt k hk (by omega)
    obtain rfl | rfl | ⟨-, hi2⟩ := h.eq_of_weight_eq_zero ho hi (by omega)
    · have := h.shape.rank_esc
      omega
    · exact hix rfl
    · exact hne (h.shape.rank_inj hk hi (hk2.trans hi2.symm))

/-! ### The tree after the exchange -/

variable {s : Nat} (hs : t.successor x = some s)
include hs

theorem third_swap : ((t.swap x s).node ESC).parent = some ((t.swap x s).at 2) := by
  have hc := t.successor_mem hs
  have hslt := ((CodeTree.mem_candidates_iff h.shape.lists).1 hc).1
  have he := h.exchangeable ho hc
  have h3 : 2 < t.count := h.shape.three
  have hrank2 := h.shape.rank_at h3
  have h2x : t.at 2 ≠ x := fun e => h.rank_ne_two ho (e ▸ hrank2)
  have h2s : t.at 2 ≠ s := fun e => by
    have := h.candidate_above_two hc
    rw [← e, hrank2] at this
    omega
  rw [h.shape.parent_swap h.lt hslt he h.shape.esc_lt, h.shape.swap_apply_esc he, h.third,
    CodeTree.at_swap h.shape.lists h.lt hslt h3, Equiv.swap_apply_of_ne_of_ne h2x h2s]

/-- The two nodes exchanged weigh the same, so no rank changes its weight. -/
theorem weight_at_swap {i : Nat} (hi : i < t.count) :
    ((t.swap x s).node i).weight = (t.node (Equiv.swap x s i)).weight := by
  have hc := t.successor_mem hs
  obtain ⟨hslt, -, hw, -⟩ := (CodeTree.mem_candidates_iff h.shape.lists).1 hc
  rw [h.shape.weight_swap h.lt hslt (h.exchangeable ho hc) hi, Equiv.swap_apply_def]
  split
  · next e => rw [e, hw]
  · split
    · next e => rw [e, hw]
    · rfl

theorem slotWeight_swap {o : Option Nat} (hlt : ∀ c, o = some c → c < t.count) :
    (t.swap x s).slotWeight (o.map (Equiv.swap x s)) = t.slotWeight o := by
  have hslt := ((CodeTree.mem_candidates_iff h.shape.lists).1 (t.successor_mem hs)).1
  cases o with
  | none => rfl
  | some c =>
    change ((t.swap x s).node (Equiv.swap x s c)).weight = (t.node c).weight
    rw [h.weight_at_swap ho hs (CodeTree.swap_apply_lt h.lt hslt (hlt c rfl)), Equiv.swap_apply_self]

theorem weight_pos_of_successor : 1 ≤ (t.node x).weight := by
  have hc := t.successor_mem hs
  obtain ⟨hslt, hlt, hw, -⟩ := (CodeTree.mem_candidates_iff h.shape.lists).1 hc
  have h3 := h.candidate_above_two hc
  by_contra h0
  obtain rfl | rfl | ⟨-, hs2⟩ := h.eq_of_weight_eq_zero ho hslt (by omega)
  · have := h.shape.rank_esc
    omega
  · omega
  · omega

theorem pending_swap : (t.swap x s).Pending x := by
  have hc := t.successor_mem hs
  have hslt := ((CodeTree.mem_candidates_iff h.shape.lists).1 hc).1
  have he := h.exchangeable ho hc
  have hweight := fun i hi => h.shape.weight_swap h.lt hslt he (i := i) hi
  refine ⟨h.shape.swap h.lt hslt he, h.third_swap ho hs, by simpa using h.lt, h.ne_esc, ?_, fun i hi hk => .inl ?_,
    fun i hi hk => ?_⟩
  · rw [hweight ESC h.shape.esc_lt, h.esc_weight]
  · rw [CodeTree.count_swap] at hi
    rw [(t.label_swap x s i).1] at hk
    rw [hweight i hi]
    obtain hpos | ⟨rfl, -⟩ := h.leaf_weights i hi hk
    · exact hpos
    · exact h.weight_pos_of_successor ho hs
  · rw [CodeTree.count_swap] at hi
    rw [(t.label_swap x s i).1] at hk
    have hslot : ∀ c, (t.node i).low = some c ∨ (t.node i).high = some c → c < t.count :=
      fun c hc' => (h.shape.parent_of_child hi hc').1
    rw [hweight i hi, h.shape.low_swap h.lt hslt he hi, h.shape.high_swap h.lt hslt he hi,
      h.slotWeight_swap ho hs fun c hl => hslot c (.inl hl), h.slotWeight_swap ho hs fun c hh => hslot c (.inr hh)]
    exact h.sums i hi hk

/-- After the exchange `x` stands at the top of its weight. -/
theorem ascendingWith_swap : (t.swap x s).AscendingWith x := by
  obtain ⟨hc, hmax⟩ := CodeTree.successor_spec h.shape.lists hs
  obtain ⟨hslt, hlt, hw, -⟩ := (CodeTree.mem_candidates_iff h.shape.lists).1 hc
  have hrank := fun i hi => CodeTree.rank_swap h.shape.lists h.lt hslt (i := i) hi
  have hord : (t.swap x s).Ascending := by
    intro i hi j hj hij
    rw [CodeTree.count_swap] at hi hj
    rw [hrank i hi, hrank j hj] at hij
    rw [h.weight_at_swap ho hs hi, h.weight_at_swap ho hs hj]
    exact ho _ (CodeTree.swap_apply_lt h.lt hslt hi) _ (CodeTree.swap_apply_lt h.lt hslt hj) hij
  refine hord.ascendingWith fun j hj hxj => ?_
  rw [CodeTree.count_swap] at hj
  have hj' := CodeTree.swap_apply_lt h.lt hslt hj
  rw [hrank x h.lt, hrank j hj, Equiv.swap_apply_left] at hxj
  rw [h.weight_at_swap ho hs h.lt, h.weight_at_swap ho hs hj, Equiv.swap_apply_left, hw]
  refine Nat.lt_of_le_of_ne (hw ▸ ho s hslt _ hj' hxj) fun e => ?_
  obtain hcand | ⟨-, h2⟩ := h.mem_candidates_or_tie ho hj' (hlt.trans hxj) e.symm
  · have := hmax _ hcand
    omega
  · have := h.candidate_above_two hc
    omega

end CodeTree.Pending
end Sys2Proof.Machine
end

section
/-! One visit of an update pass, and the whole pass. -/
namespace Sys2Proof.Machine

/-! ## Increment -/

namespace CodeTree.Pending
variable {P : Params} {t : CodeTree} {x : Nat} (h : t.Pending x) (hfits : (t.node x).weight + 1 < 2 ^ P.weightW)
include h hfits

theorem slotWeight_increment (o : Option Nat) :
    (CodeTree.increment P t x).slotWeight o = t.slotWeight o + if o = some x then 1 else 0 := by
  cases o with
  | none => rfl
  | some c => simpa [CodeTree.slotWeight] using CodeTree.weight_increment h.lt hfits c

/-- Only the parent of `x` sees its children's weight rise. -/
theorem slotWeights_increment {i : Nat} (hi : i < t.count) :
    (CodeTree.increment P t x).slotWeight (t.node i).low + (CodeTree.increment P t x).slotWeight (t.node i).high =
      t.slotWeight (t.node i).low + t.slotWeight (t.node i).high + if (t.node x).parent = some i then 1 else 0 := by
  rw [h.slotWeight_increment hfits, h.slotWeight_increment hfits]
  by_cases hp : (t.node x).parent = some i
  · obtain ⟨-, -, hslot, hone⟩ := h.shape.parent_spec h.lt hp
    obtain ⟨hl, hh⟩ | ⟨hl, hh⟩ : ((t.node i).low = some x ∧ (t.node i).high ≠ some x) ∨
        ((t.node i).low ≠ some x ∧ (t.node i).high = some x) := by
      tauto
    · rw [if_pos hl, if_neg hh, if_pos hp]; omega
    · rw [if_neg hl, if_pos hh, if_pos hp]; omega
  · obtain ⟨hl, hh⟩ := h.shape.slots_ne_of_parent_ne hi hp
    rw [if_neg hl, if_neg hh, if_neg hp]; omega

/-- Once `x` has been counted, no node but the next one is short of its children's sum. -/
theorem sums_increment {i : Nat} (hi : i < t.count) (hk : (t.node i).kind = .internal) :
    ((CodeTree.increment P t x).node i).weight + (if (t.node x).parent = some i then 1 else 0) =
      (CodeTree.increment P t x).slotWeight (t.node i).low + (CodeTree.increment P t x).slotWeight (t.node i).high := by
  rw [h.slotWeights_increment hfits hi, CodeTree.weight_increment h.lt hfits, h.sums i hi hk]

theorem leaf_weights_increment {i : Nat} (hi : i < t.count)
    (hk : (t.node i).kind = .ordinary ∨ (t.node i).kind = .endMarker) :
    1 ≤ ((CodeTree.increment P t x).node i).weight := by
  rw [CodeTree.weight_increment h.lt hfits]
  by_cases hix : i = x
  · rw [if_pos hix]
    exact Nat.le_add_left _ _
  · obtain hpos | ⟨e, -⟩ := h.leaf_weights i hi hk
    · exact hpos.trans (Nat.le_add_right _ _)
    · exact absurd e hix

theorem esc_weight_increment : ((CodeTree.increment P t x).node ESC).weight = 0 := by
  rw [CodeTree.weight_increment h.lt hfits, if_neg h.ne_esc.symm, h.esc_weight]

theorem pending_increment {p : Nat} (hp : (t.node x).parent = some p) : (CodeTree.increment P t x).Pending p := by
  refine ⟨h.shape.increment, by simpa using h.third, by simpa using h.shape.parent_lt h.lt hp,
    h.shape.ne_esc_of_internal (h.shape.internal_of_parent h.lt hp), h.esc_weight_increment hfits,
    fun i hi hk => .inl ?_, fun i hi hk => ?_⟩
  · rw [CodeTree.count_increment] at hi
    rw [CodeTree.kind_increment] at hk
    exact h.leaf_weights_increment hfits hi hk
  · rw [CodeTree.count_increment] at hi
    rw [CodeTree.kind_increment] at hk
    have hsum := h.sums_increment hfits hi hk
    rw [hp] at hsum
    simpa [eq_comm] using hsum

theorem ascending_increment (ho : t.AscendingWith x) : (CodeTree.increment P t x).Ascending := by
  intro i hi j hj hij
  rw [CodeTree.count_increment] at hi hj
  rw [CodeTree.weight_increment h.lt hfits, CodeTree.weight_increment h.lt hfits]
  exact ho i hi j hj hij

/-- When the root has been counted the tree is well formed again. -/
theorem wf_increment (hp : (t.node x).parent = none) (ho : t.AscendingWith x) : (CodeTree.increment P t x).WF := by
  refine h.shape.increment.wf (fun i hi hk => ?_) (h.ascending_increment hfits ho)
    ⟨h.esc_weight_increment hfits, fun i hi hk => ?_⟩
  · rw [CodeTree.count_increment] at hi
    rw [CodeTree.kind_increment] at hk
    simpa [hp] using h.sums_increment hfits hi hk
  · rw [CodeTree.count_increment] at hi
    rw [CodeTree.kind_increment] at hk
    exact h.leaf_weights_increment hfits hi hk

/-- Where `x` ties with its parent alone, its count leaves the parent out of order until the next visit. -/
theorem ascendingWith_increment (ho : t.Ascending) (hx : t.rank x = 1) {p : Nat} (hp : p < t.count) (hp2 : t.rank p = 2)
    (htop : ∀ j < t.count, 3 ≤ t.rank j → (t.node p).weight < (t.node j).weight) :
    (CodeTree.increment P t x).AscendingWith p := by
  have hpx : p ≠ x := fun e => by rw [e] at hp2; omega
  have hxp := ho x h.lt p hp (by omega)
  intro i hi j hj hij
  rw [CodeTree.count_increment] at hi hj
  rw [CodeTree.weight_increment h.lt hfits, CodeTree.weight_increment h.lt hfits]
  rw [CodeTree.rank_increment, CodeTree.rank_increment] at hij
  have hle := ho i hi j hj hij
  by_cases hj3 : 3 ≤ t.rank j
  · have hpj := htop j hj hj3
    by_cases hix : i = x
    · subst hix
      rw [if_pos rfl, if_neg (Ne.symm hpx)]
      omega
    · rw [if_neg hix]
      by_cases hip : i = p
      · subst hip
        rw [if_pos rfl]
        omega
      · rw [if_neg hip]
        omega
  · have hip : i ≠ p := fun e => by rw [e] at hij; omega
    rw [if_neg hip]
    by_cases hix : i = x
    · have hjp : j = p := h.shape.rank_inj hj hp (by rw [hix] at hij; omega)
      rw [if_pos hix, if_pos hjp]
      omega
    · rw [if_neg hix]
      omega

end CodeTree.Pending

/-! ## One visit -/

/-- The order of the weights between two visits: the order of R43, or the escape's parent about to catch up with its
child. -/
def CodeTree.InOrder (t : CodeTree) (x : Nat) : Prop := t.Ascending ∨ (t.rank x = 2 ∧ t.AscendingWith x)

/-- The tie of R165: `x` stands beside the escape, weighs as much as their parent, and every other node above weighs
more. -/
def CodeTree.ParentTie (t : CodeTree) (x : Nat) : Prop :=
  t.Ascending ∧ t.rank x = 1 ∧
    ∃ p, (t.node x).parent = some p ∧ t.rank p = 2 ∧ ∀ j < t.count, 3 ≤ t.rank j → (t.node p).weight < (t.node j).weight

namespace CodeTree.Pending
variable {P : Params} {t : CodeTree} {x : Nat} (h : t.Pending x)
include h

/-- Without a successor `x` is at the top of its weight, or tied with its parent alone. -/
theorem top_or_tie (ho : t.Ascending) (hs : t.successor x = none) : t.AscendingWith x ∨ t.ParentTie x := by
  have hnone := (t.successor_eq_none x).1 hs
  have htie : ∀ j < t.count, t.rank x < t.rank j → (t.node j).weight = (t.node x).weight → t.rank x = 1 ∧ t.rank j = 2 :=
    fun j hj hxj hw => (h.mem_candidates_or_tie ho hj hxj hw).resolve_left (by simp [hnone])
  by_cases htop : ∀ j < t.count, t.rank x < t.rank j → (t.node x).weight < (t.node j).weight
  · exact .inl (ho.ascendingWith htop)
  · right
    push Not at htop
    obtain ⟨p, hp, hxp, hle⟩ := htop
    have hw : (t.node p).weight = (t.node x).weight := le_antisymm hle (ho x h.lt p hp hxp)
    obtain ⟨hx1, hp2⟩ := htie p hp hxp hw
    refine ⟨ho, hx1, p, ?_, hp2, fun j hj hj3 => ?_⟩
    · rw [(h.shape.parent_eq_at_two_iff h.third h.lt).2 hx1.le, ← hp2, h.shape.at_rank hp]
    · refine Nat.lt_of_le_of_ne (ho p hp j hj (by omega)) fun e => ?_
      have := (htie j hj (by omega) (e.symm.trans hw)).2
      omega

/-- The node that catches up with its child is exchanged with no other. -/
theorem successor_eq_none (ho : t.AscendingWith x) : t.successor x = none := by
  rw [CodeTree.successor_eq_none, List.eq_nil_iff_forall_not_mem]
  intro s hs
  obtain ⟨hslt, hlt, hw, -⟩ := (CodeTree.mem_candidates_iff h.shape.lists).1 hs
  have hle := ho x h.lt s hslt hlt
  rw [if_pos rfl, if_neg (fun e => by simp [e] at hlt)] at hle
  omega

/-- The exchange of a visit: afterwards `x` can be counted where it stands, or is tied with its parent. -/
theorem promote_spec (ho : t.InOrder x) :
    (t.promote x).Pending x ∧ ((t.promote x).AscendingWith x ∨ (t.promote x).ParentTie x) ∧
      t.rank x ≤ (t.promote x).rank x ∧ ∀ i < t.count, ((t.promote x).node i).weight = (t.node i).weight := by
  obtain ⟨hnone, heq⟩ | ⟨s, hs, heq⟩ := t.promote_cases x
  · rw [heq]
    refine ⟨h, ?_, le_rfl, fun _ _ => rfl⟩
    obtain ho | ⟨-, ho⟩ := ho
    · exact h.top_or_tie ho hnone
    · exact .inl ho
  · rw [heq]
    obtain ho | ⟨-, ho⟩ := ho
    · have hc := t.successor_mem hs
      obtain ⟨hslt, hlt, -⟩ := (CodeTree.mem_candidates_iff h.shape.lists).1 hc
      refine ⟨h.pending_swap ho hs, .inl (h.ascendingWith_swap ho hs), ?_,
        fun i hi => h.shape.weight_swap h.lt hslt (h.exchangeable ho hc) hi⟩
      rw [CodeTree.rank_swap h.shape.lists h.lt hslt h.lt, Equiv.swap_apply_left]
      exact hlt.le
    · simp [h.successor_eq_none ho] at hs

/-- No node outweighs the root. -/
theorem weight_le_root (ho : t.AscendingWith x ∨ t.ParentTie x) : (t.node x).weight ≤ (t.node ROOT).weight := by
  by_cases hr : x = ROOT
  · rw [hr]
  · have hlt : t.rank x < t.rank ROOT := by
      have := h.shape.rank_add_one_lt h.lt hr
      have := h.shape.rank_root
      omega
    obtain ho | ⟨ho, -⟩ := ho
    · have hle := ho x h.lt ROOT h.shape.root_lt hlt
      rw [if_pos rfl, if_neg (Ne.symm hr)] at hle
      omega
    · exact ho x h.lt ROOT h.shape.root_lt hlt

theorem parent_eq_none_iff : (t.node x).parent = none ↔ x = ROOT := by
  constructor
  · intro hp
    by_contra hr
    obtain ⟨p, hp'⟩ := h.shape.exists_parent h.lt hr
    simp [hp] at hp'
  · rintro rfl
    exact h.shape.root_parent

/-- One visit (43_tree_update.md R161): it counts `x`, and leaves the tree ready for the visit of its parent, or well
formed when `x` is the root. -/
theorem visit_spec (ho : t.InOrder x) (hroot : (t.node ROOT).weight + 1 < 2 ^ P.weightW) :
    t.rank x ≤ (CodeTree.visit P t x).rank x ∧
    (∀ i < t.count, ((CodeTree.visit P t x).node i).weight = (t.node i).weight + if i = x then 1 else 0) ∧
    ((x = ROOT ∧ ((CodeTree.visit P t x).node x).parent = none ∧ (CodeTree.visit P t x).WF ∧
        (CodeTree.visit P t x).EscapeParentThird) ∨
      ∃ p, x ≠ ROOT ∧ ((CodeTree.visit P t x).node x).parent = some p ∧ (CodeTree.visit P t x).Pending p ∧
        (CodeTree.visit P t x).InOrder p) := by
  obtain ⟨h', ho', hrank, hweight⟩ := h.promote_spec ho
  have hfits : ((t.promote x).node x).weight + 1 < 2 ^ P.weightW := by
    have := h'.weight_le_root ho'
    rw [hweight ROOT h.shape.root_lt] at this
    omega
  refine ⟨hrank, fun i hi => ?_, ?_⟩
  · rw [CodeTree.visit, CodeTree.weight_increment h'.lt hfits, hweight i hi]
  · rw [CodeTree.visit, CodeTree.parent_increment]
    cases hp : ((t.promote x).node x).parent with
    | none =>
      have hr := h'.parent_eq_none_iff.1 hp
      have ho'' : (t.promote x).AscendingWith x := ho'.resolve_right fun ⟨_, _, p, hpar, _⟩ => by simp [hp] at hpar
      exact .inl ⟨hr, rfl, h'.wf_increment hfits hp ho'', fun _ => by simpa using h'.third⟩
    | some p =>
      refine .inr ⟨p, h'.shape.ne_root_of_parent hp, rfl, h'.pending_increment hfits hp, ?_⟩
      obtain ho'' | ⟨hasc, hx1, q, hq, hq2, htop⟩ := ho'
      · exact .inl (h'.ascending_increment hfits ho'')
      · obtain rfl : q = p := by simpa [hp] using hq.symm
        exact .inr ⟨hq2, h'.ascendingWith_increment hfits hasc hx1 (h'.shape.parent_lt h'.lt hp) hq2 htop⟩

/-! ## The pass -/

/-- A pass from `x` to the root keeps the tree well formed, counts one occurrence at the root and at `x`, and none at any
other leaf. -/
theorem updateFrom_spec {f : Nat} (ho : t.InOrder x) (hroot : (t.node ROOT).weight + 1 < 2 ^ P.weightW)
    (hf : t.count ≤ f + t.rank x) :
    (CodeTree.updateFrom P f t (some x)).WF ∧ (CodeTree.updateFrom P f t (some x)).EscapeParentThird ∧
    ((CodeTree.updateFrom P f t (some x)).node ROOT).weight = (t.node ROOT).weight + 1 ∧
    ∀ y < t.count, t.isLeaf y = true →
      ((CodeTree.updateFrom P f t (some x)).node y).weight = (t.node y).weight + if y = x then 1 else 0 := by
  induction f generalizing t x with
  | zero =>
    have := h.shape.rank_lt h.lt
    omega
  | succ f ih =>
    obtain ⟨hrank, hweight, hcase⟩ := h.visit_spec ho hroot
    rw [CodeTree.updateFrom]
    obtain ⟨rfl, hp, hwf, hthird⟩ | ⟨p, hr, hp, hpend, hord⟩ := hcase
    · have hdone : CodeTree.updateFrom P f (CodeTree.visit P t ROOT) none = CodeTree.visit P t ROOT := by cases f <;> rfl
      rw [hp, hdone]
      exact ⟨hwf, hthird, by rw [hweight ROOT h.lt, if_pos rfl], fun y hy _ => hweight y hy⟩
    · have hx : x < (CodeTree.visit P t x).count := by simpa using h.lt
      have hxp := hpend.shape.rank_lt_parent hx hp
      have hroot' : ((CodeTree.visit P t x).node ROOT).weight = (t.node ROOT).weight := by
        rw [hweight ROOT h.shape.root_lt, if_neg (Ne.symm hr), Nat.add_zero]
      obtain ⟨hwf, hthird, hrootw, hleaf⟩ := ih hpend hord (hroot'.symm ▸ hroot) (by rw [CodeTree.count_visit]; omega)
      rw [hp]
      refine ⟨hwf, hthird, hrootw.trans (by rw [hroot']), fun y hy hyl => ?_⟩
      have hyl' : (CodeTree.visit P t x).isLeaf y = true := by rwa [CodeTree.isLeaf, (t.label_visit P x y).1]
      have hyp : y ≠ p := by
        rintro rfl
        simp [CodeTree.isLeaf, hpend.shape.internal_of_parent hx hp] at hyl'
      rw [hleaf y (by simpa using hy) hyl', hweight y hy, if_neg hyp, Nat.add_zero]

end CodeTree.Pending
end Sys2Proof.Machine
end

section
/-! Growth keeps the shape, and leaves the pass at the new leaf to be made. -/
namespace Sys2Proof.Machine

/-! ## Growth from three nodes on: Case B -/

theorem CodeTree.node_allocate (t : CodeTree) (nds : List Node) (i : Nat) :
    (t.allocate nds).node i = if i < t.count then t.node i else nds.getD (i - t.count) (Config.freeEntry i) := by
  simp only [CodeTree.node, CodeTree.allocate, CodeTree.count, List.getD_eq_getElem?_getD, List.getElem?_append]
  split <;> rfl

theorem CodeTree.node_of_free (t : CodeTree) {i : Nat} (hi : t.count ≤ i) : t.node i = Config.freeEntry i := by
  rw [CodeTree.node, List.getD_eq_default _ _ hi]

theorem CodeTree.node_allocate_two (t : CodeTree) (a b : Node) (i : Nat) :
    (t.allocate [a, b]).node i = if i = t.count + 1 then b else if i = t.count then a else t.node i := by
  rw [CodeTree.node_allocate]
  by_cases hi : i < t.count
  · rw [if_pos hi, if_neg (by omega), if_neg (by omega)]
  · obtain ⟨d, rfl⟩ := Nat.exists_eq_add_of_le (Nat.le_of_not_lt hi)
    rw [if_neg hi, Nat.add_sub_cancel_left, t.node_of_free (Nat.le_add_right _ _)]
    match d with
    | 0 => simp
    | 1 => simp
    | d + 2 => simp

@[simp] theorem CodeTree.count_allocate (t : CodeTree) (nds : List Node) :
    (t.allocate nds).count = t.count + nds.length := by simp [CodeTree.allocate, CodeTree.count]

/-! ### The new leaf -/

section NewLeaf
variable (key : Key) (p : Nat)

@[simp] theorem newLeaf_parent : (newLeaf key p).parent = some p := by unfold newLeaf; split <;> rfl

@[simp] theorem newLeaf_low : (newLeaf key p).low = none := by unfold newLeaf; split <;> rfl

@[simp] theorem newLeaf_high : (newLeaf key p).high = none := by unfold newLeaf; split <;> rfl

@[simp] theorem newLeaf_weight : (newLeaf key p).weight = 0 := by unfold newLeaf; split <;> rfl

theorem newLeaf_kind : (newLeaf key p).kind = if key.kind = .ord then .ordinary else .endMarker := by
  unfold newLeaf; split <;> simp [*]

theorem newLeaf_kind_ne_internal : (newLeaf key p).kind ≠ .internal := by
  rw [newLeaf_kind]; split <;> simp

theorem newLeaf_kind_ne_escape : (newLeaf key p).kind ≠ .escape := by
  rw [newLeaf_kind]; split <;> simp

variable {key p}

/-- An ordinary entry with the symbol of the new leaf carries its key. -/
theorem carries_of_sym_newLeaf {nd : Node} (hk : nd.kind = .ordinary) (hl : (newLeaf key p).kind = .ordinary)
    (hsym : nd.sym = (newLeaf key p).sym) : carries key nd = true := by
  unfold newLeaf at hl hsym
  cases hkey : key.kind <;> simp_all [carries]

theorem carries_of_endMarker_newLeaf {nd : Node} (hk : nd.kind = .endMarker) (hl : (newLeaf key p).kind = .endMarker) :
    carries key nd = true := by
  unfold newLeaf at hl
  cases hkey : key.kind <;> simp_all [carries]

end NewLeaf

section CaseB
variable {t : CodeTree} (h : t.Shape) {p : Nat} (hp : (t.node ESC).parent = some p) (key : Key)
include h hp

/-- The escape is the low child of its parent (42_tree_growth.md R148). -/
theorem CodeTree.Shape.low_of_escape_parent : (t.node p).low = some ESC := by
  obtain ⟨q, -, hq, -, hlow, -⟩ := h.pair (r := 0) (by have := h.three; omega)
  rw [Nat.zero_div, Nat.mul_zero, h.at_zero] at hq hlow
  obtain rfl : q = p := by simpa [hq] using hp
  exact hlow

omit h in
theorem CodeTree.escParent_eq : t.escParent = p := by simp [CodeTree.escParent, hp]

theorem CodeTree.Shape.hasEmptySlot_eq_false : t.hasEmptySlot = false := by
  obtain ⟨hplt, -⟩ := h.parent_spec h.esc_lt hp
  have hhigh : (t.node p).high ≠ none := fun e => by
    have := (h.low_eq_none_iff hplt).2 e
    simp [h.low_of_escape_parent hp] at this
  rw [CodeTree.hasEmptySlot, CodeTree.escParent_eq hp, beq_eq_false_iff_ne]
  exact hhigh

theorem CodeTree.Shape.add_eq : t.add key = t.addBelowParent key := by
  simp [CodeTree.add, h.hasEmptySlot_eq_false hp]

theorem CodeTree.Shape.need_eq : t.need = 2 := by simp [CodeTree.need, h.hasEmptySlot_eq_false hp]

theorem CodeTree.Shape.order_add : (t.add key).order = [ESC, t.count + 1, t.count] ++ t.order.drop 1 := by
  rw [h.add_eq hp]; rfl

theorem CodeTree.Shape.count_add : (t.add key).count = t.count + 2 := by
  rw [CodeTree.count_add, h.need_eq hp]

/-- Every entry after growth (42_tree_growth.md R142). -/
theorem CodeTree.Shape.node_add (i : Nat) : (t.add key).node i =
    if i = t.count + 1 then newLeaf key t.count
    else if i = t.count then
      { kind := .internal, sym := 0#64, weight := (t.node ESC).weight, low := some ESC, high := some (t.count + 1),
        parent := some p }
    else { t.node i with
      low := if i = p then some t.count else (t.node i).low
      parent := if i = ESC then some t.count else (t.node i).parent } := by
  obtain ⟨hplt, -⟩ := h.parent_spec h.esc_lt hp
  have hpe : p ≠ ESC := fun e => h.ne_esc_of_internal (h.internal_of_parent h.esc_lt hp) e
  have hesc := h.esc_lt
  have hlow := h.low_of_escape_parent hp
  rw [h.add_eq hp]
  change (((t.allocate _).modifyNode t.escParent _).setParent ESC _).node i = _
  rw [CodeTree.node_setParent (by rw [CodeTree.count_modifyNode, CodeTree.count_allocate]; omega),
    CodeTree.node_modifyNode, CodeTree.escParent_eq hp, CodeTree.node_allocate_two, CodeTree.node_allocate_two, CodeTree.count_allocate,
    if_neg (show p ≠ t.count + 1 by omega), if_neg hplt.ne, hlow]
  by_cases hip : i = p
  · subst hip
    simp [hpe, hplt.ne, hplt.trans (Nat.lt_add_of_pos_right Nat.two_pos), show i ≠ t.count + 1 by omega]
  · by_cases hie : i = ESC
    · subst hie
      simp [hip, hesc.ne, show t.count ≠ 0 by omega]
    · simp [hip, hie]

theorem CodeTree.Shape.node_add_leaf : (t.add key).node (t.count + 1) = newLeaf key t.count := by
  rw [h.node_add hp, if_pos rfl]

theorem CodeTree.Shape.node_add_mid : (t.add key).node t.count =
    { kind := .internal, sym := 0#64, weight := (t.node ESC).weight, low := some ESC, high := some (t.count + 1),
      parent := some p } := by
  rw [h.node_add hp, if_neg (by omega), if_pos rfl]

/-- An entry that was there before growth. -/
theorem CodeTree.Shape.node_add_old {i : Nat} (hi : i < t.count) : (t.add key).node i =
    { t.node i with
      low := if i = p then some t.count else (t.node i).low
      parent := if i = ESC then some t.count else (t.node i).parent } := by
  rw [h.node_add hp, if_neg (by omega), if_neg hi.ne]

omit hp in
theorem CodeTree.Shape.order_eq_cons : t.order = ESC :: t.order.drop 1 := by
  have hlen : 0 < t.order.length := by rw [h.lists.1]; exact Nat.zero_lt_of_lt h.esc_lt
  have hfirst := h.at_zero
  rw [t.at_eq_getElem hlen] at hfirst
  rw [← hfirst, List.getElem_cons_drop, List.drop_zero]

theorem CodeTree.Shape.lists_add : (t.add key).OrderLists := by
  obtain ⟨hlen, hnodup, hlt⟩ := h.lists
  have hcons := h.order_eq_cons
  have hdrop : ∀ i ∈ t.order.drop 1, i < t.count := fun i hi => hlt i (List.mem_of_mem_drop hi)
  have hesc := h.esc_lt
  rw [hcons, List.nodup_cons] at hnodup
  rw [CodeTree.OrderLists, h.count_add hp, h.order_add hp]
  refine ⟨by simp [hlen]; omega, ?_, ?_⟩
  · have hl : t.count + 1 ∉ t.order.drop 1 := fun hm => by have := hdrop _ hm; omega
    have hm : t.count ∉ t.order.drop 1 := fun hm => (hdrop _ hm).false
    simp only [List.cons_append, List.nil_append, List.nodup_cons, List.mem_cons, not_or]
    exact ⟨⟨by omega, by omega, hnodup.1⟩, ⟨by omega, hl⟩, hm, hnodup.2⟩
  · intro i hi
    simp only [List.cons_append, List.nil_append, List.mem_cons] at hi
    obtain rfl | rfl | rfl | hi := hi
    · omega
    · omega
    · omega
    · have := hdrop i hi
      omega

theorem CodeTree.Shape.at_add_zero : (t.add key).at 0 = ESC := by rw [CodeTree.at, h.order_add hp]; rfl

theorem CodeTree.Shape.at_add_one : (t.add key).at 1 = t.count + 1 := by rw [CodeTree.at, h.order_add hp]; rfl

theorem CodeTree.Shape.at_add_two : (t.add key).at 2 = t.count := by rw [CodeTree.at, h.order_add hp]; rfl

/-- Growth raises every old node but the escape by two ranks (42_tree_growth.md R144). -/
theorem CodeTree.Shape.at_add_old {r : Nat} (hpos : 1 ≤ r) (hr : r < t.count) : (t.add key).at (r + 2) = t.at r := by
  obtain ⟨d, rfl⟩ := Nat.exists_eq_add_of_le' hpos
  have hlen := h.lists.1
  rw [CodeTree.at_eq_getElem _ (by rw [(h.lists_add hp key).1, h.count_add hp]; omega), t.at_eq_getElem (by omega)]
  simp [h.order_add hp]

theorem CodeTree.Shape.rank_add_esc : (t.add key).rank ESC = 0 := by
  rw [← h.at_add_zero hp key, CodeTree.rank_at (h.lists_add hp key) (by rw [h.count_add hp]; omega)]

theorem CodeTree.Shape.rank_add_leaf : (t.add key).rank (t.count + 1) = 1 := by
  rw [← h.at_add_one hp key, CodeTree.rank_at (h.lists_add hp key) (by rw [h.count_add hp]; omega)]

theorem CodeTree.Shape.rank_add_mid : (t.add key).rank t.count = 2 := by
  have h3 := h.three
  have hrank := CodeTree.rank_at (h.lists_add hp key) (r := 2) (by rw [h.count_add hp]; omega)
  rwa [h.at_add_two hp key] at hrank

theorem CodeTree.Shape.rank_add_old {i : Nat} (hi : i < t.count) (he : i ≠ ESC) : (t.add key).rank i = t.rank i + 2 := by
  have hpos : 1 ≤ t.rank i := Nat.one_le_iff_ne_zero.2 fun e => he (h.eq_esc_of_rank hi e)
  have hlt := h.rank_lt hi
  have hat := h.at_add_old hp key hpos hlt
  rw [h.at_rank hi] at hat
  rw [← CodeTree.rank_at (h.lists_add hp key) (r := t.rank i + 2) (by rw [h.count_add hp]; omega), hat]

/-- The allocated indices after growth: the new leaf, the new internal node, and the old ones. -/
theorem CodeTree.Shape.lt_count_add_iff {i : Nat} :
    i < (t.add key).count ↔ i = t.count + 1 ∨ i = t.count ∨ i < t.count := by
  rw [h.count_add hp]; omega

theorem CodeTree.Shape.parents_add : (t.add key).ParentsOk := by
  have hesc := h.esc_lt
  have hlow := h.low_of_escape_parent hp
  obtain ⟨hplt, -⟩ := h.parent_spec hesc hp
  refine ⟨?_, fun i hi hr => ?_⟩
  · rw [h.node_add_old hp key h.root_lt]
    exact h.root_parent
  · simp only [h.lt_count_add_iff hp] at hi ⊢
    obtain rfl | rfl | hi := hi
    · refine ⟨t.count, by omega, ?_, ?_⟩
      · rw [h.node_add_leaf hp, newLeaf_parent]
      · rw [h.node_add_mid hp]
        exact ⟨.inr rfl, fun ⟨e, _⟩ => by have := Option.some.inj e; omega⟩
    · refine ⟨p, by omega, by rw [h.node_add_mid hp], ?_⟩
      have hhigh : (t.node p).high ≠ some t.count := fun e => by
        have := (h.parent_of_child hplt (.inr e)).1
        omega
      rw [h.node_add_old hp key hplt]
      simp [hhigh]
    · by_cases hie : i = ESC
      · subst hie
        refine ⟨t.count, by omega, by rw [h.node_add_old hp key hesc]; rfl, ?_⟩
        rw [h.node_add_mid hp]
        exact ⟨.inl rfl, fun ⟨_, e⟩ => by have := Option.some.inj e; omega⟩
      · obtain ⟨q, hq, hpar, hslot⟩ := h.parents.2 i hi hr
        refine ⟨q, by omega, by rw [h.node_add_old hp key hi]; simpa [hie] using hpar, ?_⟩
        rw [h.node_add_old hp key hq]
        by_cases hqp : q = p
        · subst hqp
          have hhigh : (t.node q).high = some i := hslot.1.resolve_left (by simpa [hlow] using Ne.symm hie)
          simp [hhigh, hi.ne']
        · simpa [hqp] using hslot

theorem CodeTree.Shape.children_add : (t.add key).ChildrenOk := by
  have hesc := h.esc_lt
  obtain ⟨hplt, -⟩ := h.parent_spec hesc hp
  have hhigh : ∀ i < t.count, (t.node i).high ≠ some ESC := fun i hi e => by
    obtain ⟨-, hpar⟩ := h.parent_of_child hi (.inr e)
    obtain rfl : p = i := by simpa [hp] using hpar
    exact (h.parent_spec hesc hp).2.2.2 ⟨h.low_of_escape_parent hp, e⟩
  intro i hi
  simp only [h.lt_count_add_iff hp] at hi ⊢
  obtain rfl | rfl | hi := hi
  · rw [h.node_add_leaf hp, newLeaf_low, newLeaf_high]
    exact ⟨.inl rfl, .inl rfl⟩
  · rw [h.node_add_mid hp]
    refine ⟨.inr ⟨ESC, by omega, rfl, by rw [h.node_add_old hp key hesc]; rfl⟩, .inr ⟨t.count + 1, by omega, rfl, ?_⟩⟩
    rw [h.node_add_leaf hp, newLeaf_parent]
  · have hchild : ∀ c < t.count, c ≠ ESC → (t.node c).parent = some i → ((t.add key).node c).parent = some i :=
      fun c hc hce hpar => by rw [h.node_add_old hp key hc]; simpa [hce] using hpar
    obtain ⟨hl, hh⟩ := h.children i hi
    rw [h.node_add_old hp key hi]
    refine ⟨?_, ?_⟩
    · by_cases hip : i = p
      · exact .inr ⟨t.count, by omega, by simp [hip], by rw [h.node_add_mid hp, hip]⟩
      · obtain hn | ⟨c, hc, e, hpar⟩ := hl
        · exact .inl (by simpa [hip] using hn)
        · have hce : c ≠ ESC := by
            rintro rfl
            exact hip (by simpa [hp, eq_comm] using hpar)
          exact .inr ⟨c, by omega, by simpa [hip] using e, hchild c hc hce hpar⟩
    · obtain hn | ⟨c, hc, e, hpar⟩ := hh
      · exact .inl hn
      · exact .inr ⟨c, by omega, e, hchild c hc (by rintro rfl; exact hhigh i hi e) hpar⟩

theorem CodeTree.Shape.full_add : (t.add key).Full := by
  have h3 := h.three
  have hlow := h.low_of_escape_parent hp
  have hnil : ∀ i < t.count, ((t.add key).node i).low = none ↔ (t.node i).low = none := fun i hi => by
    rw [h.node_add_old hp key hi]
    by_cases hip : i = p
    · simp [hip, hlow]
    · simp [hip]
  refine ⟨fun _ i hi => ?_, fun h2 => by rw [h.count_add hp] at h2; omega, fun i hi => ?_⟩
  all_goals
    simp only [h.lt_count_add_iff hp] at hi
    obtain rfl | rfl | hi := hi
  · rw [h.node_add_leaf hp]; simp
  · rw [h.node_add_mid hp]; simp
  · rw [hnil i hi, h.node_add_old hp key hi]
    exact h.low_eq_none_iff hi
  · rw [h.node_add_leaf hp]; simp [newLeaf_kind_ne_internal]
  · rw [h.node_add_mid hp]; simp
  · rw [hnil i hi, h.node_add_old hp key hi]
    exact h.internal_iff hi

theorem CodeTree.Shape.paired_add : (t.add key).SiblingsPaired := by
  have h3 := h.three
  have hesc := h.esc_lt
  have hodd := h.count_odd
  have hlow := h.low_of_escape_parent hp
  obtain ⟨hplt, -⟩ := h.parent_spec hesc hp
  have hold : ∀ r < t.count, 1 ≤ r → ((t.add key).node (t.at r)).parent = (t.node (t.at r)).parent := fun r hr hpos => by
    have hne : t.at r ≠ ESC := fun e => by
      have hrank := h.rank_at hr
      rw [e, h.rank_esc] at hrank
      omega
    rw [h.node_add_old hp key (h.at_lt hr)]
    simp [hne]
  intro _
  rw [h.count_add hp]
  refine ⟨by omega, fun j hj => ?_, ?_⟩
  · match j with
    | 0 =>
      refine ⟨t.count, by omega, ?_⟩
      rw [show 2 * 0 + 1 = 1 from rfl, show 2 * 0 = 0 from rfl, h.at_add_zero hp, h.at_add_one hp, h.node_add_mid hp,
        h.node_add_leaf hp, h.node_add_old hp key hesc]
      exact ⟨rfl, newLeaf_parent key _, rfl, rfl⟩
    | 1 =>
      obtain ⟨q, hq, hlo, hhi, hl, hh, -⟩ := h.pair (r := 0) (by omega)
      rw [Nat.zero_div, Nat.mul_zero, h.at_zero] at hlo hl
      obtain rfl : q = p := by simpa [hlo] using hp
      rw [show 2 * 1 + 1 = 1 + 2 from rfl, show 2 * 1 = 2 from rfl, h.at_add_two hp,
        h.at_add_old hp key le_rfl (by omega)]
      refine ⟨q, by omega, by rw [h.node_add_mid hp], by rw [hold 1 (by omega) le_rfl]; exact hhi, ?_, ?_⟩
      · rw [h.node_add_old hp key hq]; simp
      · rw [h.node_add_old hp key hq]; exact hh
    | j + 2 =>
      obtain ⟨q, hq, hlo, hhi, hl, hh⟩ := (h.paired h3).2.1 (j + 1) (by omega)
      have hqp : q ≠ p := by
        rintro rfl
        have hrank := h.rank_at (r := 2 * (j + 1)) (by omega)
        rw [hlow] at hl
        rw [← Option.some.inj hl, h.rank_esc] at hrank
        omega
      rw [show 2 * (j + 2) + 1 = 2 * (j + 1) + 1 + 2 by omega, show 2 * (j + 2) = 2 * (j + 1) + 2 by omega,
        h.at_add_old hp key (by omega) (by omega), h.at_add_old hp key (by omega) (by omega)]
      refine ⟨q, by omega, by rw [hold _ (by omega) (by omega), hlo], by rw [hold _ (by omega) (by omega), hhi], ?_, ?_⟩
      · rw [h.node_add_old hp key hq]; simpa [hqp] using hl
      · rw [h.node_add_old hp key hq]; exact hh
  · rw [show t.count + 2 - 1 = t.count - 1 + 2 by omega, h.at_add_old hp key (by omega) (by omega)]
    exact h.at_last

theorem CodeTree.Shape.ends_add : (t.add key).RankEnds := by
  have h3 := h.three
  have hesc := h.esc_lt
  refine ⟨h.at_add_zero hp key, (h.paired_add hp key (by rw [h.count_add hp]; omega)).2.2, fun i hi hr => ?_⟩
  obtain ⟨q, hq, hpar, -⟩ := (h.parents_add hp key).2 i hi hr
  refine ⟨q, hq, hpar, ?_⟩
  have hpos : ∀ j < t.count, j ≠ ESC → 2 < (t.add key).rank j := fun j hj hje => by
    have : t.rank j ≠ 0 := fun e => hje (h.eq_esc_of_rank hj e)
    rw [h.rank_add_old hp key hj hje]
    omega
  rw [h.lt_count_add_iff hp] at hi
  obtain rfl | rfl | hi := hi
  · obtain rfl : q = t.count := by simpa [h.node_add_leaf hp, eq_comm] using hpar
    rw [h.rank_add_leaf hp, h.rank_add_mid hp]
    omega
  · obtain rfl : q = p := by simpa [h.node_add_mid hp, eq_comm] using hpar
    rw [h.rank_add_mid hp]
    exact hpos q (h.parent_lt hesc hp) (h.ne_esc_of_internal (h.internal_of_parent hesc hp))
  · rw [h.node_add_old hp key hi] at hpar
    by_cases hie : i = ESC
    · obtain rfl : q = t.count := by simpa [hie, eq_comm] using hpar
      rw [hie, h.rank_add_esc hp, h.rank_add_mid hp]
      omega
    · have hpar' : (t.node i).parent = some q := by simpa [hie] using hpar
      obtain ⟨hqlt, hrank, -⟩ := h.parent_spec hi hpar'
      rw [h.rank_add_old hp key hi hie,
        h.rank_add_old hp key hqlt (h.ne_esc_of_internal (h.internal_of_parent hi hpar'))]
      omega

/-- Growth keeps the kind and the symbol of the entries that were there. -/
theorem CodeTree.Shape.label_add {i : Nat} (hi : i < t.count) :
    ((t.add key).node i).kind = (t.node i).kind ∧ ((t.add key).node i).sym = (t.node i).sym := by
  rw [h.node_add_old hp key hi]
  exact ⟨rfl, rfl⟩

theorem CodeTree.Shape.escape_add : (t.add key).OneEscape := by
  have hesc := h.esc_lt
  refine ⟨by rw [h.count_add hp]; omega, fun i hi => ?_⟩
  rw [h.lt_count_add_iff hp] at hi
  obtain rfl | rfl | hi := hi
  · rw [h.node_add_leaf hp]
    exact ⟨fun hk => absurd hk (newLeaf_kind_ne_escape _ _), fun e => by omega⟩
  · rw [h.node_add_mid hp]
    exact ⟨nofun, fun e => by omega⟩
  · rw [(h.label_add hp key hi).1]
    exact h.escape_iff hi

theorem CodeTree.Shape.keys_add (hnew : t.lookup key = none) : (t.add key).KeysUnique := by
  rw [CodeTree.lookup_eq_none] at hnew
  have hcases : ∀ i < (t.add key).count, ((t.add key).node i).kind ≠ .internal → i = t.count + 1 ∨ i < t.count :=
    fun i hi hk => by
      obtain rfl | rfl | hi := (h.lt_count_add_iff hp key).1 hi
      · exact .inl rfl
      · rw [h.node_add_mid hp] at hk
        exact absurd rfl hk
      · exact .inr hi
  have hleaf := h.node_add_leaf hp key
  refine ⟨fun i hi j hj ⟨hki, hkj, hsym⟩ => ?_, fun i hi j hj ⟨hki, hkj⟩ => ?_⟩
  · obtain rfl | hi := hcases i hi (by simp [hki])
    · obtain rfl | hj := hcases j hj (by simp [hkj])
      · rfl
      · rw [hleaf] at hki hsym
        rw [(h.label_add hp key hj).1] at hkj
        rw [(h.label_add hp key hj).2] at hsym
        simpa [hnew j hj] using carries_of_sym_newLeaf hkj hki hsym.symm
    · rw [(h.label_add hp key hi).1] at hki
      rw [(h.label_add hp key hi).2] at hsym
      obtain rfl | hj := hcases j hj (by simp [hkj])
      · rw [hleaf] at hkj hsym
        simpa [hnew i hi] using carries_of_sym_newLeaf hki hkj hsym
      · rw [(h.label_add hp key hj).1] at hkj
        rw [(h.label_add hp key hj).2] at hsym
        exact h.keys.1 i hi j hj ⟨hki, hkj, hsym⟩
  · obtain rfl | hi := hcases i hi (by simp [hki])
    · obtain rfl | hj := hcases j hj (by simp [hkj])
      · rfl
      · rw [hleaf] at hki
        rw [(h.label_add hp key hj).1] at hkj
        simpa [hnew j hj] using carries_of_endMarker_newLeaf hkj hki
    · rw [(h.label_add hp key hi).1] at hki
      obtain rfl | hj := hcases j hj (by simp [hkj])
      · rw [hleaf] at hkj
        simpa [hnew i hi] using carries_of_endMarker_newLeaf hki hkj
      · rw [(h.label_add hp key hj).1] at hkj
        exact h.keys.2 i hi j hj ⟨hki, hkj⟩

theorem CodeTree.Shape.add (hnew : t.lookup key = none) : (t.add key).Shape where
  three := by have := h.three; rw [h.count_add hp]; omega
  lists := h.lists_add hp key
  parents := h.parents_add hp key
  children := h.children_add hp key
  full := h.full_add hp key
  escape := h.escape_add hp key
  paired := h.paired_add hp key
  ends := h.ends_add hp key
  keys := h.keys_add hp key hnew

theorem CodeTree.Shape.weight_add_old {i : Nat} (hi : i < t.count) :
    ((t.add key).node i).weight = (t.node i).weight := by
  rw [h.node_add_old hp key hi]

/-- The new internal node weighs what the escape weighs, so the slot it takes keeps its weight. -/
theorem CodeTree.Shape.slotWeights_add {i : Nat} (hi : i < t.count) :
    (t.add key).slotWeight ((t.add key).node i).low = t.slotWeight (t.node i).low ∧
    (t.add key).slotWeight ((t.add key).node i).high = t.slotWeight (t.node i).high := by
  have hslot : ∀ o : Option Nat, (∀ c, o = some c → c < t.count) → (t.add key).slotWeight o = t.slotWeight o := by
    intro o ho
    cases o with
    | none => rfl
    | some c => exact h.weight_add_old hp key (ho c rfl)
  have hchild := fun c => h.parent_of_child (c := c) hi
  rw [h.node_add_old hp key hi]
  refine ⟨?_, hslot _ fun c hc => (hchild c (.inr hc)).1⟩
  by_cases hip : i = p
  · subst hip
    simp [CodeTree.slotWeight, h.node_add_mid hp, h.low_of_escape_parent hp]
  · simpa [hip] using hslot _ fun c hc => (hchild c (.inl hc)).1

theorem CodeTree.Shape.pending_add (hnew : t.lookup key = none) (hsums : t.SumsOk) (hleaf : t.LeafWeights) :
    (t.add key).Pending (t.count + 1) := by
  have hesc := h.esc_lt
  refine ⟨h.add hp key hnew, ?_, (h.lt_count_add_iff hp key).2 (.inl rfl), by omega, ?_, fun i hi hk => ?_,
    fun i hi hk => ?_⟩
  · rw [h.node_add_old hp key hesc, h.at_add_two hp]
    rfl
  · rw [h.weight_add_old hp key hesc, hleaf.1]
  · obtain rfl | rfl | hi := (h.lt_count_add_iff hp key).1 hi
    · exact .inr ⟨rfl, h.rank_add_leaf hp key⟩
    · rw [h.node_add_mid hp] at hk
      simp at hk
    · rw [(h.label_add hp key hi).1] at hk
      rw [h.weight_add_old hp key hi]
      exact .inl (hleaf.2 i hi hk)
  · obtain rfl | rfl | hi := (h.lt_count_add_iff hp key).1 hi
    · rw [h.node_add_leaf hp] at hk
      exact absurd hk (newLeaf_kind_ne_internal _ _)
    · rw [h.node_add_mid hp]
      simp [CodeTree.slotWeight, h.node_add_leaf hp, h.weight_add_old hp key hesc]
    · rw [(h.label_add hp key hi).1] at hk
      rw [h.weight_add_old hp key hi, (h.slotWeights_add hp key hi).1, (h.slotWeights_add hp key hi).2, if_neg (by omega)]
      exact hsums i hi hk

theorem CodeTree.Shape.ascending_add (ho : t.Ascending) (hw : (t.node ESC).weight = 0) : (t.add key).Ascending := by
  intro i hi j hj hij
  have hesc := h.esc_lt
  have hzero : i = t.count + 1 ∨ i = t.count ∨ i = ESC → ((t.add key).node i).weight = 0 := by
    rintro (rfl | rfl | rfl)
    · rw [h.node_add_leaf hp, newLeaf_weight]
    · rw [h.node_add_mid hp]; exact hw
    · rw [h.weight_add_old hp key hesc, hw]
  by_cases hlow : i = t.count + 1 ∨ i = t.count ∨ i = ESC
  · rw [hzero hlow]
    exact Nat.zero_le _
  · simp only [not_or] at hlow
    obtain ⟨hl, hm, hie⟩ := hlow
    have hi' : i < t.count := (((h.lt_count_add_iff hp key).1 hi).resolve_left hl).resolve_left hm
    rw [h.rank_add_old hp key hi' hie] at hij
    obtain rfl | rfl | hj := (h.lt_count_add_iff hp key).1 hj
    · rw [h.rank_add_leaf hp] at hij; omega
    · rw [h.rank_add_mid hp] at hij; omega
    · have hje : j ≠ ESC := fun e => by rw [e, h.rank_add_esc hp] at hij; omega
      rw [h.rank_add_old hp key hj hje] at hij
      rw [h.weight_add_old hp key hi', h.weight_add_old hp key hj]
      exact ho i hi' j hj (by omega)

end CaseB

/-! ## The first growth: Case A -/

/-- The tree after the first growth, its two old symbol fields being `a` and `b` (42_tree_growth.md R141). -/
def firstGrown (a b : SymVal) (key : Key) : CodeTree :=
  { nodes := [ { kind := .internal, sym := a, weight := 0, low := some ESC, high := some 2, parent := none },
               { kind := .escape, sym := b, weight := 0, low := none, high := none, parent := some ROOT },
               newLeaf key ROOT ]
    order := [ESC, 2, ROOT] }

theorem add_twoNodes (a b : SymVal) (key : Key) : (twoNodes a b).add key = firstGrown a b key := rfl

/-- The one leaf besides the escape is node 2. -/
theorem leaf_of_firstGrown (a b : SymVal) (key : Key) : ∀ i < (firstGrown a b key).count,
    (((firstGrown a b key).node i).kind = .ordinary ∨ ((firstGrown a b key).node i).kind = .endMarker) → i = 2 := by
  obtain ⟨kind, value⟩ := key
  cases kind <;> exact of_decide_eq_true rfl

/-- Each check but R44 and R46 evaluates whatever the symbols are. -/
theorem shape_firstGrown (a b : SymVal) (key : Key) : (firstGrown a b key).Shape where
  three := le_rfl
  lists := of_decide_eq_true rfl
  parents := by obtain ⟨kind, value⟩ := key; cases kind <;> exact of_decide_eq_true rfl
  children := by obtain ⟨kind, value⟩ := key; cases kind <;> exact of_decide_eq_true rfl
  full := by obtain ⟨kind, value⟩ := key; cases kind <;> exact of_decide_eq_true rfl
  escape := by obtain ⟨kind, value⟩ := key; cases kind <;> exact of_decide_eq_true rfl
  paired := fun _ => by
    have hcount : (firstGrown a b key).count = 3 := rfl
    refine ⟨by rw [hcount], fun j hj => ?_, rfl⟩
    obtain rfl : j = 0 := by rw [hcount] at hj; omega
    exact ⟨ROOT, Nat.zero_lt_succ _, rfl, newLeaf_parent key ROOT, rfl, rfl⟩
  ends := by obtain ⟨kind, value⟩ := key; cases kind <;> exact of_decide_eq_true rfl
  keys := by
    have hleaf := leaf_of_firstGrown a b key
    exact ⟨fun i hi j hj ⟨hki, hkj, _⟩ => (hleaf i hi (.inl hki)).trans (hleaf j hj (.inl hkj)).symm,
      fun i hi j hj ⟨hki, hkj⟩ => (hleaf i hi (.inr hki)).trans (hleaf j hj (.inr hkj)).symm⟩

theorem weight_firstGrown (a b : SymVal) (key : Key) :
    ∀ i < (firstGrown a b key).count, ((firstGrown a b key).node i).weight = 0 := by
  obtain ⟨kind, value⟩ := key
  cases kind <;> exact of_decide_eq_true rfl

theorem pending_firstGrown (a b : SymVal) (key : Key) : (firstGrown a b key).Pending 2 where
  shape := shape_firstGrown a b key
  third := rfl
  lt := Nat.lt_succ_self 2
  ne_esc := by decide
  esc_weight := rfl
  leaf_weights i hi hk := .inr ⟨leaf_of_firstGrown a b key i hi hk, rfl⟩
  sums := by
    obtain ⟨kind, value⟩ := key
    cases kind <;> exact of_decide_eq_true rfl

/-! ## Passes from a well-formed tree -/

theorem CodeTree.WF.three_le_count_of_leaf {t : CodeTree} (h : t.WF) {x : Nat} (hx : x < t.count)
    (hk : (t.node x).kind = .ordinary ∨ (t.node x).kind = .endMarker) : 3 ≤ t.count := by
  by_contra h3
  obtain ⟨a, b, rfl⟩ := h.eq_twoNodes (by have := h.two_le_count; omega)
  have hnone : ∀ i < (twoNodes a b).count, ¬(((twoNodes a b).node i).kind = .ordinary ∨
    ((twoNodes a b).node i).kind = .endMarker) := of_decide_eq_true rfl
  exact hnone x hx hk

/-- A leaf of a well-formed tree may be counted. -/
theorem CodeTree.WF.pending {t : CodeTree} (h : t.WF) (h2 : t.EscapeParentThird) {x : Nat} (hx : x < t.count)
    (hk : (t.node x).kind = .ordinary ∨ (t.node x).kind = .endMarker) : t.Pending x ∧ t.Ascending := by
  have h3 := h.three_le_count_of_leaf hx hk
  have hshape := h.shape h3
  obtain ⟨hlists, -, -, -, -, -, hsums, hord, -, -, -, hescw, hleaf⟩ := h
  refine ⟨⟨hshape, h2 h3, hx, ?_, hescw, fun i hi hki => .inl (hleaf i hi hki), fun i hi hki => ?_⟩,
    (CodeTree.weightsOrdered_iff hlists).1 hord⟩
  · rintro rfl
    simp [(hshape.escape_iff (i := ESC) hx).2 rfl] at hk
  · have hix : i ≠ x := by
      rintro rfl
      simp [hki] at hk
    rw [if_neg hix]
    exact hsums i hi hki

/-- The new leaf of a well-formed tree that has just grown may be counted. -/
theorem CodeTree.WF.pending_add {t : CodeTree} (h : t.WF) {key : Key} (hnew : t.lookup key = none) :
    (t.add key).Pending t.addedLeaf ∧ (t.add key).Ascending ∧ ((t.add key).node ROOT).weight = (t.node ROOT).weight := by
  obtain h2 | h3 : t.count = 2 ∨ 3 ≤ t.count := by have := h.two_le_count; omega
  · obtain ⟨a, b, rfl⟩ := h.eq_twoNodes h2
    have hw := weight_firstGrown a b key
    exact ⟨pending_firstGrown a b key, fun i hi j _ _ => by rw [add_twoNodes, hw i hi]; exact Nat.zero_le _, rfl⟩
  · have hs := h.shape h3
    obtain ⟨hlists, -, -, -, -, -, hsums, hord, -, -, -, hleaf⟩ := h
    obtain ⟨p, hp⟩ := hs.exists_parent hs.esc_lt (by decide)
    have hadded : t.addedLeaf = t.count + 1 := by rw [CodeTree.addedLeaf, hs.need_eq hp]; rfl
    rw [hadded]
    have hasc := (CodeTree.weightsOrdered_iff hlists).1 hord
    exact ⟨hs.pending_add hp key hnew hsums hleaf, hs.ascending_add hp key hasc hleaf.1,
      hs.weight_add_old hp key hs.root_lt⟩

/-- What every update pass of a command leaves (43_tree_update.md R172). -/
theorem CodeTree.Pending.update_spec {P : Params} {t : CodeTree} {x : Nat} (h : t.Pending x) (ho : t.Ascending)
    (hroot : (t.node ROOT).weight < maxWeight P) :
    (CodeTree.update P t x).WF ∧ (CodeTree.update P t x).EscapeParentThird ∧
    ((CodeTree.update P t x).node ROOT).weight = (t.node ROOT).weight + 1 ∧
    ∀ y < t.count, t.isLeaf y = true →
      ((CodeTree.update P t x).node y).weight = (t.node y).weight + if y = x then 1 else 0 :=
  h.updateFrom_spec (.inl ho) (by unfold maxWeight at hroot; omega) (Nat.le_add_right _ _)

end Sys2Proof.Machine
end

section
/-! What a step can do to the tree, the engine state and the fault cause; every step keeps `WF` and the invariant. -/
namespace Sys2Proof.Machine

/-! ## Labels after growth -/

/-- After growth an entry is the new leaf, the new internal node, or an old entry with its kind and symbol. -/
theorem CodeTree.WF.label_add {t : CodeTree} (h : t.WF) (key : Key) {i : Nat} (hi : i < (t.add key).count) :
    (∃ p, (t.add key).node i = newLeaf key p) ∨
    (((t.add key).node i).kind = .internal ∧ ((t.add key).node i).sym = 0#64) ∨
    (i < t.count ∧ ((t.add key).node i).kind = (t.node i).kind ∧ ((t.add key).node i).sym = (t.node i).sym) := by
  obtain h2 | h3 : t.count = 2 ∨ 3 ≤ t.count := by have := h.two_le_count; omega
  · obtain ⟨a, b, rfl⟩ := h.eq_twoNodes h2
    have hi' : i < 3 := hi
    obtain rfl | rfl | rfl : i = 0 ∨ i = 1 ∨ i = 2 := by omega
    · exact .inr (.inr ⟨Nat.zero_lt_two, rfl, rfl⟩)
    · exact .inr (.inr ⟨Nat.one_lt_two, rfl, rfl⟩)
    · exact .inl ⟨ROOT, rfl⟩
  · have hs := h.shape h3
    obtain ⟨p, hp⟩ := hs.exists_parent hs.esc_lt (by decide)
    obtain rfl | rfl | hi := (hs.lt_count_add_iff hp key).1 hi
    · exact .inl ⟨_, hs.node_add_leaf hp key⟩
    · rw [hs.node_add_mid hp]
      exact .inr (.inl ⟨rfl, rfl⟩)
    · exact .inr (.inr ⟨hi, hs.label_add hp key hi⟩)

/-! ## The effect of a step -/

/-- What a step from `s` to `t` can do to the tree, `REG.STATE` and `REG.ERR_CAUSE`, with what it has checked. -/
inductive Effect (s t : State) : Prop
  /-- A host command, a rejection, a move of the host's, a hold. -/
  | quiet (hparams : t.params = s.params) (htree : t.tree = s.tree) (hengine : t.engine = s.engine)
      (hcause : t.errCause = s.errCause)
  /-- A fault (60_exceptions.md R217). -/
  | fault (c : FaultCause) (hparams : t.params = s.params) (htree : t.tree = s.tree) (hready : s.engine = .ready)
      (hengine : t.engine = .fault) (hcause : t.errCause = some c)
  /-- INIT or the hardware reset (60_exceptions.md R221). -/
  | restart (hparams : t.params = s.params) (htree : t.tree = .initial) (hengine : t.engine = .ready)
      (hcause : t.errCause = none)
  /-- The END literal (41_decode.md R124). -/
  | ended (hparams : t.params = s.params) (htree : t.tree = s.tree) (hready : s.engine = .ready)
      (hengine : t.engine = .ended) (hcause : t.errCause = s.errCause)
  /-- A known leaf is counted. -/
  | known (leaf : Nat) (hparams : t.params = s.params) (htree : t.tree = CodeTree.update s.params s.tree leaf)
      (hready : s.engine = .ready) (hwf : s.tree.WF) (hmax : s.atMaxWeight = false) (hleaf : leaf < s.tree.count)
      (hkind : (s.tree.node leaf).kind = .ordinary ∨ (s.tree.node leaf).kind = .endMarker)
      (hengine : t.engine = .ready ∨ t.engine = .ended) (hcause : t.errCause = s.errCause)
  /-- A new key is added and counted; the end marker ends the stream. -/
  | grown (key : Key) (hparams : t.params = s.params) (htree : t.tree = grownTree s.params s.tree key)
      (hready : s.engine = .ready) (hwf : s.tree.WF) (hnew : s.tree.lookup key = none) (hroom : s.lacksRoom = false)
      (hmax : s.atMaxWeight = false) (hfits : key.kind = .ord → key.value.toNat < 2 ^ s.params.symW)
      (hengine : (t.engine = .ready ∧ key.kind = .ord) ∨ t.engine = .ended) (hcause : t.errCause = s.errCause)

/-- The effect does not depend on the port, the channels, the history or the script. -/
theorem Effect.of_same {s s' t : State} (h : Effect s' t) (hparams : s'.params = s.params) (htree : s'.tree = s.tree)
    (hengine : s'.engine = s.engine) (hcause : s'.errCause = s.errCause) : Effect s t := by
  obtain ⟨p, e, r, c, l, tr, cmd, sy, bi, li, bo, lo, hi, ho⟩ := s'
  simp only at hparams htree hengine hcause
  subst hparams htree hengine hcause
  cases h with
  | quiet h1 h2 h3 h4 => exact .quiet h1 h2 h3 h4
  | fault c h1 h2 h3 h4 h5 => exact .fault c h1 h2 h3 h4 h5
  | restart h1 h2 h3 h4 => exact .restart h1 h2 h3 h4
  | ended h1 h2 h3 h4 h5 => exact .ended h1 h2 h3 h4 h5
  | known x h1 h2 h3 h4 h5 h6 h7 h8 h9 => exact .known x h1 h2 h3 h4 h5 h6 h7 h8 h9
  | grown k h1 h2 h3 h4 h5 h6 h7 h8 h9 h10 => exact .grown k h1 h2 h3 h4 h5 h6 h7 h8 h9 h10

theorem Effect.raiseFault {s : State} (hready : s.engine = .ready) (c : FaultCause) : Effect s (s.raiseFault c) :=
  .fault c rfl rfl hready rfl rfl

theorem Effect.respond (s : State) (r : Response) : Effect s (s.respond r) := .quiet rfl rfl rfl rfl

theorem Effect.raiseReject (s : State) (c : RejectCode) : Effect s (s.raiseReject c) := .quiet rfl rfl rfl rfl

/-! ### Encode -/

section FinishEncode
variable (s : State) (key : Key) (res : ResultCode) (len : Nat)

@[simp] theorem State.finishEncode_params : (s.finishEncode key res len).params = s.params := by
  unfold State.finishEncode; cases key.kind <;> rfl

@[simp] theorem State.finishEncode_tree : (s.finishEncode key res len).tree = s.tree := by
  unfold State.finishEncode; cases key.kind <;> rfl

@[simp] theorem State.finishEncode_errCause : (s.finishEncode key res len).errCause = s.errCause := by
  unfold State.finishEncode; cases key.kind <;> rfl

theorem State.finishEncode_engine :
    (s.finishEncode key res len).engine = if key.kind = .ord then s.engine else .ended := by
  unfold State.finishEncode; cases key.kind <;> rfl

end FinishEncode

/-- A leaf that carries a key is an ordinary leaf or the end marker. -/
theorem kind_of_carries {key : Key} {nd : Node} (h : carries key nd = true) :
    nd.kind = .ordinary ∨ nd.kind = .endMarker := by
  unfold carries at h
  cases hk : key.kind <;> simp_all

theorem encodeKey_effect (key : Key) (s : State) (hfits : key.kind = .ord → key.value.toNat < 2 ^ s.params.symW) :
    Effect s (encodeKey key s) := by
  obtain ⟨-, h⟩ | ⟨hready, -, h⟩ | ⟨hready, hwf, hcase⟩ := encodeKey_cases key s
  · exact h ▸ .raiseReject s _
  · exact h ▸ .raiseFault hready _
  · obtain ⟨leaf, hl, hcase⟩ | ⟨hnew, hcase⟩ := hcase
    · obtain ⟨-, h⟩ | ⟨hmax, h⟩ := hcase
      · exact h ▸ .raiseFault hready _
      · obtain ⟨hlt, hcar, -⟩ := (s.tree.lookup_eq_some key leaf).1 hl
        rw [h]
        refine .known leaf ?_ ?_ hready hwf hmax hlt (kind_of_carries hcar) ?_ ?_
        · simp [encodeKnown]
        · simp [encodeKnown]
        · rw [encodeKnown, State.finishEncode_engine]
          split
          · exact .inl hready
          · exact .inr rfl
        · simp [encodeKnown]
    · obtain ⟨-, h⟩ | ⟨-, -, h⟩ | ⟨hroom, hmax, h⟩ := hcase
      · exact h ▸ .raiseFault hready _
      · exact h ▸ .raiseFault hready _
      · rw [h]
        refine .grown key ?_ ?_ hready hwf hnew hroom hmax hfits ?_ ?_
        · simp [encodeNew]
        · simp [encodeNew]
        · rw [encodeNew, State.finishEncode_engine]
          split
          · next hk => exact .inl ⟨hready, hk⟩
          · exact .inr rfl
        · simp [encodeNew]

theorem ordKey_fits (p : Params) (v : SymVal) : (ordKey p v).value.toNat < 2 ^ p.symW := by
  simp only [ordKey, symbolOf, BitVec.toNat_setWidth]
  exact (Nat.mod_le _ _).trans_lt (Nat.mod_lt _ (Nat.two_pow_pos _))

/-! ### Decode -/

/-- The walk of a DECODE ends at an allocated leaf. -/
theorem CodeTree.walk_leaf {t : CodeTree} (h : t.ChildrenOk) {x n y m : Nat} {toks : List BitToken} (hx : x < t.count)
    (hw : t.walk x n toks = .leaf y m) : y < t.count ∧ t.isLeaf y = true := by
  induction toks generalizing x n with
  | nil =>
    by_cases hl : t.isLeaf x = true
    · rw [t.walk_of_leaf hl] at hw
      cases hw
      exact ⟨hx, hl⟩
    · simp [CodeTree.walk, hl] at hw
  | cons tok rest ih =>
    by_cases hl : t.isLeaf x = true
    · rw [t.walk_of_leaf hl] at hw
      cases hw
      exact ⟨hx, hl⟩
    · cases tok with
      | eos => simp [CodeTree.walk, hl] at hw
      | bit b =>
        cases hc : t.child x b with
        | none => simp [CodeTree.walk, hl, hc] at hw
        | some c =>
          rw [t.walk_of_bit (by simpa using hl) hc] at hw
          refine ih ?_ hw
          obtain ⟨hlow, hhigh⟩ := h x hx
          cases b
          · obtain ⟨c', hc', e, -⟩ := hlow.resolve_left (by simp [show (t.node x).low = some c from hc])
            obtain rfl : c' = c := by simpa [show (t.node x).low = some c from hc, eq_comm] using e
            exact hc'
          · obtain ⟨c', hc', e, -⟩ := hhigh.resolve_left (by simp [show (t.node x).high = some c from hc])
            obtain rfl : c' = c := by simpa [show (t.node x).high = some c from hc, eq_comm] using e
            exact hc'

theorem decodeEnd_effect (n : Nat) {s : State} (hready : s.engine = .ready) : Effect s (decodeEnd n s) :=
  .ended rfl rfl hready rfl rfl

theorem decodeNew_effect (v : SymVal) (n : Nat) {s : State} (hready : s.engine = .ready) (hwf : s.tree.WF) :
    Effect s (decodeNew (ordKey s.params v) n s) := by
  obtain ⟨-, h⟩ | ⟨hnew, ⟨-, h⟩ | ⟨-, -, h⟩ | ⟨hroom, hmax, h⟩⟩ := decodeNew_cases (ordKey s.params v) n s
  · exact h ▸ .raiseFault hready _
  · exact h ▸ .raiseFault hready _
  · exact h ▸ .raiseFault hready _
  · rw [h]
    exact .grown _ rfl rfl hready hwf hnew hroom hmax (fun _ => ordKey_fits _ _) (.inl ⟨hready, rfl⟩) rfl

theorem decodeLiteral_effect (l : Literal) (n : Nat) {s : State} (hready : s.engine = .ready) (hwf : s.tree.WF) :
    Effect s (decodeLiteral l n s) := by
  unfold decodeLiteral
  cases l.kind with
  | endMark => exact decodeEnd_effect n hready
  | ord => exact decodeNew_effect l.value n hready hwf

theorem decodeKnown_effect {x n : Nat} {s : State} (hready : s.engine = .ready) (hwf : s.tree.WF) (hx : x < s.tree.count)
    (hk : (s.tree.node x).kind = .ordinary ∨ (s.tree.node x).kind = .endMarker) : Effect s (decodeKnown x n s) := by
  unfold decodeKnown
  cases hmax : s.atMaxWeight with
  | true => exact .raiseFault hready _
  | false =>
    rw [if_neg (by simp)]
    dsimp only
    split
    · exact .known x rfl rfl hready hwf hmax hx hk (.inr rfl) rfl
    · exact .known x rfl rfl hready hwf hmax hx hk (.inl hready) rfl

theorem decodeAtLeaf_effect {x n : Nat} {s t : State} (hready : s.engine = .ready) (hwf : s.tree.WF)
    (hx : x < s.tree.count) (hleaf : s.tree.isLeaf x = true) (h : decodeAtLeaf x n s = .done t) : Effect s t := by
  obtain ⟨-, ⟨-, e⟩ | ⟨ls, -, e⟩ | ⟨l, ls, -, e⟩⟩ | ⟨hesc, e⟩ := decodeAtLeaf_cases x n s
  all_goals rw [e] at h; cases h
  · exact .fault _ rfl rfl hready rfl rfl
  · exact (decodeLiteral_effect l n (s := (s.consumeBits n).consumeLit l) hready hwf).of_same rfl rfl rfl rfl
  · have hk : (s.tree.node x).kind = .ordinary ∨ (s.tree.node x).kind = .endMarker := by
      cases hkind : (s.tree.node x).kind <;> simp_all [CodeTree.isLeaf]
    exact (decodeKnown_effect (s := s.consumeBits n) hready hwf hx hk).of_same rfl rfl rfl rfl

theorem decodeFn_effect {s t : State} (h : decodeFn s = .done t) : Effect s t := by
  obtain ⟨-, e⟩ | ⟨hready, -, e⟩ | ⟨hready, hwf, ⟨-, e⟩ | ⟨n, -, e⟩ | ⟨n, -, e⟩ | ⟨x, n, hw, e⟩⟩ := decodeFn_cases s
  · cases e.symm.trans h; exact .raiseReject s _
  · cases e.symm.trans h; exact .raiseFault hready _
  · cases e.symm.trans h
  · cases e.symm.trans h; exact .fault _ rfl rfl hready rfl rfl
  · cases e.symm.trans h; exact .fault _ rfl rfl hready rfl rfl
  · rw [e] at h
    have hroot : ROOT < s.tree.count := Nat.lt_of_lt_of_le Nat.zero_lt_two hwf.two_le_count
    obtain ⟨hx, hleaf⟩ := CodeTree.walk_leaf hwf.childrenOk hroot hw
    exact decodeAtLeaf_effect hready hwf hx hleaf h

/-! ### Every step -/

theorem exec_effect {i : Instr} {s t : State} (h : exec i s = .next t) : Effect s t := by
  cases i with
  | nop => cases h; exact .respond s _
  | init => cases h; exact .restart rfl rfl rfl rfl
  | encode => cases h; exact encodeKey_effect _ s fun _ => ordKey_fits _ _
  | encodeNull => cases h; exact encodeKey_effect _ s fun hk => by cases hk
  | decode =>
    cases hd : decodeFn s with
    | needMore => rw [exec_decode_of_needMore hd] at h; cases h; exact .quiet rfl rfl rfl rfl
    | done u => rw [exec_decode_of_done hd] at h; cases h; exact decodeFn_effect hd
  | readReg n =>
    obtain ⟨-, e⟩ | ⟨v, -, e⟩ := execReadReg_cases n s
    · cases e.symm.trans h; exact .raiseReject s _
    · cases e.symm.trans h; exact .respond s _
  | readNode k =>
    obtain ⟨-, e⟩ | ⟨-, e⟩ := execReadNode_cases k s
    · cases e.symm.trans h; exact .respond s _
    · cases e.symm.trans h; exact .raiseReject s _

theorem hostTurn_effect {s t : State} (h : hostTurn s = .next t) : Effect s t := by
  obtain ⟨-, e⟩ | ⟨a, as, -, e⟩ := hostTurn_cases s
  · cases e.symm.trans h; exact .quiet rfl rfl rfl rfl
  · obtain ⟨-, rfl⟩ | ⟨-, c, v, bi, li, bo, lo, rfl⟩ := hostAction_next (e.symm.trans h)
    · exact .restart rfl rfl rfl rfl
    · exact .quiet rfl rfl rfl rfl

theorem step_effect {s t : State} (h : step s = .next t) : Effect s t := by
  obtain ⟨-, e⟩ | ⟨w, x, -, -, e⟩ | ⟨w, i, -, -, ⟨-, e⟩ | ⟨-, e⟩⟩ := step_cases s
  · exact hostTurn_effect (e.symm.trans h)
  · cases e.symm.trans h; exact .raiseReject s _
  · exact hostTurn_effect (e.symm.trans h)
  · exact exec_effect (e.symm.trans h)

end Sys2Proof.Machine
end

section
/-! Every step keeps `WF` and the invariant. -/
namespace Sys2Proof.Machine

theorem initial_wf : CodeTree.initial.WF := (CodeTree.wf_iff _).1 (by decide +kernel)

theorem initial_escapeParentThird : CodeTree.initial.EscapeParentThird := fun h => absurd h (by decide)

/-- Below the largest weight one more occurrence fits (40_encode.md R108). -/
theorem State.weight_lt_of_atMaxWeight {s : State} (h : s.atMaxWeight = false)
    (hle : (s.tree.node ROOT).weight ≤ maxWeight s.params) : (s.tree.node ROOT).weight < maxWeight s.params := by
  simp only [State.atMaxWeight, beq_eq_false_iff_ne] at h
  omega

/-- The tree clauses of the invariant, kept together (10_state.md R38, log 19). -/
theorem Effect.keeps_tree {s t : State} (h : Effect s t) (hwf : s.tree.WF) (hthird : s.tree.EscapeParentThird)
    (hle : (s.tree.node ROOT).weight ≤ maxWeight s.params) :
    t.tree.WF ∧ t.tree.EscapeParentThird ∧ (t.tree.node ROOT).weight ≤ maxWeight t.params := by
  cases h with
  | quiet hparams htree => rw [hparams, htree]; exact ⟨hwf, hthird, hle⟩
  | fault c hparams htree => rw [hparams, htree]; exact ⟨hwf, hthird, hle⟩
  | restart hparams htree => rw [hparams, htree]; exact ⟨initial_wf, initial_escapeParentThird, Nat.zero_le _⟩
  | ended hparams htree => rw [hparams, htree]; exact ⟨hwf, hthird, hle⟩
  | known leaf hparams htree hready _ hmax hleaf hkind =>
    have hlt := State.weight_lt_of_atMaxWeight hmax hle
    obtain ⟨hpend, hord⟩ := hwf.pending hthird hleaf hkind
    obtain ⟨hwf', hthird', hroot, -⟩ := hpend.update_spec hord hlt
    rw [hparams, htree, hroot]
    exact ⟨hwf', hthird', hlt⟩
  | grown key hparams htree hready _ hnew hroom hmax =>
    have hlt := State.weight_lt_of_atMaxWeight hmax hle
    obtain ⟨hpend, hord, hweight⟩ := hwf.pending_add hnew
    obtain ⟨hwf', hthird', hroot, -⟩ := hpend.update_spec (P := s.params) hord (hweight ▸ hlt)
    rw [hparams, htree, grownTree, hroot, hweight]
    exact ⟨hwf', hthird', hlt⟩

/-- Settles O60: the tree clauses alone are kept by every effect a step can have. -/
theorem wellFormednessIsKept : Obligations.WellFormednessIsKept :=
  fun _ _ hwf hthird hle hstep => (step_effect hstep).keeps_tree hwf hthird hle

/-! ## The other clauses of the invariant -/

theorem Effect.params_eq {s t : State} (h : Effect s t) : t.params = s.params := by
  cases h <;> assumption

theorem Effect.keeps_fits {s t : State} (h : Effect s t) (hlegal : s.params.Legal)
    (hfits : s.tree.count ≤ s.params.nodeCap) : t.tree.count ≤ t.params.nodeCap := by
  rw [h.params_eq]
  cases h with
  | quiet _ htree => rwa [htree]
  | fault _ _ htree => rwa [htree]
  | restart _ htree =>
    rw [htree]
    obtain ⟨-, -, hcap, -⟩ := hlegal
    exact Nat.le_trans (by decide) hcap
  | ended _ htree => rwa [htree]
  | known _ _ htree => rwa [htree, CodeTree.count_update]
  | grown _ _ htree _ _ _ hroom =>
    rw [htree, grownTree, CodeTree.count_update, CodeTree.count_add]
    simpa [State.lacksRoom] using hroom

theorem CodeTree.SymsFit.update {p P : Params} {t : CodeTree} (h : t.SymsFit p) (x : Nat) :
    (CodeTree.update P t x).SymsFit p := by
  intro i hi
  rw [CodeTree.count_update] at hi
  rw [(t.label_update P x i).1, (t.label_update P x i).2]
  exact h i hi

theorem CodeTree.SymsFit.add {p : Params} {t : CodeTree} (h : t.SymsFit p) (hwf : t.WF) {key : Key}
    (hfits : key.kind = .ord → key.value.toNat < 2 ^ p.symW) : (t.add key).SymsFit p := by
  intro i hi
  obtain ⟨q, e⟩ | ⟨hk, hs⟩ | ⟨hi', hk, hs⟩ := hwf.label_add key hi
  · rw [e, newLeaf]
    cases hkey : key.kind with
    | ord => exact ⟨fun _ => hfits hkey, fun hne => absurd rfl hne⟩
    | endMark => exact ⟨nofun, fun _ => rfl⟩
  · rw [hk, hs]
    exact ⟨nofun, fun _ => rfl⟩
  · rw [hk, hs]
    exact h i hi'

theorem initial_symsFit (p : Params) : CodeTree.initial.SymsFit p := by
  intro i hi
  have hi' : i < 2 := hi
  obtain rfl | rfl : i = 0 ∨ i = 1 := by omega
  · exact ⟨nofun, fun _ => rfl⟩
  · exact ⟨nofun, fun _ => rfl⟩

theorem Effect.keeps_syms {s t : State} (h : Effect s t) (hsyms : s.tree.SymsFit s.params) : t.tree.SymsFit t.params := by
  rw [h.params_eq]
  cases h with
  | quiet _ htree => rwa [htree]
  | fault _ _ htree => rwa [htree]
  | restart _ htree => exact htree ▸ initial_symsFit _
  | ended _ htree => rwa [htree]
  | known _ _ htree => exact htree ▸ hsyms.update _
  | grown _ _ htree _ hwf _ _ _ hfits => exact htree ▸ (hsyms.add hwf hfits).update _

theorem CodeTree.NoEndLeaf.update {P : Params} {t : CodeTree} (h : t.NoEndLeaf) (x : Nat) :
    (CodeTree.update P t x).NoEndLeaf := by
  intro i hi
  rw [CodeTree.count_update] at hi
  rw [(t.label_update P x i).1]
  exact h i hi

/-- Only the end marker grows an end-marker leaf. -/
theorem CodeTree.NoEndLeaf.add {t : CodeTree} (h : t.NoEndLeaf) (hwf : t.WF) {key : Key} (hkey : key.kind = .ord) :
    (t.add key).NoEndLeaf := by
  intro i hi
  obtain ⟨q, e⟩ | ⟨hk, -⟩ | ⟨hi', hk, -⟩ := hwf.label_add key hi
  · rw [e, newLeaf_kind, if_pos hkey]
    simp
  · simp [hk]
  · rw [hk]
    exact h i hi'

theorem Effect.keeps_noEnd {s t : State} (h : Effect s t) (hno : s.engine ≠ .ended → s.tree.NoEndLeaf)
    (ht : t.engine ≠ .ended) : t.tree.NoEndLeaf := by
  cases h with
  | quiet _ htree hengine => exact htree ▸ hno (hengine ▸ ht)
  | fault _ _ htree hready => exact htree ▸ hno (by simp [hready])
  | restart _ htree => rw [htree]; unfold CodeTree.NoEndLeaf; decide
  | ended _ _ _ hengine => exact absurd hengine ht
  | known _ _ htree hready => exact htree ▸ (hno (by simp [hready])).update _
  | grown _ _ htree hready hwf _ _ _ _ hengine =>
    obtain ⟨-, hkey⟩ := hengine.resolve_right ht
    exact htree ▸ ((hno (by simp [hready])).add hwf hkey).update _

theorem Effect.keeps_cause {s t : State} (h : Effect s t) (hc : s.engine = .fault ↔ s.errCause ≠ none) :
    t.engine = .fault ↔ t.errCause ≠ none := by
  cases h with
  | quiet _ _ hengine hcause => rw [hengine, hcause]; exact hc
  | fault c _ _ _ hengine hcause => simp [hengine, hcause]
  | restart _ _ hengine hcause => simp [hengine, hcause]
  | ended _ _ hready hengine hcause => simpa [hready, hengine, hcause] using hc
  | known _ _ _ hready _ _ _ _ hengine hcause =>
    obtain hengine | hengine := hengine <;> simpa [hready, hengine, hcause] using hc
  | grown _ _ _ hready _ _ _ _ _ hengine hcause =>
    obtain ⟨hengine, -⟩ | hengine := hengine <;> simpa [hready, hengine, hcause] using hc

/-- Settles O59: each clause of the invariant is kept by every effect a step can have. -/
theorem everyStepKeepsTheInvariant : Obligations.EveryStepKeepsTheInvariant := by
  intro s t hinv hstep
  have heffect := step_effect hstep
  obtain ⟨hwf, hthird, hroot⟩ := heffect.keeps_tree hinv.wf hinv.third hinv.rootFits
  exact
    { legal := heffect.params_eq ▸ hinv.legal
      wf := hwf
      third := hthird
      fits := heffect.keeps_fits hinv.legal hinv.fits
      rootFits := hroot
      syms := heffect.keeps_syms hinv.syms
      noEnd := heffect.keeps_noEnd hinv.noEnd
      cause := heffect.keeps_cause hinv.cause }

end Sys2Proof.Machine
end

section
/-! One update pass of a well-formed tree, at a known leaf and after growth. -/
namespace Sys2Proof.Machine

theorem CodeTree.isLeaf_of_kind {t : CodeTree} {x : Nat}
    (hk : (t.node x).kind = .ordinary ∨ (t.node x).kind = .endMarker) : t.isLeaf x = true := by
  obtain hk | hk := hk <;> simp [CodeTree.isLeaf, hk]

/-- A leaf other than the escape carries a key. -/
theorem CodeTree.kind_of_isLeaf {t : CodeTree} {x : Nat} (hl : t.isLeaf x = true) (he : (t.node x).kind ≠ .escape) :
    (t.node x).kind = .ordinary ∨ (t.node x).kind = .endMarker := by
  cases hk : (t.node x).kind <;> simp_all [CodeTree.isLeaf]

/-- Settles O44: a known leaf may be counted, and the pass leaves both properties. -/
theorem updateOfKnownLeafKeepsTheTree : Obligations.UpdateOfKnownLeafKeepsTheTree := by
  intro p t x hwf hthird hroot hx hk
  obtain ⟨hpend, hord⟩ := hwf.pending hthird hx hk
  obtain ⟨hwf', hthird', -⟩ := hpend.update_spec hord hroot
  exact ⟨hwf', hthird'⟩

/-- Settles O45: growth leaves the new leaf to be counted with the root's weight as it was, and the pass leaves both
properties. -/
theorem growthAndUpdateKeepTheTree : Obligations.GrowthAndUpdateKeepTheTree := by
  intro p t key hwf _ hroot hnew
  obtain ⟨hpend, hord, hweight⟩ := hwf.pending_add hnew
  obtain ⟨hwf', hthird', -⟩ := hpend.update_spec (P := p) hord (hweight ▸ hroot)
  exact ⟨hwf', hthird'⟩

/-- Settles O43: the weights at the end of the pass, at the leaf counted, at the root and at any other leaf. -/
theorem updateCountsOneOccurrence : Obligations.UpdateCountsOneOccurrence := by
  intro p t x hwf hthird hroot hx hk
  obtain ⟨hpend, hord⟩ := hwf.pending hthird hx hk
  obtain ⟨-, -, hrootw, hleafw⟩ := hpend.update_spec hord hroot
  refine ⟨?_, hrootw, fun y hy hyl hyx => ?_⟩
  · rw [hleafw x hx (CodeTree.isLeaf_of_kind hk), if_pos rfl]
  · rw [hleafw y hy hyl, if_neg hyx, Nat.add_zero]

end Sys2Proof.Machine
end

section
/-! Weights and depths. -/
namespace Sys2Proof.Machine

/-- A path found is found with more fuel. -/
theorem CodeTree.pathWithin_succ_of_eq_some (t : CodeTree) {f i : Nat} {bs : List Bool} (h : t.pathWithin f i = some bs) :
    t.pathWithin (f + 1) i = some bs := by
  induction f generalizing i bs with
  | zero =>
    rw [CodeTree.pathWithin] at h
    split at h
    · next hi => subst hi; cases h; exact t.pathWithin_root 1
    · cases h
  | succ f ih =>
    have hmap : ∀ p b, (t.pathWithin f p).map (· ++ [b]) = some bs → (t.pathWithin (f + 1) p).map (· ++ [b]) = some bs := by
      intro p b hb
      obtain ⟨bs', hbs', rfl⟩ := Option.map_eq_some_iff.1 hb
      rw [ih hbs', Option.map_some]
    rw [CodeTree.pathWithin] at h ⊢
    split at h
    · next hi => rwa [if_pos hi]
    · next hi =>
      rw [if_neg hi]
      cases hp : (t.node i).parent with
      | none => simp [hp] at h
      | some p =>
        simp only [hp] at h ⊢
        split at h
        · next hl => rw [if_pos hl]; exact hmap p false h
        · next hl =>
          rw [if_neg hl]
          split at h
          · next hh => rw [if_pos hh]; exact hmap p true h
          · cases h

@[simp] theorem CodeTree.depth_root (t : CodeTree) : t.depth ROOT = 0 := by
  rw [CodeTree.depth, CodeTree.pathTo_of_pathWithin (t.pathWithin_root _), List.length_nil]

namespace CodeTree.Shape
variable {t : CodeTree} (h : t.Shape)
include h

/-- A child's path is its parent's, and the bit of the slot that holds it. -/
theorem pathTo_of_parent {i p : Nat} (hi : i < t.count) (hp : (t.node i).parent = some p) :
    ∃ b, t.child p b = some i ∧ t.pathTo i = t.pathTo p ++ [b] := by
  obtain ⟨hplt, -, hslot, -⟩ := h.parent_spec hi hp
  obtain ⟨f, hf⟩ : ∃ f, t.count = f + 1 := Nat.exists_eq_add_one.2 (Nat.zero_lt_of_lt hi)
  obtain ⟨b, hb, hpath⟩ := t.pathWithin_of_child (h.ne_root_of_parent hp) hp hslot f
  obtain ⟨bs, hbs, -⟩ := h.exists_path f p hplt (by omega)
  have hbs' := t.pathWithin_succ_of_eq_some hbs
  rw [← hf] at hpath hbs'
  refine ⟨b, hb, ?_⟩
  rw [CodeTree.pathTo_of_pathWithin hbs', CodeTree.pathTo_of_pathWithin (bs := bs ++ [b]) (by rw [hpath, hbs]; rfl)]

theorem depth_of_parent {i p : Nat} (hi : i < t.count) (hp : (t.node i).parent = some p) :
    t.depth i = t.depth p + 1 := by
  obtain ⟨b, -, hpath⟩ := h.pathTo_of_parent hi hp
  rw [CodeTree.depth, hpath, List.length_append, List.length_singleton, CodeTree.depth]

theorem weight_le_root_of_ascending (ho : t.Ascending) {i : Nat} (hi : i < t.count) :
    (t.node i).weight ≤ (t.node ROOT).weight := by
  by_cases hr : i = ROOT
  · rw [hr]
  · have := h.rank_add_one_lt hi hr
    have := h.rank_root
    exact ho i hi ROOT h.root_lt (by omega)

/-- A parent weighs what its child and that child's sibling weigh together (10_state.md R42, R44). -/
theorem weight_of_parent (hsums : t.SumsOk) {i p : Nat} (hi : i < t.count) (hp : (t.node i).parent = some p) :
    ∃ k < t.count, k ≠ i ∧ (t.node k).parent = some p ∧ t.rank k / 2 = t.rank i / 2 ∧
      (t.node p).weight = (t.node i).weight + (t.node k).weight := by
  obtain ⟨k, hk, hne, hpk, hrank, -, hslots⟩ := h.sibling hi hp
  have hsum := hsums p (h.parent_lt hi hp) (h.internal_of_parent hi hp)
  refine ⟨k, hk, hne, hpk, hrank, hsum.trans ?_⟩
  obtain ⟨hl, hh⟩ | ⟨hl, hh⟩ := hslots
  · rw [hl, hh]; rfl
  · rw [hl, hh]; exact Nat.add_comm _ _

variable (hsums : t.SumsOk) (ho : t.Ascending)
include hsums ho

/-- Of two nodes of different weights, the lighter has the lighter parent, or they are siblings: the pairs of `ORDER`
ascend. -/
theorem parent_eq_or_weight_lt {u v p q : Nat} (hu : u < t.count) (hv : v < t.count) (hp : (t.node u).parent = some p)
    (hq : (t.node v).parent = some q) (hw : (t.node u).weight < (t.node v).weight) :
    p = q ∨ (t.node p).weight < (t.node q).weight := by
  obtain ⟨k, hk, hku, hpk, hrk, hpw⟩ := h.weight_of_parent hsums hu hp
  obtain ⟨l, hl, -, -, hrl, hqw⟩ := h.weight_of_parent hsums hv hq
  have huv : t.rank u < t.rank v := by
    by_contra hle
    obtain heq | hlt := (Nat.le_of_not_lt hle).eq_or_lt
    · rw [h.rank_inj hv hu heq] at hw
      exact hw.false
    · have := ho v hv u hu hlt
      omega
  by_cases hpair : t.rank u / 2 = t.rank v / 2
  · left
    have hkru : t.rank k ≠ t.rank u := fun e => hku (h.rank_inj hk hu e)
    obtain rfl : k = v := h.rank_inj hk hv (by omega)
    simpa [hpk] using hq
  · right
    have := ho k hk l hl (by omega)
    omega

/-- A heavier node is never deeper (10_state.md R50): the claim climbs from two nodes to their parents. -/
theorem depth_le_of_weight_lt {u v : Nat} (hu : u < t.count) (hv : v < t.count)
    (hw : (t.node u).weight < (t.node v).weight) : t.depth v ≤ t.depth u := by
  induction hd : t.depth u generalizing u v with
  | zero =>
    have hur : u = ROOT := by
      by_contra hr
      have := (h.depth_le hu).2 hr
      omega
    have := h.weight_le_root_of_ascending ho hv
    rw [hur] at hw
    omega
  | succ d ih =>
    by_cases hvr : v = ROOT
    · rw [hvr, CodeTree.depth_root]
      exact Nat.zero_le _
    · have hur : u ≠ ROOT := by rintro rfl; simp at hd
      obtain ⟨p, hp⟩ := h.exists_parent hu hur
      obtain ⟨q, hq⟩ := h.exists_parent hv hvr
      rw [h.depth_of_parent hu hp, Nat.add_right_cancel_iff] at hd
      rw [h.depth_of_parent hv hq, Nat.add_le_add_iff_right]
      obtain rfl | hpq := h.parent_eq_or_weight_lt hsums ho hu hv hp hq hw
      · exact hd.le
      · exact ih (h.parent_lt hu hp) (h.parent_lt hv hq) hpq hd

end CodeTree.Shape

/-- Settles O46: in the two-node tree no weights differ; from three nodes on it holds of any two nodes. -/
theorem lowerWeightNeverShorterCode : Obligations.LowerWeightNeverShorterCode := by
  intro t a b hwf ha hb _ _ hw
  obtain h2 | h3 : t.count = 2 ∨ 3 ≤ t.count := by have := hwf.two_le_count; omega
  · obtain ⟨u, v, rfl⟩ := hwf.eq_twoNodes h2
    have hzero : ∀ i < (twoNodes u v).count, ((twoNodes u v).node i).weight = 0 := of_decide_eq_true rfl
    rw [hzero a ha, hzero b hb] at hw
    exact absurd hw (lt_irrefl 0)
  · have hshape := hwf.shape h3
    obtain ⟨hlists, -, -, -, -, -, hsums, hord, -⟩ := hwf
    exact hshape.depth_le_of_weight_lt hsums ((CodeTree.weightsOrdered_iff hlists).1 hord) ha hb hw

/-- Settles O47: every other leaf outweighs the escape, so by O46 none is deeper. -/
theorem escapeIsADeepestLeaf : Obligations.EscapeIsADeepestLeaf := by
  intro t a hwf ha hleaf
  have ⟨_, _, _, _, _, ⟨hesc, hescape⟩, _, _, _, _, _, hescw, hleafw⟩ := hwf
  have hescLeaf : t.isLeaf ESC = true := by simp [CodeTree.isLeaf, (hescape ESC hesc).2 rfl]
  by_cases hae : a = ESC
  · rw [hae]
  · have hkind := CodeTree.kind_of_isLeaf hleaf fun hk => hae ((hescape a ha).1 hk)
    refine lowerWeightNeverShorterCode t ESC a hwf hesc ha hescLeaf hleaf ?_
    rw [hescw]
    exact hleafw a ha hkind

end Sys2Proof.Machine
end

section
/-! Power-on, INIT and the hardware reset. -/
namespace Sys2Proof.Machine

/-- The reset values as the model holds them are those READ_REG and READ_NODE show. -/
theorem State.Fresh.of_initial {s : State} (hengine : s.engine = .ready) (hresult : s.lastResult = .none)
    (hcause : s.errCause = none) (hlen : s.lastLen = 0#32) (htree : s.tree = .initial) : s.Fresh := by
  rw [State.Fresh, hengine, hresult, hcause, hlen, htree]
  exact ⟨rfl, rfl, rfl, rfl, rfl, rfl, rfl, rfl, rfl, rfl⟩

theorem State.fresh_resetWith (p : Params) : (State.resetWith p).Fresh := .of_initial rfl rfl rfl rfl rfl

theorem State.fresh_restart (s : State) : s.restart.Fresh := .of_initial rfl rfl rfl rfl rfl

theorem State.fresh_hardwareReset (s : State) : s.hardwareReset.Fresh := .of_initial rfl rfl rfl rfl rfl

/-- The hardware reset is no response. -/
theorem State.responses_hardwareReset (s : State) : s.hardwareReset.responses = s.responses := by
  simp [State.responses, Event.isRespond]

/-- The first escape code (10_state.md R49): the escape is the root's low child. -/
theorem State.Fresh.pathTo_esc {s : State} (h : s.Fresh) : s.tree.pathTo ESC = [false] := by
  obtain ⟨-, -, -, -, hcount, -, hroot, hesc, -⟩ := h
  refine CodeTree.pathTo_of_pathWithin ?_
  obtain ⟨b, hb, hpath⟩ := s.tree.pathWithin_of_child (i := ESC) (p := ROOT) (by decide) (by rw [hesc]) (.inl (by rw [hroot])) 1
  cases b with
  | false => rw [hcount, hpath, CodeTree.pathWithin_root]; rfl
  | true => simp [CodeTree.child, hroot] at hb

/-- Settles O9: power-on, INIT and the hardware reset all leave `CodeTree.initial` and cleared registers. -/
theorem resetAndInitLeaveTheInitialTree : Obligations.ResetAndInitLeaveTheInitialTree := by
  refine ⟨fun p => ⟨State.fresh_resetWith p, rfl⟩, rfl, fun s => ⟨_, rfl, s.fresh_restart⟩, fun s es hcmd hhost => ?_,
    fun s h => h.pathTo_esc⟩
  have hstep : step s = .next { s with host := es }.hardwareReset := by
    simp [step, hcmd, hostTurn, hhost, hostAction]
  exact ⟨_, hstep, State.fresh_hardwareReset _, rfl, ⟨rfl, rfl, rfl, rfl, rfl, rfl⟩, rfl, rfl,
    State.responses_hardwareReset _⟩

theorem initial_noEndLeaf : CodeTree.initial.NoEndLeaf := by unfold CodeTree.NoEndLeaf; decide

/-- Settles O10: the initial tree has every property, and two entries fit in every legal capacity. -/
theorem resetMeetsTheInvariant : Obligations.ResetMeetsTheInvariant := fun p hp =>
  { legal := hp
    wf := initial_wf
    third := initial_escapeParentThird
    fits := by
      obtain ⟨-, -, hcap, -⟩ := hp
      exact Nat.le_trans (by decide : 2 ≤ 3) hcap
    rootFits := Nat.zero_le _
    syms := initial_symsFit p
    noEnd := fun _ => initial_noEndLeaf
    cause := ⟨nofun, fun h => absurd rfl h⟩ }

end Sys2Proof.Machine
end

section
/-! A legal command in flight, and the registers READ_REG names. -/
namespace Sys2Proof.Machine

theorem step_of_decode {s : State} {w : CmdWord} {i : Instr} (hw : s.cmd = some w) (hi : decode w = .ok i) :
    step s = runCommand i s := by simp [step, hw, hi]

/-- DECODE is the one command that holds (70_reset_and_hazards.md R252). -/
theorem eq_decode_of_holds {i : Instr} {s : State} (h : holds i s = true) : i = .decode := by
  cases i with
  | decode => rfl
  | _ => cases h

/-- Settles O6: `runCommand` gives the turn to `exec`, or to the host when the command holds. -/
theorem stepRunsTheDecodedCommand : Obligations.StepRunsTheDecodedCommand := by
  intro s w i hw hi
  rw [step_of_decode hw hi, runCommand]
  refine ⟨fun h => by simp [h], fun h => ?_⟩
  obtain rfl := eq_decode_of_holds h
  exact ⟨rfl, exec_decode_of_needMore ((holds_decode_iff s).1 h), if_pos h⟩

/-- The registers READ_REG names, with their values (10_state.md R27). -/
def State.registers (s : State) : List (Nat × RegWord) :=
  [ (0x00, Config.idWord), (0x01, Config.versionWord), (0x02, BitVec.ofNat 32 s.params.nodeCap),
    (0x03, BitVec.ofNat 32 s.params.weightW), (0x04, BitVec.ofNat 32 s.params.symW), (0x08, statusWord s),
    (0x09, BitVec.ofNat 32 s.tree.count), (0x0A, BitVec.ofNat 32 s.tree.leafCount),
    (0x0B, BitVec.ofNat 32 (s.tree.node ROOT).weight), (0x0C, s.lastLen),
    (0x0D, BitVec.ofNat 32 (s.tree.depth ESC)), (0x0E, BitVec.ofNat 32 ROOT), (0x0F, BitVec.ofNat 32 ESC) ]

/-- The table is the model's: `CSR[n]` is the value it lists for `n`, if any. -/
theorem State.csr_eq_some_iff (s : State) (n : Nat) (v : RegWord) : s.csr n = some v ↔ (n, v) ∈ s.registers := by
  constructor
  · intro h
    unfold State.csr at h
    split at h
    all_goals cases h
    all_goals simp [State.registers]
  · intro h
    simp only [State.registers, List.mem_cons, Prod.mk.injEq, List.not_mem_nil, or_false] at h
    rcases h with ⟨rfl, rfl⟩ | ⟨rfl, rfl⟩ | ⟨rfl, rfl⟩ | ⟨rfl, rfl⟩ | ⟨rfl, rfl⟩ | ⟨rfl, rfl⟩ | ⟨rfl, rfl⟩ | ⟨rfl, rfl⟩ |
      ⟨rfl, rfl⟩ | ⟨rfl, rfl⟩ | ⟨rfl, rfl⟩ | ⟨rfl, rfl⟩ | ⟨rfl, rfl⟩
    all_goals rfl

theorem exec_readReg_of_mem {s : State} {n : Nat} {v : RegWord} (h : (n, v) ∈ s.registers) :
    exec (.readReg n) s = .next (s.answer (okRecord 0#4 v 0#1 0#64)) := by
  rw [← State.csr_eq_some_iff] at h
  simp only [exec, execReadReg, h]
  rfl

theorem exec_readReg_of_not_mem {s : State} {n : Nat} (h : ∀ v, (n, v) ∉ s.registers) :
    exec (.readReg n) s = .next (s.answer (bareRecord 7#4)) := by
  have hnone : s.csr n = none := Option.eq_none_iff_forall_ne_some.2 fun v hv => h v ((s.csr_eq_some_iff n v).1 hv)
  simp only [exec, execReadReg, hnone]
  rfl

/-- Settles O13: READ_REG answers from the table of registers. -/
theorem readRegReturnsEachRegister : Obligations.ReadRegReturnsEachRegister := fun _ _ =>
  ⟨fun _ => exec_readReg_of_mem, exec_readReg_of_not_mem⟩

/-- A word made of five fields gives each field back (10_state.md R28). -/
theorem extractLsb'_fields (r : BitVec 16) (c : BitVec 8) (l : BitVec 4) (z e : BitVec 2) :
    (r ++ c ++ l ++ z ++ e).extractLsb' 0 2 = e ∧ (r ++ c ++ l ++ z ++ e).extractLsb' 2 2 = z ∧
    (r ++ c ++ l ++ z ++ e).extractLsb' 4 4 = l ∧ (r ++ c ++ l ++ z ++ e).extractLsb' 8 8 = c ∧
    (r ++ c ++ l ++ z ++ e).extractLsb' 16 16 = r := by
  simp (disch := decide) only [BitVec.extractLsb'_append_eq_of_le, BitVec.extractLsb'_append_eq_of_add_le, Nat.reduceSub,
    BitVec.extractLsb'_eq_self, and_self]

/-- Settles O14: `statusWord` is its fields one above the other, and READ_REG 0x08 answers it. -/
theorem statusRegisterLayout : Obligations.StatusRegisterLayout := by
  refine ⟨⟨rfl, rfl, rfl⟩, ⟨rfl, rfl, rfl, rfl, rfl, rfl⟩, ⟨rfl, rfl, rfl, rfl, rfl, rfl⟩, fun s => ?_⟩
  obtain ⟨hstate, hlow, hresult, hcause, hhigh⟩ :=
    extractLsb'_fields 0#16 (errCauseCode s.errCause) s.lastResult.code 0#2 s.engine.code
  exact ⟨exec_readReg_of_mem (by simp [State.registers]), hstate, hlow, hresult, hcause, hhigh⟩

end Sys2Proof.Machine
end

section
/-! What a command other than INIT does to the tree, with the result it answers. -/
namespace Sys2Proof.Machine

/-! ## Labels and `Lookup` -/

theorem carries_congr {key : Key} {a b : Node} (hkind : a.kind = b.kind) (hsym : a.sym = b.sym) :
    carries key a = carries key b := by
  unfold carries
  rw [hkind, hsym]

/-- A tree that keeps the labels of the entries it had keeps every answer of `Lookup`. -/
theorem CodeTree.lookup_eq_some_of_labels {t t' : CodeTree} (hc : t.count ≤ t'.count)
    (hl : ∀ i < t.count, (t'.node i).kind = (t.node i).kind ∧ (t'.node i).sym = (t.node i).sym) {key : Key} {leaf : Nat}
    (h : t.lookup key = some leaf) : t'.lookup key = some leaf := by
  obtain ⟨hlt, hcar, hfirst⟩ := (t.lookup_eq_some key leaf).1 h
  have hsame : ∀ i < t.count, carries key (t'.node i) = carries key (t.node i) :=
    fun i hi => carries_congr (hl i hi).1 (hl i hi).2
  exact (t'.lookup_eq_some key leaf).2 ⟨hlt.trans_le hc, (hsame leaf hlt).trans hcar,
    fun j hj => (hsame j (hj.trans hlt)).trans (hfirst j hj)⟩

/-- Growth keeps the kind and the symbol of every allocated entry, in any tree (42_tree_growth.md R141, R142). -/
theorem CodeTree.label_add_of_lt (t : CodeTree) (key : Key) {i : Nat} (hi : i < t.count) :
    ((t.add key).node i).kind = (t.node i).kind ∧ ((t.add key).node i).sym = (t.node i).sym := by
  have hold : ∀ nds, (t.allocate nds).node i = t.node i := fun nds => by rw [t.node_allocate, if_pos hi]
  unfold CodeTree.add
  split
  · have hwrite := (t.allocate [newLeaf key t.escParent]).label_modifyNode t.escParent
      (fun nd => { nd with high := some t.count }) (fun _ => ⟨rfl, rfl⟩) i
    rw [hold] at hwrite
    exact hwrite
  · obtain ⟨hkind, hsym⟩ := CodeTree.label_modifyNode (t.allocate _) t.escParent
      (fun nd => if nd.low = some ESC then { nd with low := some t.count } else { nd with high := some t.count })
      (fun nd => by split <;> exact ⟨rfl, rfl⟩) i
    obtain ⟨hkind', hsym'⟩ := CodeTree.label_setParent _ ESC (some t.count) i
    rw [hold] at hkind hsym
    exact ⟨hkind'.trans hkind, hsym'.trans hsym⟩

/-! ## The response of a command -/

theorem State.answered_respond (s : State) (r : Response) : (s.respond r).Answered r := by simp [State.Answered]

theorem State.Answered.unique {s : State} {q r : Response} (hq : s.Answered q) (hr : s.Answered r) : q = r := by
  unfold State.Answered at hq hr
  simpa [hq] using hr

/-- What a command other than INIT that runs from `s` and answers `r` has done to the tree, with what it has checked and
the result in its response (10_state.md R25). -/
inductive Counted (s t : State) : Prop
  /-- No occurrence is counted: no result, or the end of the stream. -/
  | same (r : Response) (hr : t.Answered r) (htree : t.tree = s.tree) (hres : r.result = 0#4 ∨ r.result = 5#4)
  /-- A known leaf is counted; only an end-marker leaf ends the stream. -/
  | known (leaf : Nat) (r : Response) (hr : t.Answered r) (htree : t.tree = CodeTree.update s.params s.tree leaf)
      (hready : s.engine = .ready) (hmax : s.atMaxWeight = false) (hleaf : leaf < s.tree.count)
      (hkind : (s.tree.node leaf).kind = .ordinary ∨ (s.tree.node leaf).kind = .endMarker)
      (hres : r.result = 5#4 → (s.tree.node leaf).kind = .endMarker)
  /-- A new key is added and counted. -/
  | grown (key : Key) (r : Response) (hr : t.Answered r) (htree : t.tree = grownTree s.params s.tree key)
      (hnew : s.tree.lookup key = none) (hmax : s.atMaxWeight = false) (hres : r.result ≠ 5#4)

theorem Counted.respond (s : State) {q : Response} (hres : q.result = 0#4) : Counted s (s.respond q) :=
  .same q (s.answered_respond q) rfl (.inl hres)

theorem Counted.raiseReject (s : State) (c : RejectCode) : Counted s (s.raiseReject c) := .respond s rfl

theorem Counted.raiseFault {s u : State} (c : FaultCause) (htree : u.tree = s.tree := by rfl) :
    Counted s (u.raiseFault c) := .same _ (State.answered_respond _ _) htree (.inl rfl)

/-- What is counted does not depend on the channels or the history. -/
theorem Counted.of_same {s s' t : State} (h : Counted s' t) (hparams : s'.params = s.params)
    (htree : s'.tree = s.tree) (hengine : s'.engine = s.engine) : Counted s t := by
  have hweight : s'.atMaxWeight = s.atMaxWeight := by simp only [State.atMaxWeight, hparams, htree]
  cases h with
  | same r hr h hres => exact .same r hr (htree ▸ h) hres
  | known leaf r hr h hready hmax hleaf hkind hres =>
    rw [hparams, htree] at h
    rw [htree] at hleaf hkind hres
    exact .known leaf r hr h (hengine ▸ hready) (hweight ▸ hmax) hleaf hkind hres
  | grown key r hr h hnew hmax hres =>
    rw [hparams, htree] at h
    exact .grown key r hr h (htree ▸ hnew) (hweight ▸ hmax) hres

/-! ### Encode -/

theorem State.answered_finishEncode (s : State) (key : Key) (res : ResultCode) (len : Nat) :
    (s.finishEncode key res len).Answered (.okEncode res len) := State.answered_respond _ _

theorem encodeKey_counted (key : Key) (s : State) : Counted s (encodeKey key s) := by
  obtain ⟨-, h⟩ | ⟨-, -, h⟩ | ⟨hready, -, ⟨leaf, hl, ⟨-, h⟩ | ⟨hmax, h⟩⟩ |
    ⟨hnew, ⟨-, h⟩ | ⟨-, -, h⟩ | ⟨-, hmax, h⟩⟩⟩ := encodeKey_cases key s
  all_goals rw [h]
  · exact .raiseReject s _
  · exact .raiseFault _
  · exact .raiseFault _
  · obtain ⟨hlt, hcar, -⟩ := (s.tree.lookup_eq_some key leaf).1 hl
    exact .known leaf _ (State.answered_finishEncode _ _ _ _) (by simp [encodeKnown]) hready hmax hlt
      (kind_of_carries hcar) nofun
  · exact .raiseFault _
  · exact .raiseFault _
  · exact .grown key _ (State.answered_finishEncode _ _ _ _) (by simp [encodeNew]) hnew hmax nofun

/-! ### Decode -/

theorem decodeNew_counted (key : Key) (n : Nat) (s : State) : Counted s (decodeNew key n s) := by
  obtain ⟨-, h⟩ | ⟨hnew, ⟨-, h⟩ | ⟨-, -, h⟩ | ⟨-, hmax, h⟩⟩ := decodeNew_cases key n s
  all_goals rw [h]
  · exact .raiseFault _
  · exact .raiseFault _
  · exact .raiseFault _
  · exact .grown key _ (State.answered_respond _ _) rfl hnew hmax nofun

theorem decodeLiteral_counted (l : Literal) (n : Nat) (s : State) : Counted s (decodeLiteral l n s) := by
  unfold decodeLiteral
  cases l.kind with
  | endMark => exact .same _ (State.answered_respond _ _) rfl (.inr rfl)
  | ord => exact decodeNew_counted _ n s

theorem decodeKnown_counted {x : Nat} {s : State} (hready : s.engine = .ready) (hx : x < s.tree.count)
    (hk : (s.tree.node x).kind = .ordinary ∨ (s.tree.node x).kind = .endMarker) (n : Nat) :
    Counted s (decodeKnown x n s) := by
  unfold decodeKnown
  cases hmax : s.atMaxWeight with
  | true => exact .raiseFault _
  | false =>
    rw [if_neg (by simp)]
    dsimp only
    split
    · next hend =>
      have hend' : (s.tree.node x).kind = .endMarker := (s.tree.label_update s.params x x).1.symm.trans hend
      exact .known x _ (State.answered_respond _ _) rfl hready hmax hx hk fun _ => hend'
    · exact .known x _ (State.answered_respond _ _) rfl hready hmax hx hk nofun

theorem decodeAtLeaf_counted {x n : Nat} {s t : State} (hready : s.engine = .ready) (hx : x < s.tree.count)
    (hleaf : s.tree.isLeaf x = true) (h : decodeAtLeaf x n s = .done t) : Counted s t := by
  obtain ⟨-, ⟨-, e⟩ | ⟨ls, -, e⟩ | ⟨l, ls, -, e⟩⟩ | ⟨hesc, e⟩ := decodeAtLeaf_cases x n s
  all_goals rw [e] at h; cases h
  · exact .raiseFault _
  · exact (decodeLiteral_counted l n _).of_same rfl rfl rfl
  · have hk := CodeTree.kind_of_isLeaf hleaf hesc
    exact (decodeKnown_counted (s := s.consumeBits n) hready hx hk n).of_same rfl rfl rfl

theorem decodeFn_counted {s t : State} (h : decodeFn s = .done t) : Counted s t := by
  obtain ⟨-, e⟩ | ⟨-, -, e⟩ | ⟨hready, hwf, ⟨-, e⟩ | ⟨n, -, e⟩ | ⟨n, -, e⟩ | ⟨x, n, hw, e⟩⟩ := decodeFn_cases s
  all_goals rw [e] at h
  · cases h; exact .raiseReject s _
  · cases h; exact .raiseFault _
  · cases h
  · cases h; exact .raiseFault _
  · cases h; exact .raiseFault _
  · have hroot : ROOT < s.tree.count := Nat.lt_of_lt_of_le Nat.zero_lt_two hwf.two_le_count
    obtain ⟨hx, hleaf⟩ := CodeTree.walk_leaf hwf.childrenOk hroot hw
    exact decodeAtLeaf_counted hready hx hleaf h

/-! ### Every command but INIT -/

/-- A command other than INIT that does not hold counts one occurrence or none. -/
theorem exec_counted {i : Instr} {s t : State} (hi : i ≠ .init) (hholds : holds i s = false) (h : exec i s = .next t) :
    Counted s t := by
  cases i with
  | nop => cases h; exact .respond s rfl
  | init => exact absurd rfl hi
  | encode => cases h; exact encodeKey_counted _ s
  | encodeNull => cases h; exact encodeKey_counted _ s
  | decode =>
    obtain ⟨u, hd⟩ := (holds_decode_eq_false_iff s).1 hholds
    cases (exec_decode_of_done hd).symm.trans h
    exact decodeFn_counted hd
  | readReg n =>
    obtain ⟨-, e⟩ | ⟨v, -, e⟩ := execReadReg_cases n s
    · cases e.symm.trans h; exact .raiseReject s _
    · cases e.symm.trans h; exact .respond s rfl
  | readNode k =>
    obtain ⟨-, e⟩ | ⟨-, e⟩ := execReadNode_cases k s
    · cases e.symm.trans h; exact .respond s rfl
    · cases e.symm.trans h; exact .raiseReject s _

/-! ## The root's weight -/

/-- Under the invariant a result is a count at the root, but for the end of the stream, which leaves the tree. -/
theorem Counted.weight_root {s t : State} (h : Counted s t) (hinv : Inv s) {r : Response} (hr : t.Answered r) :
    (r.result ∈ [1#4, 2#4, 3#4, 4#4] → (t.tree.node ROOT).weight = (s.tree.node ROOT).weight + 1) ∧
    (r.result = 5#4 → t.tree = s.tree) := by
  cases h with
  | same q hq htree hres =>
    obtain rfl := hq.unique hr
    refine ⟨fun hmem => ?_, fun _ => htree⟩
    obtain h0 | h5 := hres
    · rw [h0] at hmem; exact absurd hmem (by decide)
    · rw [h5] at hmem; exact absurd hmem (by decide)
  | known leaf q hq htree hready hmax hleaf hkind hres =>
    obtain rfl := hq.unique hr
    have hlt := State.weight_lt_of_atMaxWeight hmax hinv.rootFits
    obtain ⟨hpend, hord⟩ := hinv.wf.pending hinv.third hleaf hkind
    obtain ⟨-, -, hroot, -⟩ := hpend.update_spec hord hlt
    have hnoEnd : (s.tree.node leaf).kind ≠ .endMarker := hinv.noEnd (by simp [hready]) leaf hleaf
    exact ⟨fun _ => htree ▸ hroot, fun h5 => absurd (hres h5) hnoEnd⟩
  | grown key q hq htree hnew hmax hres =>
    obtain rfl := hq.unique hr
    have hlt := State.weight_lt_of_atMaxWeight hmax hinv.rootFits
    obtain ⟨hpend, hord, hweight⟩ := hinv.wf.pending_add hnew
    obtain ⟨-, -, hroot, -⟩ := hpend.update_spec (P := s.params) hord (hweight ▸ hlt)
    exact ⟨fun _ => by rw [htree, grownTree, hroot, hweight], fun h5 => absurd h5 hres⟩

/-- Settles O58: INIT answers no result, and every other command counts what its result says. -/
theorem rootWeightCountsSymbols : Obligations.RootWeightCountsSymbols := by
  intro i s t r hinv hholds h hr _
  by_cases hi : i = .init
  · subst hi
    cases h
    rw [← (State.answered_respond _ _).unique hr]
    exact ⟨fun hmem => absurd hmem (by decide), nofun⟩
  · exact (exec_counted hi hholds h).weight_root hinv hr

/-! ## Node indices -/

/-- A command other than INIT keeps the labels of the entries that were there, and adds those a key needs
(10_state.md R30, 42_tree_growth.md R143). -/
theorem Counted.keeps_labels {s t : State} (h : Counted s t) :
    (t.tree.count = s.tree.count ∨ t.tree.count = s.tree.count + s.tree.need) ∧
    ∀ j < s.tree.count, (t.tree.node j).kind = (s.tree.node j).kind ∧ (t.tree.node j).sym = (s.tree.node j).sym := by
  cases h with
  | same _ _ htree => rw [htree]; exact ⟨.inl rfl, fun _ _ => ⟨rfl, rfl⟩⟩
  | known leaf _ _ htree =>
    rw [htree]
    exact ⟨.inl (CodeTree.count_update _ _ _), fun j _ => s.tree.label_update s.params leaf j⟩
  | grown key _ _ htree =>
    rw [htree, grownTree, CodeTree.count_update, CodeTree.count_add]
    refine ⟨.inr rfl, fun j hj => ?_⟩
    obtain ⟨hkind, hsym⟩ := (s.tree.add key).label_update s.params s.tree.addedLeaf j
    obtain ⟨hkind', hsym'⟩ := s.tree.label_add_of_lt key hj
    exact ⟨hkind.trans hkind', hsym.trans hsym'⟩

/-- Settles O20: a held command changes nothing, and one that runs keeps the labels, on which `Lookup` depends. -/
theorem nodesAreStableUntilInit : Obligations.NodesAreStableUntilInit := by
  intro i s t hi h
  cases hholds : holds i s with
  | true =>
    obtain rfl := eq_decode_of_holds hholds
    cases (exec_decode_of_needMore ((holds_decode_iff s).1 hholds)).symm.trans h
    exact ⟨.inl rfl, fun _ _ => ⟨rfl, rfl⟩, fun _ _ hl => hl⟩
  | false =>
    obtain ⟨hcount, hlabel⟩ := (exec_counted hi hholds h).keeps_labels
    exact ⟨hcount, hlabel, fun key leaf => CodeTree.lookup_eq_some_of_labels (by omega) hlabel⟩

end Sys2Proof.Machine
end

section
/-! The walk of a DECODE: along a code, and what it reads. -/
namespace Sys2Proof.Machine

/-! ## Along a code -/

/-- The last edge of a path that `pathWithin` finds, if it has one. -/
theorem CodeTree.pathWithin_succ_cases (t : CodeTree) {f i : Nat} {bs : List Bool}
    (h : t.pathWithin (f + 1) i = some bs) :
    (i = ROOT ∧ bs = []) ∨
    ∃ p b bs', (t.node i).parent = some p ∧ t.child p b = some i ∧ t.pathWithin f p = some bs' ∧ bs = bs' ++ [b] := by
  rw [CodeTree.pathWithin] at h
  split at h
  · next hi => cases h; exact .inl ⟨hi, rfl⟩
  · right
    split at h
    · cases h
    · next p hp =>
      split at h
      · next hl =>
        obtain ⟨bs', hbs', rfl⟩ := Option.map_eq_some_iff.1 h
        exact ⟨p, false, bs', hp, hl, hbs', rfl⟩
      · split at h
        · next hh =>
          obtain ⟨bs', hbs', rfl⟩ := Option.map_eq_some_iff.1 h
          exact ⟨p, true, bs', hp, hh, hbs', rfl⟩
        · cases h

namespace CodeTree.WF
variable {t : CodeTree} (h : t.WF)
include h

/-- A node with a child is internal (10_state.md R40). -/
theorem isLeaf_of_child {p c : Nat} {b : Bool} (hp : p < t.count) (hc : t.child p b = some c) : t.isLeaf p = false := by
  obtain ⟨-, -, -, -, ⟨-, -, hkind⟩, -⟩ := h
  have hint : (t.node p).kind = .internal := (hkind p hp).2 fun ⟨hl, hh⟩ => by
    cases b <;> simp [CodeTree.child, hl, hh] at hc
  simp [CodeTree.isLeaf, hint]

theorem parent_lt {i p : Nat} (hi : i < t.count) (hp : (t.node i).parent = some p) : p < t.count := by
  obtain ⟨-, ⟨hroot, hparent⟩, -⟩ := h
  have hr : i ≠ ROOT := by rintro rfl; simp [hroot] at hp
  obtain ⟨q, hq, e, -⟩ := hparent i hi hr
  obtain rfl : q = p := by simpa [e] using hp
  exact hq

theorem esc_lt : ESC < t.count := h.two_le_count

theorem kind_esc : (t.node ESC).kind = .escape := by
  obtain ⟨-, -, -, -, -, ⟨hesc, hescape⟩, -⟩ := h
  exact (hescape ESC hesc).2 rfl

/-- Every allocated node of a well-formed tree has a path, so `PathTo` is never the free value (log 5). -/
theorem pathWithin_count {i : Nat} (hi : i < t.count) : t.pathWithin t.count i = some (t.pathTo i) := by
  obtain h2 | h3 : t.count = 2 ∨ 3 ≤ t.count := by have := h.two_le_count; omega
  · obtain ⟨a, b, rfl⟩ := h.eq_twoNodes h2
    have hi' : i < 2 := hi
    obtain rfl | rfl : i = 0 ∨ i = 1 := by omega
    · rfl
    · rfl
  · obtain ⟨bs, hbs, -⟩ := (h.shape h3).exists_path t.count i hi (by omega)
    rw [hbs, CodeTree.pathTo_of_pathWithin hbs]

theorem walk_pathWithin {f i : Nat} {bs : List Bool} (hi : i < t.count) (hbs : t.pathWithin f i = some bs) (n : Nat)
    (rest : List BitToken) : t.walk ROOT n (bitTokens bs ++ rest) = t.walk i (n + bs.length) rest :=
  t.walk_along_path (fun _ hp _ _ => h.isLeaf_of_child hp) (fun _ hj _ => h.parent_lt hj) f i bs hi hbs n rest

/-- The bits of `PathTo(i)` lead the walk from the root to `i` (41_decode.md R122). -/
theorem walk_pathTo {i : Nat} (hi : i < t.count) (n : Nat) (rest : List BitToken) :
    t.walk ROOT n (bitTokens (t.pathTo i) ++ rest) = t.walk i (n + (t.pathTo i).length) rest :=
  h.walk_pathWithin hi (h.pathWithin_count hi) n rest

/-- The code of a leaf is read to its last bit and no further. -/
theorem walk_leaf_code {x : Nat} (hx : x < t.count) (hleaf : t.isLeaf x = true) (rest : List BitToken) :
    t.walk ROOT 0 (bitTokens (t.pathTo x) ++ rest) = .leaf x (t.pathTo x).length := by
  rw [h.walk_pathTo hx, t.walk_of_leaf hleaf, Nat.zero_add]

theorem walk_escape_code (rest : List BitToken) :
    t.walk ROOT 0 (bitTokens (t.pathTo ESC) ++ rest) = .leaf ESC (t.pathTo ESC).length :=
  h.walk_leaf_code h.esc_lt (by simp [CodeTree.isLeaf, h.kind_esc]) rest

/-- Where a path goes on, what comes before is the path of an internal node. -/
theorem exists_path_of_pathWithin_append {f i : Nat} {q q' : List Bool} {b : Bool} (hi : i < t.count)
    (hpath : t.pathWithin f i = some (q ++ b :: q')) :
    ∃ g p, p < t.count ∧ t.isLeaf p = false ∧ t.pathWithin g p = some q := by
  induction f generalizing i q' with
  | zero =>
    rw [CodeTree.pathWithin] at hpath
    split at hpath
    · simp at hpath
    · cases hpath
  | succ f ih =>
    obtain ⟨-, e⟩ | ⟨p, c, bs, hp, hc, hbs, e⟩ := t.pathWithin_succ_cases hpath
    · simp at e
    · have hplt := h.parent_lt hi hp
      obtain rfl | ⟨q'', c', rfl⟩ := q'.eq_nil_or_concat
      · obtain ⟨rfl, -⟩ := List.append_inj' e rfl
        exact ⟨f, p, hplt, h.isLeaf_of_child hplt hc, hbs⟩
      · obtain ⟨rfl, -⟩ : q ++ b :: q'' = bs ∧ [c'] = [c] := List.append_inj' (by simpa using e) rfl
        exact ih hplt hbs

/-- The first bits of a path that goes on leave the walk at an internal node. -/
theorem walk_of_pathTo_append {x : Nat} {q q' : List Bool} {b : Bool} (hx : x < t.count) (hpath : t.pathTo x = q ++ b :: q') :
    ∃ p, t.isLeaf p = false ∧ ∀ rest, t.walk ROOT 0 (bitTokens q ++ rest) = t.walk p q.length rest := by
  obtain ⟨g, p, hp, hint, hq⟩ := h.exists_path_of_pathWithin_append hx ((h.pathWithin_count hx).trans (congrArg some hpath))
  exact ⟨p, hint, fun rest => by rw [h.walk_pathWithin hp hq, Nat.zero_add]⟩

end CodeTree.WF

/-! ## What the walk reads -/

/-- The number of bits read by a walk that ends (41_decode.md R121). -/
def Walk.bitsRead : Walk → Option Nat
  | .needMore      => none
  | .endOfStream n => some n
  | .emptySlot n   => some n
  | .leaf _ n      => some n

/-- A walk that ends has read bits, never EOS, and looks at no token behind the one it ends at. -/
theorem CodeTree.walk_of_bitsRead (t : CodeTree) {x n m : Nat} {toks : List BitToken}
    (h : (t.walk x n toks).bitsRead = some m) :
    (∃ bs rest, toks = bitTokens bs ++ rest ∧ m = n + bs.length) ∧
    ∀ more, t.walk x n (toks ++ more) = t.walk x n toks := by
  induction toks generalizing x n with
  | nil =>
    by_cases hleaf : t.isLeaf x = true
    · rw [t.walk_of_leaf hleaf] at h
      cases h
      exact ⟨⟨[], [], rfl, rfl⟩, fun more => by rw [t.walk_of_leaf hleaf, t.walk_of_leaf hleaf]⟩
    · simp [CodeTree.walk, hleaf, Walk.bitsRead] at h
  | cons tok toks ih =>
    by_cases hleaf : t.isLeaf x = true
    · rw [t.walk_of_leaf hleaf] at h
      cases h
      exact ⟨⟨[], _, rfl, rfl⟩, fun more => by rw [t.walk_of_leaf hleaf, t.walk_of_leaf hleaf]⟩
    · cases tok with
      | eos =>
        obtain rfl : n = m := by simpa [CodeTree.walk, hleaf, Walk.bitsRead] using h
        exact ⟨⟨[], _, rfl, rfl⟩, fun more => by simp [CodeTree.walk]⟩
      | bit b =>
        cases hc : t.child x b with
        | none =>
          obtain rfl : n + 1 = m := by simpa [CodeTree.walk, hleaf, hc, Walk.bitsRead] using h
          exact ⟨⟨[b], _, rfl, rfl⟩, fun more => by simp [CodeTree.walk, hc]⟩
        | some c =>
          have hint : t.isLeaf x = false := by simpa using hleaf
          rw [t.walk_of_bit hint hc] at h ⊢
          obtain ⟨⟨bs, rest, rfl, rfl⟩, hmore⟩ := ih h
          refine ⟨⟨b :: bs, rest, rfl, by rw [List.length_cons]; omega⟩, fun more => ?_⟩
          rw [List.cons_append, t.walk_of_bit hint hc, hmore]

/-- With EOS among its tokens a walk never runs out of them (20_memory.md R65). -/
theorem CodeTree.walk_ne_needMore_of_eos (t : CodeTree) {x n : Nat} {toks : List BitToken} (h : .eos ∈ toks) :
    t.walk x n toks ≠ .needMore := by
  induction toks generalizing x n with
  | nil => cases h
  | cons tok toks ih =>
    by_cases hleaf : t.isLeaf x = true
    · rw [t.walk_of_leaf hleaf]
      nofun
    · cases tok with
      | eos => simp [CodeTree.walk, hleaf]
      | bit b =>
        cases hc : t.child x b with
        | none => simp [CodeTree.walk, hleaf, hc]
        | some c =>
          rw [t.walk_of_bit (by simpa using hleaf) hc]
          exact ih (by simpa using h)

/-- The bits at the head of BIT_IN are read (20_memory.md R65). -/
theorem State.consumeBits_eq_bitsRead {s : State} {bs : List Bool} {rest : List BitToken}
    (h : s.bitIn = bitTokens bs ++ rest) : s.consumeBits bs.length = s.bitsRead bs rest := by
  have hlen : bs.length = (bitTokens bs).length := (List.length_map _).symm
  rw [State.consumeBits, h, hlen, List.drop_left, List.take_left, bitTokens, List.map_map]
  rfl

end Sys2Proof.Machine
end

section
/-! DECODE case by case, forwards, and when it holds. -/
namespace Sys2Proof.Machine

theorem decodeFn_of_not_ready {s : State} (hready : s.engine ≠ .ready) :
    decodeFn s = .done (s.raiseReject .notReady) := by simp [decodeFn, hready]

theorem decodeFn_of_not_wf {s : State} (hready : s.engine = .ready) (hwf : ¬ s.tree.WF) :
    decodeFn s = .done (s.raiseFault .corruptTree) := by
  simp [decodeFn, hready, s.tree.wf_eq_false_iff.2 hwf]

section Walks
variable {s : State} (hready : s.engine = .ready) (hwf : s.tree.WF) {n : Nat}
include hready hwf

theorem decodeFn_of_endOfStream (hwalk : s.tree.walk ROOT 0 s.bitIn = .endOfStream n) :
    decodeFn s = .done ((s.consumeBits n).readBitEos.raiseFault .truncatedStream) := by
  simp [decodeFn, hready, s.tree.wf_iff.2 hwf, hwalk]

theorem decodeFn_of_emptySlot (hwalk : s.tree.walk ROOT 0 s.bitIn = .emptySlot n) :
    decodeFn s = .done ((s.consumeBits n).raiseFault .corruptTree) := by
  simp [decodeFn, hready, s.tree.wf_iff.2 hwf, hwalk]

theorem decodeFn_of_leaf {x : Nat} (hwalk : s.tree.walk ROOT 0 s.bitIn = .leaf x n) :
    decodeFn s = decodeAtLeaf x n s := by
  simp [decodeFn, hready, s.tree.wf_iff.2 hwf, hwalk]

end Walks

theorem decodeAtLeaf_of_known {s : State} {x : Nat} (hk : (s.tree.node x).kind ≠ .escape) (n : Nat) :
    decodeAtLeaf x n s = .done (decodeKnown x n (s.consumeBits n)) := by
  obtain ⟨he, -⟩ | ⟨-, h⟩ := decodeAtLeaf_cases x n s
  · exact absurd he hk
  · exact h

theorem decodeAtLeaf_of_eos {s : State} {x : Nat} {ls : List LitToken} (hk : (s.tree.node x).kind = .escape)
    (hl : s.litIn = .eos :: ls) (n : Nat) :
    decodeAtLeaf x n s = .done ((s.consumeBits n).readLitEos.raiseFault .truncatedFallback) := by
  simp [decodeAtLeaf, decodeEscape, hk, hl]

theorem decodeAtLeaf_of_literal {s : State} {x : Nat} {l : Literal} {ls : List LitToken}
    (hk : (s.tree.node x).kind = .escape) (hl : s.litIn = .lit l :: ls) (n : Nat) :
    decodeAtLeaf x n s = .done (decodeLiteral l n ((s.consumeBits n).consumeLit l)) := by
  simp [decodeAtLeaf, decodeEscape, hk, hl]

section Known
variable {s : State} {x n : Nat}

theorem decodeKnown_of_atMaxWeight (hmax : s.atMaxWeight = true) :
    decodeKnown x n s = s.raiseFault .weightOverflow := if_pos hmax

/-- The end-marker leaf ends the stream (41_decode.md R127); the pass keeps its kind. -/
theorem decodeKnown_of_endMarker (hmax : s.atMaxWeight = false) (hk : (s.tree.node x).kind = .endMarker) :
    decodeKnown x n s = decodeEnd n (s.setTree (CodeTree.update s.params s.tree x)) := by
  simp [decodeKnown, hmax, (s.tree.label_update s.params x x).1, hk]

/-- A leaf that is no end marker gives its symbol (41_decode.md R121), which the pass keeps. -/
theorem decodeKnown_of_symbol (hmax : s.atMaxWeight = false) (hk : (s.tree.node x).kind ≠ .endMarker) :
    decodeKnown x n s = ((s.setTree (CodeTree.update s.params s.tree x)).setResult .decKnown n).respond
      (.okDecode .decKnown n { kind := .ord, value := (s.tree.node x).sym }) := by
  simp [decodeKnown, hmax, (s.tree.label_update s.params x x).1, (s.tree.label_update s.params x x).2]

end Known

/-- When DECODE holds (41_decode.md R132): the bits end within a code, or no literal follows the escape code. -/
theorem decodeFn_eq_needMore_iff (s : State) :
    decodeFn s = .needMore ↔ s.engine = .ready ∧ s.tree.WF ∧
      (s.tree.walk ROOT 0 s.bitIn = .needMore ∨
       ∃ x n, s.tree.walk ROOT 0 s.bitIn = .leaf x n ∧ (s.tree.node x).kind = .escape ∧ s.litIn = []) := by
  obtain ⟨hne, h⟩ | ⟨-, hwf, h⟩ | ⟨hready, hwf, ⟨hw, h⟩ | ⟨n, hw, h⟩ | ⟨n, hw, h⟩ | ⟨x, n, hw, h⟩⟩ := decodeFn_cases s
  · simp [h, hne]
  · simp [h, hwf]
  · simp [h, hready, hwf, hw]
  · simp [h, hw]
  · simp [h, hw]
  · obtain ⟨hk, ⟨hl, e⟩ | ⟨ls, hl, e⟩ | ⟨l, ls, hl, e⟩⟩ | ⟨hk, e⟩ := decodeAtLeaf_cases x n s
    · simp [h, e, hready, hwf, hw, hk, hl]
    · simp [h, e, hw, hl]
    · simp [h, e, hw, hl]
    · simp [h, e, hw, hk]

/-- Whether DECODE holds rests on REG.STATE, the tree and the inputs alone. -/
theorem holds_decode_congr {s t : State} (hengine : t.engine = s.engine) (htree : t.tree = s.tree)
    (hbits : t.bitIn = s.bitIn) (hlits : t.litIn = s.litIn) : holds .decode t = holds .decode s := by
  rw [Bool.eq_iff_iff, holds_decode_iff, holds_decode_iff, decodeFn_eq_needMore_iff, decodeFn_eq_needMore_iff, hengine,
    htree, hbits, hlits]

theorem holds_of_needMore {s : State} (h : decodeFn s = .needMore) : holds .decode s = true ∧ exec .decode s = .next s :=
  ⟨(holds_decode_iff s).2 h, exec_decode_of_needMore h⟩

/-- Settles O29: the walk stands at an internal node with no bits left, or at the escape with no literal. -/
theorem decodeHoldsOnAnEmptyInput : Obligations.DecodeHoldsOnAnEmptyInput := by
  refine fun s hready hwf => ⟨fun x q q' b hx hpath hbits => ?_, fun rest hbits hlits => ?_⟩
  · obtain ⟨p, hint, hwalk⟩ := hwf.walk_of_pathTo_append hx hpath
    have hempty : s.tree.walk ROOT 0 s.bitIn = .needMore := by
      have := hwalk []
      rw [List.append_nil, ← hbits] at this
      simp [this, CodeTree.walk, hint]
    exact holds_of_needMore ((decodeFn_eq_needMore_iff s).2 ⟨hready, hwf, .inl hempty⟩)
  · have hwalk := hwf.walk_escape_code rest
    rw [← hbits] at hwalk
    exact holds_of_needMore ((decodeFn_eq_needMore_iff s).2 ⟨hready, hwf, .inr ⟨_, _, hwalk, hwf.kind_esc, hlits⟩⟩)

/-- Settles O30: DECODE alone holds, for want of a bit or of a literal, and EOS stands for both. -/
theorem eosLiftsEveryHold : Obligations.EosLiftsEveryHold := by
  intro i s h
  by_contra hholds
  have hholds : holds i s = true := by simpa using hholds
  obtain rfl := eq_decode_of_holds hholds
  obtain ⟨hbits, hlits⟩ := h.resolve_left (· rfl)
  obtain ⟨-, -, hw | ⟨-, -, -, -, hnil⟩⟩ := (decodeFn_eq_needMore_iff s).1 ((holds_decode_iff s).1 hholds)
  · exact s.tree.walk_ne_needMore_of_eos hbits hw
  · rw [hnil] at hlits
    cases hlits

/-! ## EOS -/

/-- Settles O24: the walk meets EOS at the internal node that the bits before it lead to. -/
theorem eosInTheWalkIsTruncatedStream : Obligations.EosInTheWalkIsTruncatedStream := by
  intro s x q q' b rest hready hwf hx hpath hbits
  obtain ⟨p, hint, hwalk⟩ := hwf.walk_of_pathTo_append hx hpath
  have heos : s.tree.walk ROOT 0 s.bitIn = .endOfStream q.length := by
    rw [hbits, hwalk]
    simp [CodeTree.walk, hint]
  rw [exec_decode_of_done (decodeFn_of_endOfStream hready hwf heos), State.consumeBits_eq_bitsRead hbits]
  rfl

/-- Settles O25: the walk ends at the escape leaf, where LIT_IN answers EOS. -/
theorem eosAsLiteralIsTruncatedFallback : Obligations.EosAsLiteralIsTruncatedFallback := by
  intro s rest ls hready hwf hbits hlits
  have hwalk := hwf.walk_escape_code rest
  rw [← hbits] at hwalk
  rw [exec_decode_of_done ((decodeFn_of_leaf hready hwf hwalk).trans (decodeAtLeaf_of_eos hwf.kind_esc hlits _)),
    State.consumeBits_eq_bitsRead hbits]
  rfl

/-! ## The host's turn during a hold -/

/-- Settles O8: a held DECODE leaves the step to the host, and only an append touches what the hold rests on. -/
theorem hostActionsLandWhileHeld : Obligations.HostActionsLandWhileHeld := by
  intro s w es hw hd hh
  obtain ⟨-, -, hturn⟩ := (stepRunsTheDecodedCommand s w .decode hw hd).2 hh
  have hact : ∀ {e es'}, s.host = e :: es' → step s = hostAction e { s with host := es' } := fun h => by
    rw [hturn, hostTurn, h]
  refine ⟨fun h => by rw [hturn, hostTurn, h], fun b h => hact h, fun l h => hact h, fun b bs hb h => ?_,
    fun l ls hl h => ?_, fun w' v h => ?_, ?_, fun h => ?_, fun t ht hcmd hlift => ?_⟩
  · rw [hact h, hostAction, hb, List.tail_cons]
  · rw [hact h, hostAction, hl, List.tail_cons]
  · simp [hact h, hostAction, hw]
  · rintro (h | h) <;> simp [hact h, hostAction, whenIdle, hw]
  · exact ⟨_, hact h, State.fresh_hardwareReset _, rfl, ⟨rfl, rfl, rfl, rfl, rfl, rfl⟩, rfl, rfl,
      State.responses_hardwareReset _⟩
  · have hkept : holds .decode t ≠ holds .decode s := by simp [hlift, hh]
    obtain ⟨-, e⟩ | ⟨a, es', ha, e⟩ := hostTurn_cases s
    · obtain rfl : s = t := by simpa [hturn, e] using ht
      exact absurd rfl hkept
    · rw [hturn, e] at ht
      obtain ⟨b, rfl, -⟩ | ⟨l, rfl, -⟩ | ⟨-, rfl⟩ | ⟨-, rfl⟩ | ⟨-, rfl⟩ := hostAction_in_flight (by simp [hw]) ht
      · exact ⟨es', .inl ⟨b, ha⟩⟩
      · exact ⟨es', .inr ⟨l, ha⟩⟩
      · exact (hkept (holds_decode_congr rfl rfl rfl rfl)).elim
      · exact (hkept (holds_decode_congr rfl rfl rfl rfl)).elim
      · simp [hw] at hcmd

end Sys2Proof.Machine
end

section
/-! Tokens behind those a DECODE reads. -/
namespace Sys2Proof.Machine

/-- `s` with more tokens behind those of its two inputs (70_reset_and_hazards.md R249). -/
def State.withMore (s : State) (xs : List BitToken) (ys : List LitToken) : State :=
  { s with bitIn := s.bitIn ++ xs, litIn := s.litIn ++ ys }

section WithMore
variable (s : State) (xs : List BitToken) (ys : List LitToken)

theorem State.withMore_consumeBits {n : Nat} (hn : n ≤ s.bitIn.length) :
    (s.withMore xs ys).consumeBits n = (s.consumeBits n).withMore xs ys := by
  simp [State.withMore, State.consumeBits, List.drop_append_of_le_length hn, List.take_append_of_le_length hn]

theorem State.withMore_consumeLit (l : Literal) (hne : s.litIn ≠ []) :
    (s.withMore xs ys).consumeLit l = (s.consumeLit l).withMore xs ys := by
  simp [State.withMore, State.consumeLit, List.tail_append_of_ne_nil hne]

theorem decodeNew_withMore (key : Key) (n : Nat) :
    decodeNew key n (s.withMore xs ys) = (decodeNew key n s).withMore xs ys := by
  simp only [decodeNew, apply_ite (State.withMore · xs ys)]
  rfl

theorem decodeLiteral_withMore (l : Literal) (n : Nat) :
    decodeLiteral l n (s.withMore xs ys) = (decodeLiteral l n s).withMore xs ys := by
  unfold decodeLiteral
  cases l.kind with
  | endMark => rfl
  | ord => exact decodeNew_withMore s xs ys _ n

theorem decodeKnown_withMore (x n : Nat) :
    decodeKnown x n (s.withMore xs ys) = (decodeKnown x n s).withMore xs ys := by
  cases hmax : s.atMaxWeight with
  | true =>
    rw [decodeKnown_of_atMaxWeight hmax, decodeKnown_of_atMaxWeight (s := s.withMore xs ys) hmax]
    rfl
  | false =>
    by_cases hk : (s.tree.node x).kind = .endMarker
    · rw [decodeKnown_of_endMarker hmax hk, decodeKnown_of_endMarker (s := s.withMore xs ys) hmax hk]
      rfl
    · rw [decodeKnown_of_symbol hmax hk, decodeKnown_of_symbol (s := s.withMore xs ys) hmax hk]
      rfl

theorem decodeAtLeaf_withMore {x n : Nat} {t : State} (hn : n ≤ s.bitIn.length) (h : decodeAtLeaf x n s = .done t) :
    decodeAtLeaf x n (s.withMore xs ys) = .done (t.withMore xs ys) := by
  obtain ⟨hk, ⟨-, e⟩ | ⟨ls, hl, e⟩ | ⟨l, ls, hl, e⟩⟩ | ⟨hk, e⟩ := decodeAtLeaf_cases x n s
  all_goals rw [e] at h; cases h
  · rw [decodeAtLeaf_of_eos (s := s.withMore xs ys) hk (congrArg (· ++ ys) hl), s.withMore_consumeBits xs ys hn]
    rfl
  · rw [decodeAtLeaf_of_literal (s := s.withMore xs ys) hk (congrArg (· ++ ys) hl), s.withMore_consumeBits xs ys hn,
      State.withMore_consumeLit _ _ _ _ (by simp [hl]), decodeLiteral_withMore]
  · rw [decodeAtLeaf_of_known (s := s.withMore xs ys) hk, s.withMore_consumeBits xs ys hn, decodeKnown_withMore]

end WithMore

/-- Settles O31: the walk and the literal's read look at no later token, and the rest of a DECODE reads none. -/
theorem decodeIgnoresLaterTokens : Obligations.DecodeIgnoresLaterTokens := by
  intro s t xs ys h
  change decodeFn (s.withMore xs ys) = .done (t.withMore xs ys)
  have hwalk : ∀ {m}, (s.tree.walk ROOT 0 s.bitIn).bitsRead = some m → m ≤ s.bitIn.length ∧
      s.tree.walk ROOT 0 (s.bitIn ++ xs) = s.tree.walk ROOT 0 s.bitIn := fun hm => by
    obtain ⟨⟨bs, rest, hbits, rfl⟩, hmore⟩ := s.tree.walk_of_bitsRead hm
    exact ⟨by simp [hbits, bitTokens], hmore xs⟩
  obtain ⟨hne, e⟩ | ⟨hready, hwf, e⟩ | ⟨hready, hwf, ⟨-, e⟩ | ⟨n, hw, e⟩ | ⟨n, hw, e⟩ | ⟨x, n, hw, e⟩⟩ := decodeFn_cases s
  all_goals rw [e] at h
  · cases h
    exact decodeFn_of_not_ready hne
  · cases h
    exact decodeFn_of_not_wf hready hwf
  · cases h
  · cases h
    obtain ⟨hn, hsame⟩ := hwalk (congrArg Walk.bitsRead hw)
    rw [decodeFn_of_endOfStream (s := s.withMore xs ys) hready hwf (hsame.trans hw), s.withMore_consumeBits xs ys hn]
    rfl
  · cases h
    obtain ⟨hn, hsame⟩ := hwalk (congrArg Walk.bitsRead hw)
    rw [decodeFn_of_emptySlot (s := s.withMore xs ys) hready hwf (hsame.trans hw), s.withMore_consumeBits xs ys hn]
    rfl
  · obtain ⟨hn, hsame⟩ := hwalk (congrArg Walk.bitsRead hw)
    rw [decodeFn_of_leaf (s := s.withMore xs ys) hready hwf (hsame.trans hw)]
    exact decodeAtLeaf_withMore s xs ys hn h

end Sys2Proof.Machine
end

section
/-! Growth registers the key. -/
namespace Sys2Proof.Machine

/-- The new leaf carries its key. -/
theorem carries_newLeaf (key : Key) (p : Nat) : carries key (newLeaf key p) = true := by
  unfold carries newLeaf
  cases key.kind <;> simp

/-- The new leaf carries no key but its own; an end marker carries every key of its kind (00_scope.md R16). -/
theorem not_carries_newLeaf {key key' : Key} (p : Nat)
    (hne : key'.kind ≠ key.kind ∨ (key.kind = .ord ∧ key'.value ≠ key.value)) :
    carries key' (newLeaf key p) = false := by
  unfold carries newLeaf
  cases hk : key.kind with
  | ord =>
    cases hk' : key'.kind with
    | ord =>
      have hvalue : key'.value ≠ key.value := by simpa [hk, hk'] using hne
      simp [hvalue.symm]
    | endMark => rfl
  | endMark =>
    cases hk' : key'.kind with
    | ord => rfl
    | endMark => simp [hk, hk'] at hne

theorem not_carries_of_internal {key : Key} {nd : Node} (hk : nd.kind = .internal) : carries key nd = false := by
  unfold carries
  cases key.kind <;> simp [hk]

/-- Case A writes no label but the new leaf's (42_tree_growth.md R141). -/
theorem CodeTree.label_addBesideEscape (t : CodeTree) (key : Key) (i : Nat) :
    ((t.addBesideEscape key).node i).kind = ((t.allocate [newLeaf key t.escParent]).node i).kind ∧
    ((t.addBesideEscape key).node i).sym = ((t.allocate [newLeaf key t.escParent]).node i).sym :=
  (t.allocate [newLeaf key t.escParent]).label_modifyNode t.escParent
    (fun nd => { nd with high := some t.count }) (fun _ => ⟨rfl, rfl⟩) i

/-- Case B writes no label but those of an internal node and of the new leaf (42_tree_growth.md R142). -/
theorem CodeTree.label_addBelowParent (t : CodeTree) (key : Key) : ∃ m : Node, m.kind = .internal ∧ ∀ i,
    ((t.addBelowParent key).node i).kind = ((t.allocate [m, newLeaf key t.count]).node i).kind ∧
    ((t.addBelowParent key).node i).sym = ((t.allocate [m, newLeaf key t.count]).node i).sym := by
  refine ⟨⟨.internal, 0#64, (t.node ESC).weight, some ESC, some (t.count + 1), some t.escParent⟩, rfl, fun i => ?_⟩
  obtain ⟨hkind, hsym⟩ := CodeTree.label_setParent _ ESC (some t.count) i
  obtain ⟨hkind', hsym'⟩ := CodeTree.label_modifyNode (t.allocate _) t.escParent
    (fun nd => if nd.low = some ESC then { nd with low := some t.count } else { nd with high := some t.count })
    (fun nd => by split <;> exact ⟨rfl, rfl⟩) i
  exact ⟨hkind.trans hkind', hsym.trans hsym'⟩

/-- The entries growth allocates are the new leaf and, before it, an internal node (42_tree_growth.md R143). -/
theorem CodeTree.label_add_of_le (t : CodeTree) (key : Key) {i : Nat} (hi : t.count ≤ i) (hi' : i < (t.add key).count) :
    (i = t.addedLeaf ∧ ∃ p, ((t.add key).node i).kind = (newLeaf key p).kind ∧
      ((t.add key).node i).sym = (newLeaf key p).sym) ∨
    (i ≠ t.addedLeaf ∧ ((t.add key).node i).kind = .internal) := by
  rw [CodeTree.count_add] at hi'
  unfold CodeTree.addedLeaf CodeTree.add
  unfold CodeTree.need at hi' ⊢
  by_cases hslot : t.hasEmptySlot = true
  · rw [if_pos hslot] at hi'
    obtain rfl : i = t.count := by omega
    have hlabel := t.label_addBesideEscape key t.count
    rw [t.node_allocate, if_neg (lt_irrefl _), Nat.sub_self] at hlabel
    rw [if_pos hslot, if_pos hslot]
    exact .inl ⟨rfl, t.escParent, hlabel⟩
  · rw [if_neg hslot] at hi'
    obtain ⟨m, hm, hlabel⟩ := t.label_addBelowParent key
    rw [if_neg hslot, if_neg hslot]
    obtain rfl | rfl : i = t.count ∨ i = t.count + 1 := by omega
    · refine .inr ⟨by omega, ?_⟩
      rw [(hlabel _).1, t.node_allocate_two, if_neg (by omega), if_pos rfl, hm]
    · refine .inl ⟨by omega, t.count, ?_⟩
      have := hlabel (t.count + 1)
      rwa [t.node_allocate_two, if_pos rfl] at this

/-- The new leaf is the last entry (42_tree_growth.md R143). -/
theorem CodeTree.addedLeaf_spec (t : CodeTree) (key : Key) :
    t.count ≤ t.addedLeaf ∧ t.addedLeaf + 1 = (t.add key).count := by
  have := t.need_pos
  rw [CodeTree.count_add, CodeTree.addedLeaf]
  omega

/-- Settles O39: old entries keep their labels, and of the new ones only the leaf carries a key, its own. -/
theorem addRegistersTheKey : Obligations.AddRegistersTheKey := by
  intro t key key' hnew
  obtain ⟨hfirst, hlast⟩ := t.addedLeaf_spec key
  have hold : ∀ k, ∀ i < t.count, carries k ((t.add key).node i) = carries k (t.node i) := fun k i hi =>
    carries_congr (t.label_add_of_lt key hi).1 (t.label_add_of_lt key hi).2
  refine ⟨((t.add key).lookup_eq_some key _).2 ⟨by omega, ?_, fun j hj => ?_⟩, fun hne => ?_⟩
  · obtain ⟨-, p, hkind, hsym⟩ | ⟨hne, -⟩ := t.label_add_of_le key hfirst (by omega)
    · rw [carries_congr hkind hsym, carries_newLeaf]
    · exact absurd rfl hne
  · by_cases hlt : j < t.count
    · rw [hold key j hlt]
      exact (t.lookup_eq_none key).1 hnew j hlt
    · obtain ⟨e, -⟩ | ⟨-, hkind⟩ := t.label_add_of_le key (Nat.le_of_not_lt hlt) (by omega)
      · exact absurd e hj.ne
      · exact not_carries_of_internal hkind
  · cases hl : t.lookup key' with
    | some leaf => exact CodeTree.lookup_eq_some_of_labels (by omega) (fun i hi => t.label_add_of_lt key hi) hl
    | none =>
      refine ((t.add key).lookup_eq_none key').2 fun i hi => ?_
      by_cases hlt : i < t.count
      · rw [hold key' i hlt]
        exact (t.lookup_eq_none key').1 hl i hlt
      · obtain ⟨-, p, hkind, hsym⟩ | ⟨-, hkind⟩ := t.label_add_of_le key (Nat.le_of_not_lt hlt) hi
        · rw [carries_congr hkind hsym, not_carries_newLeaf p hne]
        · exact not_carries_of_internal hkind

end Sys2Proof.Machine
end

section
/-! How every command ends: one response, at the end, and what a fault has touched. -/
namespace Sys2Proof.Machine

/-! ## Events and reads before the response -/

theorem countP_isRespond_map {α : Type} {f : α → Event} (hf : ∀ a, (f a).isRespond = false) (xs : List α) :
    (xs.map f).countP Event.isRespond = 0 := by simp [List.countP_map, Function.comp_def, hf]

/-- `u` is `s` after some events of which none is a response (20_memory.md R74). -/
def State.Silent (s u : State) : Prop := ∃ es, u.history = s.history ++ es ∧ es.countP Event.isRespond = 0

theorem State.Silent.of_history_eq {s u : State} (h : u.history = s.history) : s.Silent u := ⟨[], by simp [h], rfl⟩

theorem State.Silent.append {s u w : State} (h : s.Silent u) {es : List Event} (hw : w.history = u.history ++ es)
    (hes : es.countP Event.isRespond = 0) : s.Silent w := by
  obtain ⟨es', hu, hes'⟩ := h
  exact ⟨es' ++ es, by rw [hw, hu, List.append_assoc], by rw [List.countP_append, hes, hes']⟩

theorem State.Silent.of_same {s u w : State} (h : s.Silent u) (hw : w.history = u.history) : s.Silent w :=
  h.append (hw.trans (List.append_nil _).symm) rfl

/-- `u` is `s` after reads of bits and of at most one literal; EOS is never removed (20_memory.md R65, R67). -/
structure State.Reads (s u : State) : Prop where
  /-- Nothing but the inputs and the history has changed. -/
  only : ∃ bi li hs, u = { s with bitIn := bi, litIn := li, history := hs }
  bits : ∃ bs, s.bitIn = bitTokens bs ++ u.bitIn
  lits : u.litIn = s.litIn ∨ ∃ l, s.litIn = .lit l :: u.litIn
  silent : s.Silent u

theorem State.Reads.refl (s : State) : s.Reads s := ⟨⟨_, _, _, rfl⟩, ⟨[], rfl⟩, .inl rfl, .of_history_eq rfl⟩

theorem State.Reads.readBitEos {s u : State} (h : s.Reads u) : s.Reads u.readBitEos := by
  obtain ⟨⟨bi, li, hs, rfl⟩, hbits, hlits, hsilent⟩ := h
  exact ⟨⟨_, _, _, rfl⟩, hbits, hlits, hsilent.append rfl rfl⟩

theorem State.Reads.readLitEos {s u : State} (h : s.Reads u) : s.Reads u.readLitEos := by
  obtain ⟨⟨bi, li, hs, rfl⟩, hbits, hlits, hsilent⟩ := h
  exact ⟨⟨_, _, _, rfl⟩, hbits, hlits, hsilent.append rfl rfl⟩

theorem State.Reads.consumeLit {s u : State} (h : s.Reads u) (hkept : u.litIn = s.litIn) {l : Literal}
    {ls : List LitToken} (hl : s.litIn = .lit l :: ls) : s.Reads (u.consumeLit l) := by
  obtain ⟨⟨bi, li, hs, rfl⟩, hbits, -, hsilent⟩ := h
  refine ⟨⟨_, _, _, rfl⟩, hbits, .inr ⟨l, ?_⟩, hsilent.append rfl rfl⟩
  rw [State.consumeLit_litIn, hkept, hl, List.tail_cons]

/-- The bits that a walk has read are consumed. -/
theorem State.Reads.consumeBits {s : State} {n : Nat} (h : (s.tree.walk ROOT 0 s.bitIn).bitsRead = some n) :
    s.Reads (s.consumeBits n) := by
  obtain ⟨⟨bs, rest, hbits, rfl⟩, -⟩ := s.tree.walk_of_bitsRead h
  rw [Nat.zero_add, State.consumeBits_eq_bitsRead hbits]
  exact ⟨⟨_, _, _, rfl⟩, ⟨bs, hbits⟩, .inl rfl,
    (State.Silent.of_history_eq rfl).append rfl (countP_isRespond_map (fun _ => rfl) _)⟩

/-! ## The ends of a command -/

/-- How a command that runs from `s` ends in `t` (60_exceptions.md R210): a fault, raised with nothing but reads done, or
another response; either way the response is the one it sends, and its last event. -/
inductive Ends (s t : State) : Prop
  | fault (u : State) (c : FaultCause) (hreads : s.Reads u) (ht : t = u.raiseFault c)
  | answer (u : State) (r : Response) (hsilent : s.Silent u) (hr : r.isFault = false) (ht : t = u.respond r)

theorem Ends.raiseFault (s : State) (c : FaultCause) : Ends s (s.raiseFault c) := .fault s c (.refl s) rfl

theorem Ends.raiseReject (s : State) (c : RejectCode) : Ends s (s.raiseReject c) :=
  .answer s _ (.of_history_eq rfl) (by cases c <;> rfl) rfl

/-- The status OK is no fault (60_exceptions.md R211). -/
theorem Ends.ok {s u : State} (h : s.Silent u) {r : Response} (hr : r.status = statusOk) : Ends s (u.respond r) :=
  .answer u r h (by simp [Response.isFault, hr, statusOk]) rfl

/-- An OK encode ends with its response; before it no event. -/
theorem State.finishEncode_eq_respond (s : State) (key : Key) (res : ResultCode) (len : Nat) :
    ∃ u : State, s.finishEncode key res len = u.respond (.okEncode res len) ∧ u.history = s.history := by
  unfold State.finishEncode
  cases key.kind with
  | ord => exact ⟨_, rfl, rfl⟩
  | endMark => exact ⟨_, rfl, rfl⟩

theorem Ends.finishEncode {s u : State} (h : s.Silent u) (key : Key) (res : ResultCode) (len : Nat) :
    Ends s (u.finishEncode key res len) := by
  obtain ⟨w, hw, hhist⟩ := u.finishEncode_eq_respond key res len
  exact hw ▸ .ok (h.of_same hhist) rfl

theorem State.Silent.writeBits (s : State) (bs : List Bool) : s.Silent (s.writeBits bs) :=
  (State.Silent.of_history_eq rfl).append rfl (countP_isRespond_map (fun _ => rfl) _)

theorem encodeKey_ends (key : Key) (s : State) : Ends s (encodeKey key s) := by
  obtain ⟨-, h⟩ | ⟨-, -, h⟩ | ⟨-, -, ⟨leaf, -, ⟨-, h⟩ | ⟨-, h⟩⟩ | ⟨-, ⟨-, h⟩ | ⟨-, -, h⟩ | ⟨-, -, h⟩⟩⟩ :=
    encodeKey_cases key s
  all_goals rw [h]
  · exact .raiseReject s _
  · exact .raiseFault s _
  · exact .raiseFault s _
  · refine .finishEncode (State.Silent.of_same (.writeBits s (s.tree.pathTo leaf)) ?_) key _ _
    rfl
  · exact .raiseFault s _
  · exact .raiseFault s _
  · exact .finishEncode (((State.Silent.writeBits s _).append (es := [_]) rfl rfl).append (es := [_]) rfl rfl) key _ _

theorem decodeNew_ends {s u : State} (h : s.Reads u) (key : Key) (n : Nat) : Ends s (decodeNew key n u) := by
  obtain ⟨-, e⟩ | ⟨-, ⟨-, e⟩ | ⟨-, -, e⟩ | ⟨-, -, e⟩⟩ := decodeNew_cases key n u
  all_goals rw [e]
  · exact .fault u _ h rfl
  · exact .fault u _ h rfl
  · exact .fault u _ h rfl
  · exact .ok (h.silent.append (es := [_]) rfl rfl) rfl

theorem decodeEnd_ends {s u : State} (h : s.Silent u) (n : Nat) : Ends s (decodeEnd n u) :=
  .ok (h.of_same (w := u.endStream.setResult .decEnd n) rfl) rfl

theorem decodeLiteral_ends {s u : State} (h : s.Reads u) (l : Literal) (n : Nat) : Ends s (decodeLiteral l n u) := by
  unfold decodeLiteral
  cases l.kind with
  | endMark => exact decodeEnd_ends h.silent n
  | ord => exact decodeNew_ends h _ n

theorem decodeKnown_ends {s u : State} (h : s.Reads u) (x n : Nat) : Ends s (decodeKnown x n u) := by
  have hupdated : s.Silent (u.setTree (CodeTree.update u.params u.tree x)) :=
    h.silent.of_same rfl
  cases hmax : u.atMaxWeight with
  | true => exact .fault u _ h (decodeKnown_of_atMaxWeight hmax)
  | false =>
    by_cases hk : (u.tree.node x).kind = .endMarker
    · rw [decodeKnown_of_endMarker hmax hk]
      exact decodeEnd_ends hupdated n
    · rw [decodeKnown_of_symbol hmax hk]
      refine .ok (hupdated.of_same ?_) ?_ <;> rfl

theorem decodeFn_ends {s t : State} (h : decodeFn s = .done t) : Ends s t := by
  obtain ⟨-, e⟩ | ⟨-, -, e⟩ | ⟨-, -, ⟨-, e⟩ | ⟨n, hw, e⟩ | ⟨n, hw, e⟩ | ⟨x, n, hw, e⟩⟩ := decodeFn_cases s
  all_goals rw [e] at h
  · cases h; exact .raiseReject s _
  · cases h; exact .raiseFault s _
  · cases h
  · cases h; exact .fault _ _ (State.Reads.consumeBits (congrArg Walk.bitsRead hw)).readBitEos rfl
  · cases h; exact .fault _ _ (.consumeBits (congrArg Walk.bitsRead hw)) rfl
  · have hreads : s.Reads (s.consumeBits n) := .consumeBits (congrArg Walk.bitsRead hw)
    obtain ⟨-, ⟨-, e⟩ | ⟨ls, -, e⟩ | ⟨l, ls, hl, e⟩⟩ | ⟨-, e⟩ := decodeAtLeaf_cases x n s
    all_goals rw [e] at h; cases h
    · exact .fault _ _ hreads.readLitEos rfl
    · exact decodeLiteral_ends (hreads.consumeLit rfl hl) l n
    · exact decodeKnown_ends hreads x n

theorem exec_ends {i : Instr} {s t : State} (hholds : holds i s = false) (h : exec i s = .next t) : Ends s t := by
  cases i with
  | nop => cases h; exact .ok (.of_history_eq rfl) rfl
  | init => cases h; exact .ok (s := s) (u := s.restart) (.of_history_eq rfl) rfl
  | encode => cases h; exact encodeKey_ends _ s
  | encodeNull => cases h; exact encodeKey_ends _ s
  | decode =>
    obtain ⟨u, hd⟩ := (holds_decode_eq_false_iff s).1 hholds
    cases (exec_decode_of_done hd).symm.trans h
    exact decodeFn_ends hd
  | readReg n =>
    obtain ⟨-, e⟩ | ⟨v, -, e⟩ := execReadReg_cases n s
    · cases e.symm.trans h; exact .raiseReject s _
    · cases e.symm.trans h; exact .ok (.of_history_eq rfl) rfl
  | readNode k =>
    obtain ⟨-, e⟩ | ⟨-, e⟩ := execReadNode_cases k s
    · cases e.symm.trans h; exact .ok (.of_history_eq rfl) rfl
    · cases e.symm.trans h; exact .raiseReject s _

/-! ## One response -/

theorem State.Silent.responds_once {s u : State} (h : s.Silent u) (r : Response) :
    ∃ es, (u.respond r).history = s.history ++ es ++ [.respond r] ∧ (u.respond r).responses = s.responses + 1 := by
  obtain ⟨es, hes, hcount⟩ := h
  exact ⟨es, by rw [State.respond_history, hes], by
    simp [State.responses, hes, List.countP_append, hcount, List.countP_cons, Event.isRespond]⟩

/-- Settles O53: a fault and every other answer send one response after events that are none. -/
theorem everyCommandRespondsOnce : Obligations.EveryCommandRespondsOnce := by
  intro i s hholds
  obtain ⟨t, h⟩ := exec_answers_next i s
  cases exec_ends hholds h with
  | fault u c hreads ht =>
    obtain ⟨es, hes⟩ := hreads.silent.responds_once (.ofStatus c.code)
    exact ⟨t, es, _, h, ht ▸ rfl, by rw [ht]; exact hes⟩
  | answer u r hsilent hr ht =>
    obtain ⟨es, hes⟩ := hsilent.responds_once r
    exact ⟨t, es, r, h, ht ▸ rfl, by rw [ht]; exact hes⟩

/-! ## Precise faults -/

theorem State.finishEncode_inputs (s : State) (key : Key) (res : ResultCode) (len : Nat) :
    (s.finishEncode key res len).bitIn = s.bitIn ∧ (s.finishEncode key res len).litIn = s.litIn := by
  unfold State.finishEncode
  cases key.kind <;> exact ⟨rfl, rfl⟩

theorem encodeKey_inputs (key : Key) (s : State) :
    (encodeKey key s).bitIn = s.bitIn ∧ (encodeKey key s).litIn = s.litIn := by
  obtain ⟨-, h⟩ | ⟨-, -, h⟩ | ⟨-, -, ⟨leaf, -, ⟨-, h⟩ | ⟨-, h⟩⟩ | ⟨-, ⟨-, h⟩ | ⟨-, -, h⟩ | ⟨-, -, h⟩⟩⟩ :=
    encodeKey_cases key s
  all_goals rw [h]
  · exact ⟨rfl, rfl⟩
  · exact ⟨rfl, rfl⟩
  · exact ⟨rfl, rfl⟩
  · exact State.finishEncode_inputs _ _ _ _
  · exact ⟨rfl, rfl⟩
  · exact ⟨rfl, rfl⟩
  · exact State.finishEncode_inputs _ _ _ _

/-- No command but DECODE reads an input (20_memory.md R76). -/
theorem exec_inputs {i : Instr} {s t : State} (hi : i ≠ .decode) (h : exec i s = .next t) :
    t.bitIn = s.bitIn ∧ t.litIn = s.litIn := by
  cases i with
  | nop => cases h; exact ⟨rfl, rfl⟩
  | init => cases h; exact ⟨rfl, rfl⟩
  | encode => cases h; exact encodeKey_inputs _ s
  | encodeNull => cases h; exact encodeKey_inputs _ s
  | decode => exact absurd rfl hi
  | readReg n =>
    obtain ⟨-, e⟩ | ⟨v, -, e⟩ := execReadReg_cases n s
    all_goals cases e.symm.trans h; exact ⟨rfl, rfl⟩
  | readNode k =>
    obtain ⟨-, e⟩ | ⟨-, e⟩ := execReadNode_cases k s
    all_goals cases e.symm.trans h; exact ⟨rfl, rfl⟩

/-- Settles O50: a fault response is the end of a command that has done nothing but read. -/
theorem faultsArePrecise : Obligations.FaultsArePrecise := by
  intro i s t r hholds h hr hfault
  have hinputs := fun hi : i ≠ .decode => exec_inputs hi h
  cases exec_ends hholds h with
  | fault u c hreads ht =>
    obtain ⟨⟨bi, li, hs, rfl⟩, hbits, hlits, -⟩ := hreads
    subst ht
    obtain rfl := (State.answered_respond _ (.ofStatus c.code)).unique hr
    exact ⟨rfl, rfl, rfl, rfl, rfl, rfl, rfl, rfl, rfl, rfl, rfl, rfl, hbits, hlits, hinputs⟩
  | answer u q hsilent hq ht =>
    subst ht
    obtain rfl := (State.answered_respond u q).unique hr
    simp [hq] at hfault

end Sys2Proof.Machine
end

section
/-! A decoder follows an encoder, symbol by symbol. -/
namespace Sys2Proof.Machine

/-! ## What an OK encode writes -/

theorem State.finishEncode_outputs (s : State) (key : Key) (res : ResultCode) (len : Nat) :
    (s.finishEncode key res len).bitOut = s.bitOut ∧ (s.finishEncode key res len).litOut = s.litOut ∧
    (s.finishEncode key res len).lastLen = BitVec.ofNat 32 len := by
  unfold State.finishEncode
  cases key.kind <;> exact ⟨rfl, rfl, rfl⟩

/-- What an encode that stays in READY has done (40_encode.md R102): it has counted a known leaf and
written its code, or has grown the tree and written the escape code and the key. -/
theorem encodeKey_ready_cases {key : Key} {s : State} (hready : (encodeKey key s).engine = .ready) :
    s.tree.WF ∧ s.atMaxWeight = false ∧
    ((∃ leaf, s.tree.lookup key = some leaf ∧ encodeKey key s = encodeKnown key leaf s) ∨
     (s.tree.lookup key = none ∧ s.lacksRoom = false ∧ encodeKey key s = encodeNew key s)) := by
  obtain ⟨hne, h⟩ | ⟨-, -, h⟩ | ⟨-, hwf, ⟨leaf, hl, ⟨-, h⟩ | ⟨hmax, h⟩⟩ |
    ⟨hnew, ⟨-, h⟩ | ⟨-, -, h⟩ | ⟨hroom, hmax, h⟩⟩⟩ := encodeKey_cases key s
  all_goals rw [h] at hready
  · exact absurd hready hne
  · cases hready
  · cases hready
  · exact ⟨hwf, hmax, .inl ⟨leaf, hl, h⟩⟩
  · cases hready
  · cases hready
  · exact ⟨hwf, hmax, .inr ⟨hnew, hroom, h⟩⟩

/-- The leaf of an ordinary key is an ordinary leaf with its symbol. -/
theorem ordinary_of_carries {p : Params} {v : SymVal} {nd : Node} (h : carries (ordKey p v) nd = true) :
    nd.kind = .ordinary ∧ nd.sym = symbolOf p v := by
  simpa [carries, ordKey] using h

/-- A symbol is cut to `SYM_W` bits once (log 7). -/
theorem symbolOf_symbolOf (p : Params) (v : SymVal) : symbolOf p (symbolOf p v) = symbolOf p v := by
  ext i hi
  by_cases hlt : i < p.symW <;> simp [symbolOf, hi, hlt]

/-! ## One symbol -/

/-- `d'` is a decoder in READY whose tree is the encoder `e'`'s, that has answered the symbol `v` with the code length of
the encoder and has left `rb` and `rl` to be read (41_decode.md R133). -/
structure Follows (d' e' : State) (v : SymVal) (rb : List BitToken) (rl : List LitToken) : Prop where
  engine : d'.engine = .ready
  params : d'.params = e'.params
  tree : d'.tree = e'.tree
  bitIn : d'.bitIn = rb
  litIn : d'.litIn = rl
  lastLen : d'.lastLen = e'.lastLen
  symbol : d'.decodedSymbol = some v

/-- The symbol of an OK response with an ordinary key. -/
theorem State.decodedSymbol_respond (s : State) (res : ResultCode) (n : Nat) (v : SymVal) :
    (s.respond (.okDecode res n { kind := .ord, value := v })).decodedSymbol = some v := by
  simp [State.decodedSymbol, Response.okDecode, Response.ofStatus, keyKindCode]

/-- An ordinary key read as a literal is the same key; with no leaf yet and room for one it is added
(41_decode.md R125). -/
theorem decodeLiteral_of_room {key : Key} {v : SymVal} {n : Nat} {s : State} (hkey : key = ordKey s.params v)
    (hnew : s.tree.lookup key = none) (hroom : s.lacksRoom = false) (hmax : s.atMaxWeight = false) :
    decodeLiteral key n s = (((s.indexInsert key s.tree.addedLeaf).setTree (grownTree s.params s.tree key)).setResult
      .decNew n).respond (.okDecode .decNew n key) := by
  subst hkey
  have hsame : decodeLiteral (ordKey s.params v) n s = decodeNew (ordKey s.params v) n s :=
    congrArg (fun x => decodeNew { kind := .ord, value := x } n s) (symbolOf_symbolOf s.params v)
  simp [hsame, decodeNew, hnew, hroom, hmax]

section Decoder
variable {p : Params} {v : SymVal} {e d : State} {rb : List BitToken} {rl : List LitToken}
variable (hparams : d.params = e.params) (htree : d.tree = e.tree) (hready : d.engine = .ready) (hwf : e.tree.WF)
  (hmax : e.atMaxWeight = false)
include hparams htree hready hwf hmax

/-- DECODE of the code of a known symbol does what the encoder did. -/
theorem decodeFn_follows_encodeKnown {leaf : Nat} (hl : e.tree.lookup (ordKey e.params v) = some leaf)
    (hbits : d.bitIn = bitTokens (e.tree.pathTo leaf) ++ rb) (hlits : d.litIn = rl) :
    ∃ d', decodeFn d = .done d' ∧
      Follows d' (encodeKnown (ordKey e.params v) leaf e) (symbolOf e.params v) rb rl := by
  obtain ⟨hlt, hcar, -⟩ := (e.tree.lookup_eq_some _ leaf).1 hl
  obtain ⟨hkind, hsym⟩ := ordinary_of_carries hcar
  have hwalk := hwf.walk_leaf_code hlt (CodeTree.isLeaf_of_kind (.inl hkind)) rb
  rw [← hbits, ← htree] at hwalk
  rw [← htree] at hkind hsym hbits hwf
  have hmax' : (d.consumeBits (d.tree.pathTo leaf).length).atMaxWeight = false := by
    simpa [State.atMaxWeight, hparams, htree] using hmax
  refine ⟨_, (decodeFn_of_leaf hready hwf hwalk).trans (decodeAtLeaf_of_known (by simp [hkind]) _), ?_⟩
  rw [decodeKnown_of_symbol hmax' (by simp [hkind])]
  exact
    { engine := by simpa using hready
      params := by simp [encodeKnown, hparams]
      tree := by simp [encodeKnown, hparams, htree]
      bitIn := by simp [hbits, bitTokens]
      litIn := by simp [hlits]
      lastLen := by rw [encodeKnown, (State.finishEncode_outputs _ _ _ _).2.2, ← htree]; rfl
      symbol := by rw [State.decodedSymbol_respond]; exact congrArg some hsym }

/-- DECODE of the escape code and the literal of a new symbol does what the encoder did. -/
theorem decodeFn_follows_encodeNew (hnew : e.tree.lookup (ordKey e.params v) = none) (hroom : e.lacksRoom = false)
    (hbits : d.bitIn = bitTokens (e.tree.pathTo ESC) ++ rb) (hlits : d.litIn = .lit (ordKey e.params v) :: rl) :
    ∃ d', decodeFn d = .done d' ∧ Follows d' (encodeNew (ordKey e.params v) e) (symbolOf e.params v) rb rl := by
  have hwalk := hwf.walk_escape_code rb
  have hesc := hwf.kind_esc
  rw [← hbits, ← htree] at hwalk
  rw [← htree, ← hparams] at hnew
  rw [← htree] at hesc hbits hwf
  rw [← hparams] at hlits
  refine ⟨_, (decodeFn_of_leaf hready hwf hwalk).trans (decodeAtLeaf_of_literal hesc hlits _), ?_⟩
  rw [decodeLiteral_of_room (v := v)]
  · exact
      { engine := by simpa using hready
        params := by simp [encodeNew, hparams]
        tree := by simp [encodeNew, hparams, htree]
        bitIn := by simp [hbits, bitTokens]
        litIn := by simp [hlits]
        lastLen := by rw [encodeNew, (State.finishEncode_outputs _ _ _ _).2.2, ← htree]; rfl
        symbol := by rw [← hparams]; exact State.decodedSymbol_respond _ _ _ _ }
  · rfl
  · exact hnew
  · simpa [State.lacksRoom, hparams, htree] using hroom
  · simpa [State.atMaxWeight, hparams, htree] using hmax

end Decoder

/-- `e'` is `e` with `bits` and `lits` written to its outputs (20_memory.md R64, R66). -/
def State.Wrote (e e' : State) (bits : List Bool) (lits : List Literal) : Prop :=
  e'.bitOut = e.bitOut ++ bits ∧ e'.litOut = e.litOut ++ lits

theorem State.Wrote.trans {e t e' : State} {bits bits' : List Bool} {lits lits' : List Literal}
    (h : e.Wrote t bits lits) (h' : t.Wrote e' bits' lits') : e.Wrote e' (bits ++ bits') (lits ++ lits') :=
  ⟨by rw [h'.1, h.1, List.append_assoc], by rw [h'.2, h.2, List.append_assoc]⟩

theorem State.Wrote.unique {e e' : State} {bits bits' : List Bool} {lits lits' : List Literal}
    (h : e.Wrote e' bits lits) (h' : e.Wrote e' bits' lits') : bits = bits' ∧ lits = lits' :=
  ⟨List.append_cancel_left (h.1.symm.trans h'.1), List.append_cancel_left (h.2.symm.trans h'.2)⟩

/-- What an ENCODE that stays in READY has written, a decoder with the encoder's tree reads as the symbol
(41_decode.md R133). -/
theorem decodeFn_follows_encodeKey {e : State} {v : SymVal} (he' : (encodeKey (ordKey e.params v) e).engine = .ready) :
    ∃ bits lits, e.Wrote (encodeKey (ordKey e.params v) e) bits lits ∧
      ∀ {d : State} {rb : List BitToken} {rl : List LitToken}, d.params = e.params → d.tree = e.tree →
        d.engine = .ready → d.bitIn = bitTokens bits ++ rb → d.litIn = lits.map .lit ++ rl →
        ∃ d', decodeFn d = .done d' ∧ Follows d' (encodeKey (ordKey e.params v) e) (symbolOf e.params v) rb rl := by
  obtain ⟨hwf, hmax, ⟨leaf, hl, h⟩ | ⟨hnew, hroom, h⟩⟩ := encodeKey_ready_cases he'
  · obtain ⟨hbitOut, hlitOut, -⟩ := State.finishEncode_outputs
      ((e.writeBits (e.tree.pathTo leaf)).setTree (CodeTree.update e.params e.tree leaf)) (ordKey e.params v) .encKnown
      (e.tree.pathTo leaf).length
    rw [h]
    exact ⟨_, [], ⟨hbitOut, hlitOut.trans (List.append_nil _).symm⟩, fun hparams htree hready hbits hlits =>
      decodeFn_follows_encodeKnown hparams htree hready hwf hmax hl hbits hlits⟩
  · obtain ⟨hbitOut, hlitOut, -⟩ := State.finishEncode_outputs
      ((((e.writeBits (e.tree.pathTo ESC)).writeLit (ordKey e.params v)).indexInsert (ordKey e.params v)
        e.tree.addedLeaf).setTree (grownTree e.params e.tree (ordKey e.params v))) (ordKey e.params v) .encNew
      (e.tree.pathTo ESC).length
    rw [h]
    exact ⟨_, [_], ⟨hbitOut, hlitOut⟩, fun hparams htree hready hbits hlits =>
      decodeFn_follows_encodeNew hparams htree hready hwf hmax hnew hroom hbits hlits⟩

/-! ## Every sequence -/

theorem encodeAll_cons_eq_some {v : SymVal} {vs : List SymVal} {e e' : State} (h : encodeAll (v :: vs) e = some e') :
    (encodeKey (ordKey e.params v) { e with symIn := v }).engine = .ready ∧
    encodeAll vs (encodeKey (ordKey e.params v) { e with symIn := v }) = some e' := by
  simp only [encodeAll, exec, execEncode] at h
  split at h
  · next hready => exact ⟨hready, h⟩
  · cases h

theorem decodeAll_succ {n : Nat} {d t : State} {v : SymVal} (h : decodeFn d = .done t) (hv : t.decodedSymbol = some v) :
    decodeAll (n + 1) d = (decodeAll n t).map fun r => (v :: r.1, r.2) := by simp only [decodeAll, h, hv]

theorem decodeAll_follows_encodeAll (vs : List SymVal) {e e' : State} (hwf : e.tree.WF)
    (hthird : e.tree.EscapeParentThird) (hroot : (e.tree.node ROOT).weight ≤ maxWeight e.params)
    (h : encodeAll vs e = some e') :
    ∃ bits lits, e.Wrote e' bits lits ∧
      ∀ {d : State} {rb : List BitToken} {rl : List LitToken}, d.params = e.params → d.tree = e.tree →
        d.engine = .ready → d.bitIn = bitTokens bits ++ rb → d.litIn = lits.map .lit ++ rl →
        ∃ d', decodeAll vs.length d = some (vs.map (symbolOf e.params), d') ∧ d'.tree = e'.tree ∧ d'.bitIn = rb ∧
          d'.litIn = rl := by
  induction vs generalizing e with
  | nil =>
    cases h
    exact ⟨[], [], ⟨(List.append_nil _).symm, (List.append_nil _).symm⟩, fun _ htree _ hbits hlits =>
      ⟨_, rfl, htree, hbits, hlits⟩⟩
  | cons v vs ih =>
    obtain ⟨hready, hrest⟩ := encodeAll_cons_eq_some h
    have heffect := encodeKey_effect (ordKey e.params v) { e with symIn := v } fun _ => ordKey_fits _ _
    obtain ⟨hwf', hthird', hroot'⟩ := heffect.keeps_tree hwf hthird hroot
    have hparams := heffect.params_eq
    obtain ⟨bits, lits, hwrote, hfollows⟩ := decodeFn_follows_encodeKey (e := { e with symIn := v }) hready
    obtain ⟨bits', lits', hwrote', hall⟩ := ih hwf' hthird' hroot' hrest
    refine ⟨bits ++ bits', lits ++ lits', State.Wrote.trans hwrote hwrote', fun {d rb rl} hp ht hd hbits hlits => ?_⟩
    obtain ⟨d₁, hd₁, hf⟩ := hfollows (d := d) (rb := bitTokens bits' ++ rb) (rl := lits'.map .lit ++ rl) hp ht hd
      (by simpa [bitTokens] using hbits) (by simpa using hlits)
    obtain ⟨d₂, hd₂, htree⟩ := hall hf.params hf.tree hf.engine hf.bitIn hf.litIn
    rw [hparams] at hd₂
    refine ⟨d₂, ?_, htree⟩
    rw [List.length_cons, decodeAll_succ hd₁ hf.symbol, hd₂]
    rfl

/-- Settles O34: by induction on the symbols, the trees equal and well formed after each. -/
theorem roundTripOfEverySequence : Obligations.RoundTripOfEverySequence := by
  intro vs e e' d bits lits rb rl hinv _ hparams htree _ hready h hbitOut hlitOut hbits hlits
  obtain ⟨bits', lits', hwrote, hall⟩ := decodeAll_follows_encodeAll vs hinv.wf hinv.third hinv.rootFits h
  obtain ⟨rfl, rfl⟩ := hwrote.unique ⟨hbitOut, hlitOut⟩
  exact hall hparams.symm htree.symm hready hbits hlits

end Sys2Proof.Machine
end

section
/-! The command words: decoder and encoder are inverse, the illegal words, the assembler's lines. -/
namespace Sys2Proof

/-! ## The fields of a word, as numbers -/

theorem opcOf_toNat (w : CmdWord) : (opcOf w).toNat = w.toNat % 16 := by simp [opcOf]

theorem mbzOf_toNat (w : CmdWord) : (mbzOf w).toNat = w.toNat / 16 % 16 := by
  simp [mbzOf, Nat.shiftRight_eq_div_pow]

theorem argOf_toNat (w : CmdWord) : (argOf w).toNat = w.toNat / 256 := by
  have h := w.isLt
  simp [argOf, Nat.shiftRight_eq_div_pow]
  omega

/-- The three fields are the whole word (30_encoding.md R81). -/
theorem packWord_fields {w : CmdWord} (hmbz : mbzOf w = 0#4) : packWord (opcOf w) (argOf w) = w := by
  have h : w.toNat / 16 % 16 = 0 := by rw [← mbzOf_toNat, hmbz]; rfl
  apply BitVec.eq_of_toNat_eq
  rw [packWord_toNat, opcOf_toNat, argOf_toNat]
  omega

theorem argFits_iff {n : Nat} : argFits n = true ↔ n ≤ 0xFFFFFF := decide_eq_true_iff

/-- An argument that fits is not truncated (30_encoding.md R83, R95). -/
theorem toNat_ofNat_of_argFits {n : Nat} (h : argFits n = true) : (BitVec.ofNat 24 n).toNat = n := by
  rw [argFits_iff] at h
  rw [BitVec.toNat_ofNat, Nat.mod_eq_of_lt (by omega)]

theorem argFits_toNat (a : BitVec 24) : argFits a.toNat = true := argFits_iff.2 (Nat.le_of_lt_succ a.isLt)

/-! ## Decode after encode -/

theorem decode_packWord_readReg (arg : BitVec 24) : decode (packWord 0x5#4 arg) = .ok (.readReg arg.toNat) := by
  simp [decode]

theorem decode_packWord_readNode (arg : BitVec 24) : decode (packWord 0x6#4 arg) = .ok (.readNode arg.toNat) := by
  simp [decode]

/-- Settles O2: one word each for the commands without an argument, and a 24-bit argument survives the packing. -/
theorem decodeOfEncodeIsIdentity : Obligations.DecodeOfEncodeIsIdentity := by
  intro i hwf
  cases i with
  | nop => rfl
  | init => rfl
  | encode => rfl
  | encodeNull => rfl
  | decode => rfl
  | readReg n => rw [encode, decode_packWord_readReg, toNat_ofNat_of_argFits hwf]
  | readNode n => rw [encode, decode_packWord_readNode, toNat_ofNat_of_argFits hwf]

/-! ## Encode after decode -/

theorem withoutArg_eq_ok_iff {w : CmdWord} {i j : Instr} : withoutArg w i = .ok j ↔ argOf w = 0#24 ∧ i = j := by
  unfold withoutArg
  split <;> simp [*]

theorem withoutArg_eq_error_iff {w : CmdWord} {i : Instr} : (∃ e, withoutArg w i = .error e) ↔ argOf w ≠ 0#24 := by
  unfold withoutArg
  split <;> simp [*]

/-- A legal word (30_encoding.md R82, R84) has MBZ zero, and the opcode and the argument of a well-formed command. -/
theorem fields_of_decode {w : CmdWord} {i : Instr} (h : decode w = .ok i) :
    mbzOf w = 0#4 ∧ i.wf = true ∧ encode i = packWord (opcOf w) (argOf w) := by
  unfold decode at h
  split at h
  case isTrue => cases h
  case isFalse hmbz =>
    have hopc : ∀ {k : Nat}, (opcOf w).toNat = k → opcOf w = BitVec.ofNat 4 k := by
      rintro k rfl
      simp
    refine ⟨not_not.1 hmbz, ?_⟩
    split at h
    case h_6 hk =>
      cases h
      exact ⟨argFits_toNat _, by simp [encode, hopc hk]⟩
    case h_7 hk =>
      cases h
      exact ⟨argFits_toNat _, by simp [encode, hopc hk]⟩
    case h_8 => cases h
    all_goals
      next hk =>
      obtain ⟨harg, rfl⟩ := withoutArg_eq_ok_iff.1 h
      exact ⟨rfl, by rw [hopc hk, harg]; rfl⟩

/-- Settles O3: the word of the command has the fields of the word decoded, and they are the whole word. -/
theorem encodeOfDecodeIsIdentity : Obligations.EncodeOfDecodeIsIdentity := by
  intro w i h
  obtain ⟨hmbz, hwf, hword⟩ := fields_of_decode h
  exact ⟨hword.trans (packWord_fields hmbz), hwf⟩

/-! ## The illegal words -/

/-- The three reasons for refusal (30_encoding.md R84), on the fields. -/
theorem exists_decode_error_iff (w : CmdWord) : (∃ e, decode w = .error e) ↔
    mbzOf w ≠ 0#4 ∨ 7 ≤ (opcOf w).toNat ∨ (argOf w ≠ 0#24 ∧ (opcOf w).toNat ≠ 5 ∧ (opcOf w).toNat ≠ 6) := by
  unfold decode
  split
  case isTrue hmbz => simp [hmbz]
  case isFalse hmbz =>
    rw [not_not] at hmbz
    split
    case h_6 hk => simp [hmbz, hk]
    case h_7 hk => simp [hmbz, hk]
    case h_8 h0 h1 h2 h3 h4 h5 h6 =>
      have h7 : 7 ≤ (opcOf w).toNat := by
        rw [imp_false] at h0 h1 h2 h3 h4 h5 h6
        omega
      simp [h7]
    all_goals next hk => rw [withoutArg_eq_error_iff]; simp [hmbz, hk]

end Sys2Proof

namespace Sys2Proof.Machine

/-- A word without a meaning is answered ILLEGAL_COMMAND (44_host_commands.md R197). -/
theorem step_of_decode_error {s : State} {w : CmdWord} {e : IllegalWord} (hw : s.cmd = some w)
    (he : decode w = .error e) : step s = .next (s.answer (bareRecord 6#4)) := by
  simp only [step, hw, he]
  rfl

/-- Settles O4: the decoder's three refusals, field by field, and the step on any of them. -/
theorem illegalWordsAreRejected : Obligations.IllegalWordsAreRejected := by
  intro w
  refine ⟨?_, fun s hw ⟨e, he⟩ => step_of_decode_error hw he⟩
  rw [exists_decode_error_iff, Ne, Ne, ← BitVec.toNat_inj, ← BitVec.toNat_inj, mbzOf_toNat, opcOf_toNat, argOf_toNat]
  rfl

/-! ## The examples and the assembler -/

/-- Settles O1: each of the ten words is decoded. -/
theorem encodingExamplesDecode : Obligations.EncodingExamplesDecode :=
  ⟨rfl, rfl, rfl, rfl, rfl, rfl, rfl, rfl, rfl, rfl⟩

/-- A word with its argument in range, as a number (30_encoding.md R81). -/
theorem packWord_ofNat (opc : BitVec 4) {n : Nat} (hn : argFits n = true) :
    packWord opc (BitVec.ofNat 24 n) = BitVec.ofNat 32 (n * 256 + opc.toNat) := by
  have hopc := opc.isLt
  have hn' := argFits_iff.1 hn
  apply BitVec.eq_of_toNat_eq
  rw [packWord_toNat, toNat_ofNat_of_argFits hn, BitVec.toNat_ofNat, Nat.mod_eq_of_lt (by omega)]

theorem assembleInstr_of_wf {i : Instr} (hi : i.wf = true) (v : SymVal) :
    assembleInstr i v = some (.issue (encode i) v) := if_pos hi

theorem assembleInstr_of_not_wf {i : Instr} (hi : ¬ i.wf = true) (v : SymVal) : assembleInstr i v = none := if_neg hi

theorem assembleInstr_readReg {n : Nat} (hn : argFits n = true) (v : SymVal) :
    assembleInstr (.readReg n) v = some (.issue (BitVec.ofNat 32 (n * 256 + 5)) v) := by
  rw [assembleInstr_of_wf (i := .readReg n) hn, encode, packWord_ofNat 0x5#4 hn]
  rfl

theorem assembleInstr_readNode {n : Nat} (hn : argFits n = true) (v : SymVal) :
    assembleInstr (.readNode n) v = some (.issue (BitVec.ofNat 32 (n * 256 + 6)) v) := by
  rw [assembleInstr_of_wf (i := .readNode n) hn, encode, packWord_ofNat 0x6#4 hn]
  rfl

/-- Settles O5: a line in range is the word of its command; `enc`, the two lines with an argument and `.word` refuse a
value out of range. -/
theorem assemblerLinesAreOneCommand : Obligations.AssemblerLinesAreOneCommand := by
  intro p
  refine ⟨rfl, rfl, fun v hv => if_pos hv, fun v hv => if_neg hv, rfl, rfl,
    fun n hn => assembleInstr_readReg (argFits_iff.2 hn) _, fun n hn => assembleInstr_readNode (argFits_iff.2 hn) _,
    fun n hn => ?_, fun w hw => if_pos hw, fun w hw => if_neg hw, rfl, rfl, rfl⟩
  have hno := mt argFits_iff.1 hn
  exact ⟨assembleInstr_of_not_wf (i := .readReg n) hno _, assembleInstr_of_not_wf (i := .readNode n) hno _⟩

end Sys2Proof.Machine
end

section
/-! No code begins the code of another leaf. -/
namespace Sys2Proof.Machine

/-- The walk over a longer code would stop where the shorter one ends. -/
theorem CodeTree.WF.eq_of_pathTo_isPrefix {t : CodeTree} (h : t.WF) {a b : Nat} (ha : a < t.count) (hb : b < t.count)
    (hla : t.isLeaf a = true) (hlb : t.isLeaf b = true) (hpre : t.pathTo a <+: t.pathTo b) : a = b := by
  obtain ⟨q, hq⟩ := hpre
  have hwalkA := h.walk_leaf_code ha hla (bitTokens q)
  have hwalkB := h.walk_leaf_code hb hlb []
  have htokens : bitTokens (t.pathTo b) ++ [] = bitTokens (t.pathTo a) ++ bitTokens q := by simp [← hq, bitTokens]
  rw [htokens, hwalkA] at hwalkB
  injection hwalkB

/-- Settles O48: the walk along a code ends at its own leaf, and a code has at least one bit by O49. -/
theorem codesArePrefixFree : Obligations.CodesArePrefixFree := by
  intro t a b hwf ha hb hla hlb hne
  obtain ⟨hpos, -⟩ := codeLengthIsBounded t a hwf ha hla
  exact ⟨fun hpre => hne (hwf.eq_of_pathTo_isPrefix ha hb hla hlb hpre), hpos⟩

end Sys2Proof.Machine
end

section
/-! SYM_IN, which only ENCODE reads. -/
namespace Sys2Proof.Machine

/-- `s` with another value on the SYM_IN port (30_encoding.md R80). -/
def State.withSymIn (s : State) (v : SymVal) : State := { s with symIn := v }

section WithSymIn
variable (s : State) (v : SymVal)

@[simp] theorem State.withSymIn_engine : (s.withSymIn v).engine = s.engine := rfl
@[simp] theorem State.withSymIn_params : (s.withSymIn v).params = s.params := rfl
@[simp] theorem State.withSymIn_tree : (s.withSymIn v).tree = s.tree := rfl
@[simp] theorem State.withSymIn_bitIn : (s.withSymIn v).bitIn = s.bitIn := rfl
@[simp] theorem State.withSymIn_litIn : (s.withSymIn v).litIn = s.litIn := rfl
@[simp] theorem State.withSymIn_csr (n : Nat) : (s.withSymIn v).csr n = s.csr n := rfl

/-! ### Encode -/

theorem encodeKnown_withSymIn (key : Key) (leaf : Nat) :
    encodeKnown key leaf (s.withSymIn v) = (encodeKnown key leaf s).withSymIn v := by
  obtain ⟨_ | _, _⟩ := key <;> rfl

theorem encodeNew_withSymIn (key : Key) : encodeNew key (s.withSymIn v) = (encodeNew key s).withSymIn v := by
  obtain ⟨_ | _, _⟩ := key <;> rfl

/-- With its key given, an encode reads nothing more of SYM_IN. -/
theorem encodeKey_withSymIn (key : Key) : encodeKey key (s.withSymIn v) = (encodeKey key s).withSymIn v := by
  simp only [encodeKey, State.withSymIn_engine, State.withSymIn_tree, apply_ite (State.withSymIn · v)]
  cases s.tree.lookup key with
  | some leaf =>
    simp only [encodeKnown_withSymIn, apply_ite (State.withSymIn · v)]
    rfl
  | none =>
    simp only [encodeNew_withSymIn, apply_ite (State.withSymIn · v)]
    rfl

/-! ### Decode -/

theorem decodeNew_withSymIn (key : Key) (n : Nat) :
    decodeNew key n (s.withSymIn v) = (decodeNew key n s).withSymIn v := by
  simp only [decodeNew, apply_ite (State.withSymIn · v)]
  rfl

theorem decodeLiteral_withSymIn (l : Literal) (n : Nat) :
    decodeLiteral l n (s.withSymIn v) = (decodeLiteral l n s).withSymIn v := by
  unfold decodeLiteral
  cases l.kind with
  | endMark => rfl
  | ord => exact decodeNew_withSymIn s v _ n

theorem decodeKnown_withSymIn (x n : Nat) :
    decodeKnown x n (s.withSymIn v) = (decodeKnown x n s).withSymIn v := by
  simp only [decodeKnown, State.withSymIn_params, State.withSymIn_tree, State.setTree_tree,
    apply_ite (State.withSymIn · v)]
  cases ((CodeTree.update s.params s.tree x).node x).kind <;> rfl

/-- The answer of `DecodeFn` with another value on the SYM_IN port. -/
def DecodeResult.withSymIn (r : DecodeResult) (v : SymVal) : DecodeResult :=
  match r with
  | .needMore => .needMore
  | .done t   => .done (t.withSymIn v)

theorem decodeAtLeaf_withSymIn (x n : Nat) :
    decodeAtLeaf x n (s.withSymIn v) = (decodeAtLeaf x n s).withSymIn v := by
  obtain ⟨hk, ⟨hl, e⟩ | ⟨ls, hl, e⟩ | ⟨l, ls, hl, e⟩⟩ | ⟨hk, e⟩ := decodeAtLeaf_cases x n s
  · simp [DecodeResult.withSymIn, decodeAtLeaf, decodeEscape, hk, hl]
  · rw [e, decodeAtLeaf_of_eos (s := s.withSymIn v) hk hl]
    rfl
  · rw [e, decodeAtLeaf_of_literal (s := s.withSymIn v) hk hl]
    exact congrArg DecodeResult.done (decodeLiteral_withSymIn ((s.consumeBits n).consumeLit l) v l n)
  · rw [e, decodeAtLeaf_of_known (s := s.withSymIn v) hk]
    exact congrArg DecodeResult.done (decodeKnown_withSymIn (s.consumeBits n) v x n)

theorem decodeFn_withSymIn : decodeFn (s.withSymIn v) = (decodeFn s).withSymIn v := by
  simp only [decodeFn, State.withSymIn_engine, State.withSymIn_tree, State.withSymIn_bitIn,
    apply_ite (DecodeResult.withSymIn · v)]
  cases s.tree.walk ROOT 0 s.bitIn with
  | leaf x n =>
    simp only [decodeAtLeaf_withSymIn]
    rfl
  | _ => rfl

/-! ### Every command -/

theorem execReadReg_withSymIn (n : Nat) :
    execReadReg n (s.withSymIn v) = mapNext (State.withSymIn · v) (execReadReg n s) := by
  simp only [execReadReg, State.withSymIn_csr]
  cases s.csr n <;> rfl

theorem execReadNode_withSymIn (i : Nat) :
    execReadNode i (s.withSymIn v) = mapNext (State.withSymIn · v) (execReadNode i s) := by
  simp only [execReadNode, State.withSymIn_tree, apply_ite (mapNext (State.withSymIn · v))]
  rfl

theorem execDecode_withSymIn :
    execDecode (s.withSymIn v) = mapNext (State.withSymIn · v) (execDecode s) := by
  unfold execDecode
  rw [decodeFn_withSymIn]
  cases decodeFn s <;> rfl

end WithSymIn

/-- Settles O56: ENCODE alone takes its operand from the port; the other commands only carry SYM_IN along. -/
theorem onlyEncodeReadsSymIn : Obligations.OnlyEncodeReadsSymIn := by
  intro i s v hi
  change exec i (s.withSymIn v) = mapNext (State.withSymIn · v) (exec i s)
  cases i with
  | encode => exact absurd rfl hi
  | nop => rfl
  | init => rfl
  | encodeNull => exact congrArg Host.Outcome.next (encodeKey_withSymIn s v endKey)
  | decode => exact execDecode_withSymIn s v
  | readReg n => exact execReadReg_withSymIn s v n
  | readNode k => exact execReadNode_withSymIn s v k

end Sys2Proof.Machine
end

section
/-! ENCODE and ENCODE_NULL: each way they end, forwards, and what an OK one has written. -/
namespace Sys2Proof.Machine

/-- A command that encodes a key is `EncodeKey` of it (40_encode.md R100, R101). -/
theorem exec_of_encodedKey {i : Instr} {s : State} {key : Key} (h : encodedKey i s = some key) :
    exec i s = .next (encodeKey key s) := by
  cases i with
  | encode => cases h; rfl
  | encodeNull => cases h; rfl
  | nop | init | decode | readReg | readNode => cases h

/-! ## The checks -/

theorem State.atMaxWeight_eq_true_iff (s : State) :
    s.atMaxWeight = true ↔ (s.tree.node ROOT).weight = 2 ^ s.params.weightW - 1 := beq_iff_eq

theorem State.atMaxWeight_eq_false_iff (s : State) :
    s.atMaxWeight = false ↔ (s.tree.node ROOT).weight ≠ 2 ^ s.params.weightW - 1 := beq_eq_false_iff_ne

theorem State.lacksRoom_eq_false_iff (s : State) :
    s.lacksRoom = false ↔ s.tree.count + s.tree.need ≤ s.params.nodeCap := by simp [State.lacksRoom]

theorem State.lacksRoom_eq_true_iff (s : State) :
    s.lacksRoom = true ↔ ¬ s.tree.count + s.tree.need ≤ s.params.nodeCap := by simp [State.lacksRoom]

theorem encodeKey_of_not_ready {key : Key} {s : State} (hready : s.engine ≠ .ready) :
    encodeKey key s = s.raiseReject .notReady := if_pos hready

theorem encodeKey_of_not_wf {key : Key} {s : State} (hready : s.engine = .ready) (hwf : ¬ s.tree.WF) :
    encodeKey key s = s.raiseFault .corruptTree := by
  simp [encodeKey, hready, s.tree.wf_eq_false_iff.2 hwf]

section Checks
variable {key : Key} {s : State} (hready : s.engine = .ready) (hwf : s.tree.WF)
include hready hwf

theorem encodeKey_of_known {leaf : Nat} (hl : s.tree.lookup key = some leaf) :
    encodeKey key s = if s.atMaxWeight then s.raiseFault .weightOverflow else encodeKnown key leaf s := by
  simp [encodeKey, hready, s.tree.wf_iff.2 hwf, hl]

theorem encodeKey_of_new (hnew : s.tree.lookup key = none) :
    encodeKey key s =
      if s.lacksRoom then s.raiseFault .capacityExceeded
      else if s.atMaxWeight then s.raiseFault .weightOverflow
      else encodeNew key s := by
  simp [encodeKey, hready, s.tree.wf_iff.2 hwf, hnew]

end Checks

/-- Settles O18: each check in turn, those before it having passed. -/
theorem encodeChecksInOrder : Obligations.EncodeChecksInOrder := by
  intro i s key hkey
  rw [exec_of_encodedKey hkey]
  refine ⟨fun hready => ?_, fun hready hwf => ?_, fun hready hwf hnew hroom => ?_, fun hready hwf hnew hroom hmax => ?_,
    fun leaf hready hwf hl hmax => ?_⟩
  · rw [encodeKey_of_not_ready hready]
    rfl
  · rw [encodeKey_of_not_wf hready hwf]
    rfl
  · rw [encodeKey_of_new hready hwf hnew, if_pos (s.lacksRoom_eq_true_iff.2 hroom)]
    rfl
  · rw [encodeKey_of_new hready hwf hnew, s.lacksRoom_eq_false_iff.2 hroom, s.atMaxWeight_eq_true_iff.2 hmax]
    rfl
  · rw [encodeKey_of_known hready hwf hl, if_pos (s.atMaxWeight_eq_true_iff.2 hmax)]
    rfl

/-! ## The whole next state -/

/-- The end of an OK encode that began in READY (40_encode.md R102, R106, R109). -/
theorem State.finishEncode_of_ready {s : State} (hready : s.engine = .ready) (key : Key) (res : ResultCode) (len : Nat) :
    s.finishEncode key res len =
      { s with
        engine := engineAfter key, lastResult := res, lastLen := BitVec.ofNat 32 len, cmd := none
        history := s.history ++ [.respond (okRecord res.code (BitVec.ofNat 32 len) 0#1 0#64)] } := by
  unfold State.finishEncode engineAfter
  cases key.kind with
  | ord => exact hready ▸ rfl
  | endMark => rfl

/-- Settles O16: every check passes, and the events of growth stand between the code and the response. -/
theorem encodeOfNewKeyCompletes : Obligations.EncodeOfNewKeyCompletes := by
  intro i s key hkey hready hwf hnew hroom hmax
  have hbranch : encodeKey key s = encodeNew key s := by
    rw [encodeKey_of_new hready hwf hnew, s.lacksRoom_eq_false_iff.2 hroom, s.atMaxWeight_eq_false_iff.2 hmax]
    rfl
  rw [exec_of_encodedKey hkey, hbranch, encodeNew, State.finishEncode_of_ready]
  · simp [State.setTree, State.indexInsert, State.writeLit, State.writeBits, grownTree, CodeTree.depth, ResultCode.code]
  · exact hready

/-- Settles O17: every check passes, and the code is the leaf's before the pass. -/
theorem encodeOfKnownKeyCompletes : Obligations.EncodeOfKnownKeyCompletes := by
  intro i s key leaf hkey hready hwf hl hmax
  have hbranch : encodeKey key s = encodeKnown key leaf s := by
    rw [encodeKey_of_known hready hwf hl, s.atMaxWeight_eq_false_iff.2 hmax]
    rfl
  rw [exec_of_encodedKey hkey, hbranch, encodeKnown, State.finishEncode_of_ready]
  · rfl
  · exact hready

/-! ## What an OK encode has written -/

/-- An encode stops with no more than its response, or completes for a known or for a new key. -/
theorem encodeKey_outcomes (key : Key) (s : State) :
    (∃ c, encodeKey key s = s.raiseReject c) ∨ (∃ c, encodeKey key s = s.raiseFault c) ∨
    (∃ leaf, s.tree.lookup key = some leaf ∧ encodeKey key s = encodeKnown key leaf s) ∨
    (s.tree.lookup key = none ∧ encodeKey key s = encodeNew key s) := by
  obtain ⟨-, h⟩ | ⟨-, -, h⟩ | ⟨-, -, ⟨leaf, hl, ⟨-, h⟩ | ⟨-, h⟩⟩ | ⟨hnew, ⟨-, h⟩ | ⟨-, -, h⟩ | ⟨-, -, h⟩⟩⟩ :=
    encodeKey_cases key s
  · exact .inl ⟨_, h⟩
  · exact .inr (.inl ⟨_, h⟩)
  · exact .inr (.inl ⟨_, h⟩)
  · exact .inr (.inr (.inl ⟨leaf, hl, h⟩))
  · exact .inr (.inl ⟨_, h⟩)
  · exact .inr (.inl ⟨_, h⟩)
  · exact .inr (.inr (.inr ⟨hnew, h⟩))

@[simp] theorem encodeKnown_tree (key : Key) (leaf : Nat) (s : State) :
    (encodeKnown key leaf s).tree = CodeTree.update s.params s.tree leaf := by simp [encodeKnown]

@[simp] theorem encodeNew_tree (key : Key) (s : State) : (encodeNew key s).tree = grownTree s.params s.tree key := by
  simp [encodeNew]

theorem encodeKnown_wrote (key : Key) (leaf : Nat) (s : State) :
    s.Wrote (encodeKnown key leaf s) (s.tree.pathTo leaf) [] := by
  simp [State.Wrote, encodeKnown, State.finishEncode_outputs]

theorem encodeNew_wrote (key : Key) (s : State) : s.Wrote (encodeNew key s) (s.tree.pathTo ESC) [key] := by
  simp [State.Wrote, encodeNew, State.finishEncode_outputs]

/-- After a new key's growth and pass the key has the leaf that growth added (42_tree_growth.md R145). -/
theorem lookup_grownTree {t : CodeTree} {key : Key} (hnew : t.lookup key = none) (p : Params) :
    (grownTree p t key).lookup key = some t.addedLeaf := by
  rw [grownTree, CodeTree.lookup_update]
  exact (addRegistersTheKey t key key hnew).1

/-- Settles O19: an OK response is no rejection and no fault, so the encode wrote for a known or for a new key. -/
theorem literalOnlyOnFirstOccurrence : Obligations.LiteralOnlyOnFirstOccurrence := by
  intro s t key r hkey _ h hr hok
  cases (exec_of_encodedKey hkey).symm.trans h
  obtain ⟨c, e⟩ | ⟨c, e⟩ | ⟨leaf, hl, e⟩ | ⟨hnew, e⟩ := encodeKey_outcomes key s
  all_goals rw [e] at hr ⊢
  · obtain rfl := (State.answered_respond s (.ofStatus c.code)).unique hr
    cases c <;> exact absurd hok (by decide)
  · obtain rfl := (State.answered_respond _ (.ofStatus c.code)).unique hr
    cases c <;> exact absurd hok (by decide)
  · obtain ⟨-, hlits⟩ := encodeKnown_wrote key leaf s
    exact ⟨fun hnone => by simp [hl] at hnone, fun _ => by rw [hlits, List.append_nil], leaf, by simpa using hl⟩
  · obtain ⟨hbits, hlits⟩ := encodeNew_wrote key s
    refine ⟨fun _ => ⟨hlits, hbits⟩, fun ⟨leaf, hl⟩ => by simp [hnew] at hl, s.tree.addedLeaf, ?_⟩
    rw [encodeNew_tree, lookup_grownTree hnew]

/-! ## The end marker on both sides -/

/-- Without an end-marker leaf the end marker is a new key. -/
theorem CodeTree.NoEndLeaf.lookup_endKey {t : CodeTree} (h : t.NoEndLeaf) : t.lookup endKey = none := by
  refine (t.lookup_eq_none endKey).2 fun i hi => ?_
  simpa [carries, endKey] using h i hi

/-- In a tree without an end-marker leaf an ENCODE_NULL that ends the stream has written the escape code and the end
marker, and has grown (40_encode.md R106). -/
theorem encodeKey_endKey_of_ended {e : State} (hready : e.engine = .ready) (hno : e.tree.NoEndLeaf)
    (hended : (encodeKey endKey e).engine = .ended) : encodeKey endKey e = encodeNew endKey e := by
  obtain ⟨c, h⟩ | ⟨c, h⟩ | ⟨leaf, hl, -⟩ | ⟨-, h⟩ := encodeKey_outcomes endKey e
  · simp [h, hready] at hended
  · simp [h] at hended
  · simp [hno.lookup_endKey] at hl
  · exact h

/-- DECODE of the escape code and the end marker ends the stream and keeps the tree (41_decode.md R124). -/
theorem decodeFn_of_endKey {d : State} {rb : List BitToken} {rl : List LitToken} (hready : d.engine = .ready)
    (hwf : d.tree.WF) (hbits : d.bitIn = bitTokens (d.tree.pathTo ESC) ++ rb) (hlits : d.litIn = .lit endKey :: rl) :
    decodeFn d = .done (decodeEnd (d.tree.pathTo ESC).length
      ((d.bitsRead (d.tree.pathTo ESC) rb).literalRead endKey rl)) := by
  have hwalk := hwf.walk_escape_code rb
  rw [← hbits] at hwalk
  rw [decodeFn_of_leaf hready hwf hwalk, decodeAtLeaf_of_literal hwf.kind_esc hlits,
    State.consumeBits_eq_bitsRead hbits]
  simp [decodeLiteral, endKey, State.consumeLit, State.literalRead, State.bitsRead, hlits]

/-- Settles O33: under the invariant the end marker is a new key, and the decoder reads it after the escape code. -/
theorem endMarkerEndsBothSides : Obligations.EndMarkerEndsBothSides := by
  intro e e' d bits lits rb rl he hd _ htree heready hdready h hended hbitOut hlitOut hbits hlits
  cases (exec_of_encodedKey (i := .encodeNull) (key := endKey) rfl).symm.trans h
  have hnew : encodeKey endKey e = encodeNew endKey e :=
    encodeKey_endKey_of_ended heready (he.noEnd (by simp [heready])) hended
  obtain ⟨rfl, rfl⟩ : bits = e.tree.pathTo ESC ∧ lits = [endKey] :=
    State.Wrote.unique ⟨hbitOut, hlitOut⟩ (hnew ▸ encodeNew_wrote endKey e)
  rw [htree] at hbits
  refine ⟨?_, _, exec_decode_of_done (decodeFn_of_endKey hdready hd.wf hbits hlits), rfl, rfl, rfl, rfl, rfl⟩
  rw [hnew, encodeNew_tree, grownTree, CodeTree.count_update, CodeTree.count_add]

end Sys2Proof.Machine
end

section
/-! DECODE read to its end: beside the encoder, at a known leaf, at a literal after the escape code, at the empty slot. -/
namespace Sys2Proof.Machine

/-! ## Beside the encoder -/

/-- Settles O32: an OK ENCODE wrote a code, and a literal for a new symbol, which the decoder's walk leads through. -/
theorem decoderFollowsEncoder : Obligations.DecoderFollowsEncoder := by
  intro e e' d bits lits rb rl _ _ hparams htree _ hready h he' hbitOut hlitOut hbits hlits
  cases (exec_of_encodedKey (i := .encode) (key := e.symKey) rfl).symm.trans h
  obtain ⟨bits', lits', hwrote, hfollows⟩ := decodeFn_follows_encodeKey he'
  obtain ⟨rfl, rfl⟩ := hwrote.unique ⟨hbitOut, hlitOut⟩
  obtain ⟨d', hd', hf⟩ := hfollows hparams.symm htree.symm hready hbits hlits
  exact ⟨d', exec_decode_of_done hd', hf.engine, hf.tree, hf.bitIn, hf.litIn, hf.lastLen, hf.symbol⟩

/-! ## What has been read when the checks of R128 begin -/

/-- The literal at the head of LIT_IN is read (20_memory.md R67). -/
theorem State.consumeLit_eq_literalRead {s : State} {l : Literal} {ls : List LitToken} (h : s.litIn = .lit l :: ls) :
    s.consumeLit l = s.literalRead l ls := by
  rw [State.consumeLit, h, List.tail_cons, State.literalRead]

section Read
variable {s : State} {rest : List BitToken} (hready : s.engine = .ready) (hwf : s.tree.WF)
include hready hwf

/-- DECODE of the code of a leaf with a key reads exactly its bits (41_decode.md R122). -/
theorem exec_decode_of_known_code {x : Nat} (hx : x < s.tree.count)
    (hk : (s.tree.node x).kind = .ordinary ∨ (s.tree.node x).kind = .endMarker)
    (hbits : s.bitIn = bitTokens (s.tree.pathTo x) ++ rest) :
    exec .decode s = .next (decodeKnown x (s.tree.depth x) (s.bitsRead (s.tree.pathTo x) rest)) := by
  have hwalk := hwf.walk_leaf_code hx (CodeTree.isLeaf_of_kind hk) rest
  rw [← hbits] at hwalk
  have hne : (s.tree.node x).kind ≠ .escape := by rcases hk with hk | hk <;> simp [hk]
  rw [exec_decode_of_done ((decodeFn_of_leaf hready hwf hwalk).trans (decodeAtLeaf_of_known hne _)),
    State.consumeBits_eq_bitsRead hbits, CodeTree.depth]

/-- DECODE of the escape code reads exactly its bits and one literal (41_decode.md R122, R123). -/
theorem exec_decode_of_escape_code {l : Literal} {ls : List LitToken}
    (hbits : s.bitIn = bitTokens (s.tree.pathTo ESC) ++ rest) (hlits : s.litIn = .lit l :: ls) :
    exec .decode s =
      .next (decodeLiteral l (s.tree.depth ESC) ((s.bitsRead (s.tree.pathTo ESC) rest).literalRead l ls)) := by
  have hwalk := hwf.walk_escape_code rest
  rw [← hbits] at hwalk
  rw [exec_decode_of_done ((decodeFn_of_leaf hready hwf hwalk).trans (decodeAtLeaf_of_literal hwf.kind_esc hlits _)),
    State.consumeBits_eq_bitsRead hbits, State.consumeLit_eq_literalRead (s := s.bitsRead _ rest) hlits, CodeTree.depth]

end Read

/-! ## A known leaf -/

/-- Settles O21: the pass counts the leaf, whose kind decides between its symbol and the end of the stream. -/
theorem decodeOfKnownLeafCompletes : Obligations.DecodeOfKnownLeafCompletes := by
  intro s x rest hready hwf hx hbits hmax
  have hmax := s.atMaxWeight_eq_false_iff.2 hmax
  refine ⟨fun hk => ?_, fun hk => ?_⟩
  · rw [exec_decode_of_known_code hready hwf hx (.inl hk) hbits,
      decodeKnown_of_symbol (s := s.bitsRead _ rest) hmax (by simp [State.bitsRead, hk])]
    rfl
  · rw [exec_decode_of_known_code hready hwf hx (.inr hk) hbits,
      decodeKnown_of_endMarker (s := s.bitsRead _ rest) hmax hk]
    rfl

/-- Settles O28: the state, the tree before any read, and the root's weight once the leaf is reached. -/
theorem decodeChecksInOrder : Obligations.DecodeChecksInOrder := by
  refine fun s => ⟨fun hready => ?_, fun hready hwf => ?_, fun x rest hready hwf hx hk hbits hmax => ?_⟩
  · rw [exec_decode_of_done (decodeFn_of_not_ready hready)]
    rfl
  · rw [exec_decode_of_done (decodeFn_of_not_wf hready hwf)]
    rfl
  · rw [exec_decode_of_known_code hready hwf hx hk hbits,
      decodeKnown_of_atMaxWeight (s := s.bitsRead _ rest) (s.atMaxWeight_eq_true_iff.2 hmax)]
    rfl

/-! ## A literal after the escape code -/

/-! The checks of R126 and R128 in their order. -/

section New
variable {key : Key} {n : Nat} {s : State}

theorem decodeNew_of_known {leaf : Nat} (hl : s.tree.lookup key = some leaf) :
    decodeNew key n s = s.raiseFault .corruptTree := by simp [decodeNew, hl]

variable (hnew : s.tree.lookup key = none)
include hnew

theorem decodeNew_of_lacksRoom (hroom : s.lacksRoom = true) :
    decodeNew key n s = s.raiseFault .capacityExceeded := by simp [decodeNew, hnew, hroom]

theorem decodeNew_of_atMaxWeight (hroom : s.lacksRoom = false) (hmax : s.atMaxWeight = true) :
    decodeNew key n s = s.raiseFault .weightOverflow := by simp [decodeNew, hnew, hroom, hmax]

/-- A new key that passes every check is added and counted (41_decode.md R125). -/
theorem decodeNew_of_checks_passed (hroom : s.lacksRoom = false) (hmax : s.atMaxWeight = false) :
    decodeNew key n s =
      (((s.indexInsert key s.tree.addedLeaf).setTree (grownTree s.params s.tree key)).setResult .decNew n).respond
        (.okDecode .decNew n key) := by simp [decodeNew, hnew, hroom, hmax]

end New

/-- DECODE of the escape code and an ordinary literal (41_decode.md R123): the literal's `SYM_W` bits are the key. -/
theorem exec_decode_of_ordinary_literal {s : State} {v : SymVal} {rest : List BitToken} {ls : List LitToken}
    (hready : s.engine = .ready) (hwf : s.tree.WF) (hbits : s.bitIn = bitTokens (s.tree.pathTo ESC) ++ rest)
    (hlits : s.litIn = .lit { kind := .ord, value := v } :: ls) :
    exec .decode s = .next (decodeNew (ordKey s.params v) (s.tree.depth ESC)
      ((s.bitsRead (s.tree.pathTo ESC) rest).literalRead { kind := .ord, value := v } ls)) :=
  exec_decode_of_escape_code hready hwf hbits hlits

/-- Settles O22: every check passes, and the event of growth stands between the reads and the response. -/
theorem decodeOfNewSymbolCompletes : Obligations.DecodeOfNewSymbolCompletes := by
  intro s v rest ls hready hwf hbits hlits key hnew hroom hmax
  rw [exec_decode_of_ordinary_literal hready hwf hbits hlits, decodeNew_of_checks_passed]
  · rfl
  · exact hnew
  · exact s.lacksRoom_eq_false_iff.2 hroom
  · exact s.atMaxWeight_eq_false_iff.2 hmax

/-- Settles O27: each check in turn, those before it having passed. -/
theorem decodeOfLiteralChecksInOrder : Obligations.DecodeOfLiteralChecksInOrder := by
  intro s v rest ls hready hwf hbits hlits key read
  have hexec : exec .decode s = .next (decodeNew key (s.tree.depth ESC) read) :=
    exec_decode_of_ordinary_literal hready hwf hbits hlits
  rw [hexec]
  refine ⟨fun ⟨leaf, hl⟩ => ?_, fun hnew hroom => ?_, fun hnew hroom hmax => ?_⟩
  · rw [decodeNew_of_known (s := read) hl]
    rfl
  · rw [decodeNew_of_lacksRoom (s := read) hnew (s.lacksRoom_eq_true_iff.2 hroom)]
    rfl
  · rw [decodeNew_of_atMaxWeight (s := read) hnew (s.lacksRoom_eq_false_iff.2 hroom) (s.atMaxWeight_eq_true_iff.2 hmax)]
    rfl

/-- Settles O23: an END literal is looked at for its kind alone, and no check stands behind it. -/
theorem decodeOfEndLiteralEndsTheStream : Obligations.DecodeOfEndLiteralEndsTheStream := by
  intro s v rest ls hready hwf hbits hlits
  rw [exec_decode_of_escape_code hready hwf hbits hlits]
  rfl

/-! ## The empty slot -/

/-- From three nodes on an internal node has a child in both slots (10_state.md R40). -/
theorem CodeTree.Shape.exists_child_in_slot {t : CodeTree} (h : t.Shape) {i : Nat} (hi : i < t.count)
    (hint : t.isLeaf i = false) (b : Bool) : ∃ c < t.count, t.child i b = some c := by
  obtain ⟨c, hc, hp⟩ := h.exists_child hi (by simpa [CodeTree.isLeaf] using hint)
  obtain ⟨k, hk, -, -, -, -, ⟨hlow, hhigh⟩ | ⟨hlow, hhigh⟩⟩ := h.sibling hc hp
  all_goals cases b
  · exact ⟨c, hc, hlow⟩
  · exact ⟨k, hk, hhigh⟩
  · exact ⟨k, hk, hlow⟩
  · exact ⟨c, hc, hhigh⟩

/-- From three nodes on the walk never meets an empty slot (41_decode.md R131). -/
theorem CodeTree.Shape.walk_ne_emptySlot {t : CodeTree} (h : t.Shape) (toks : List BitToken) {i : Nat}
    (hi : i < t.count) (m n : Nat) : t.walk i m toks ≠ .emptySlot n := by
  induction toks generalizing i m with
  | nil => cases hleaf : t.isLeaf i <;> simp [CodeTree.walk, hleaf]
  | cons tok toks ih =>
    cases hleaf : t.isLeaf i with
    | true =>
      rw [t.walk_of_leaf hleaf]
      nofun
    | false =>
      cases tok with
      | eos => simp [CodeTree.walk, hleaf]
      | bit b =>
        obtain ⟨c, hc, hchild⟩ := h.exists_child_in_slot hi hleaf b
        rw [t.walk_of_bit hleaf hchild]
        exact ih hc _

/-- In the two-node tree the root's high slot is empty (41_decode.md R131). -/
theorem CodeTree.WF.walk_true_of_two_nodes {t : CodeTree} (h : t.WF) (h2 : t.count = 2) (rest : List BitToken) :
    t.walk ROOT 0 (.bit true :: rest) = .emptySlot 1 := by
  obtain ⟨a, b, rfl⟩ := h.eq_twoNodes h2
  rfl

/-- Settles O26: the two-node tree's one empty slot is the root's, and no larger tree has one. -/
theorem emptySlotOnlyInTheInitialTree : Obligations.EmptySlotOnlyInTheInitialTree := by
  refine fun s hwf => ⟨fun rest hready h2 hbits => ?_, fun h2 toks n => ?_⟩
  · have hwalk := hwf.walk_true_of_two_nodes h2 rest
    rw [← hbits] at hwalk
    have hread : s.consumeBits 1 = s.bitsRead [true] rest := State.consumeBits_eq_bitsRead (bs := [true]) hbits
    rw [exec_decode_of_done (decodeFn_of_emptySlot hready hwf hwalk), hread]
    rfl
  · have htwo := hwf.two_le_count
    have hshape : s.tree.Shape := hwf.shape (by omega)
    exact hshape.walk_ne_emptySlot toks hshape.root_lt 0 n

end Sys2Proof.Machine
end

section
/-! Growth in full: which case applies, and what each one writes. -/
namespace Sys2Proof.Machine

/-! ## Which case applies -/

/-- Growth's two cases by size: no well-formed tree is smaller than INIT's. -/
theorem CodeTree.WF.two_or_three_le {t : CodeTree} (h : t.WF) : t.count = 2 ∨ 3 ≤ t.count := by
  have := h.two_le_count
  omega

theorem CodeTree.WF.escape_weight {t : CodeTree} (h : t.WF) : (t.node ESC).weight = 0 := by
  obtain ⟨-, -, -, -, -, -, -, -, -, -, -, hweight, -⟩ := h
  exact hweight

/-- The escape is not the root, so it has a parent (10_state.md R39, R41). -/
theorem CodeTree.Shape.exists_escape_parent {t : CodeTree} (h : t.Shape) : ∃ p, (t.node ESC).parent = some p :=
  h.exists_parent h.esc_lt (by decide)

/-- Case A applies to the two-node tree and to no larger one (42_tree_growth.md R147). -/
theorem CodeTree.WF.hasEmptySlot_iff {t : CodeTree} (h : t.WF) : t.hasEmptySlot = true ↔ t.count = 2 := by
  obtain h2 | h3 := h.two_or_three_le
  · obtain ⟨a, b, rfl⟩ := h.eq_twoNodes h2
    exact iff_of_true rfl h2
  · obtain ⟨p, hp⟩ := (h.shape h3).exists_escape_parent
    simp only [(h.shape h3).hasEmptySlot_eq_false hp, Bool.false_eq_true, false_iff]
    omega

/-- Settles O37: `need` is chosen by the empty slot alone, which only the two-node tree has. -/
theorem caseAExactlyAtTwoNodes : Obligations.CaseAExactlyAtTwoNodes := fun _ h =>
  ⟨h.hasEmptySlot_iff, fun h2 => if_pos (h.hasEmptySlot_iff.2 h2), fun h2 => if_neg (mt h.hasEmptySlot_iff.1 h2)⟩

/-! ## The new leaf, field by field -/

/-- An END key has the value 0 (00_scope.md R16), so either kind of leaf holds its key's value. -/
theorem newLeaf_eq {key : Key} (hkey : key.kind = .endMark → key.value = 0#64) (p : Nat) : newLeaf key p =
    { kind := if key.kind = .ord then .ordinary else .endMarker, sym := key.value, weight := 0, low := none,
      high := none, parent := some p } := by
  unfold newLeaf
  cases hk : key.kind with
  | ord => rfl
  | endMark => rw [hkey hk]; rfl

/-! ## Case A -/

/-- Settles O35: the two-node tree is INIT's but for its symbol fields, and grows by evaluation. -/
theorem firstGrowthFillsTheEmptySlot : Obligations.FirstGrowthFillsTheEmptySlot := by
  intro t key hwf h2 hkey
  obtain ⟨a, b, rfl⟩ := hwf.eq_twoNodes h2
  rw [add_twoNodes, ← newLeaf_eq hkey]
  exact ⟨rfl, rfl, rfl⟩

/-! ## Case B -/

section CaseB
variable {t : CodeTree} (h : t.Shape) {p : Nat} (hp : (t.node ESC).parent = some p) (key : Key)
include h hp

theorem CodeTree.Shape.escape_parent_lt : p < t.count := (h.parent_spec h.esc_lt hp).1

theorem CodeTree.Shape.escape_parent_ne_esc : p ≠ ESC := h.ne_esc_of_internal (h.internal_of_parent h.esc_lt hp)

/-- The escape's old parent only changes its low slot (42_tree_growth.md R142). -/
theorem CodeTree.Shape.node_add_escape_parent : (t.add key).node p = { t.node p with low := some t.count } := by
  rw [h.node_add_old hp key (h.escape_parent_lt hp), if_pos rfl, if_neg (h.escape_parent_ne_esc hp)]

/-- The escape only changes its parent (42_tree_growth.md R142). -/
theorem CodeTree.Shape.node_add_esc : (t.add key).node ESC = { t.node ESC with parent := some t.count } := by
  rw [h.node_add_old hp key h.esc_lt, if_neg (h.escape_parent_ne_esc hp).symm, if_pos rfl]

theorem CodeTree.Shape.node_add_other {j : Nat} (hj : j < t.count) (hjp : j ≠ p) (hje : j ≠ ESC) :
    (t.add key).node j = t.node j := by
  rw [h.node_add_old hp key hj, if_neg hjp, if_neg hje]

theorem CodeTree.Shape.addedLeaf_eq : t.addedLeaf = t.count + 1 := by rw [CodeTree.addedLeaf, h.need_eq hp]; rfl

end CaseB

/-- Settles O36: the two new entries, then the old ones that are written, then the rest and the order. -/
theorem laterGrowthSplitsTheEscape : Obligations.LaterGrowthSplitsTheEscape := by
  intro t key p hwf h3 hkey hp
  have h := hwf.shape h3
  have hmid := h.node_add_mid hp key
  rw [hwf.escape_weight] at hmid
  exact ⟨h.count_add hp key, h.addedLeaf_eq hp, hmid, (h.node_add_leaf hp key).trans (newLeaf_eq hkey _),
    h.node_add_escape_parent hp key, h.node_add_esc hp key, fun _ => h.node_add_other hp key, h.order_add hp key⟩

/-! ## The escape's slot -/

/-- The escape is the low child of its parent in every well-formed tree (42_tree_growth.md R148). -/
theorem CodeTree.WF.exists_escape_parent {t : CodeTree} (h : t.WF) :
    ∃ p, (t.node ESC).parent = some p ∧ (t.node p).low = some ESC := by
  obtain h2 | h3 := h.two_or_three_le
  · obtain ⟨a, b, rfl⟩ := h.eq_twoNodes h2
    exact ⟨ROOT, rfl, rfl⟩
  · obtain ⟨p, hp⟩ := (h.shape h3).exists_escape_parent
    exact ⟨p, hp, (h.shape h3).low_of_escape_parent hp⟩

/-- Settles O38: the slot is read off each of the two shapes, and Case B writes it at the escape's old parent. -/
theorem escapeIsAlwaysALowChild : Obligations.EscapeIsAlwaysALowChild := by
  refine fun t hwf => ⟨hwf.exists_escape_parent, fun key p hp h2 => ?_⟩
  have h3 : 3 ≤ t.count := hwf.two_or_three_le.resolve_left h2
  rw [(hwf.shape h3).node_add_escape_parent hp key]

end Sys2Proof.Machine
end

section
/-! The comparator and the swap in full: which node is the successor, and what a swap exchanges. -/
namespace Sys2Proof.Machine

/-! ## Related nodes -/

theorem CodeTree.related_comm (t : CodeTree) (a b : Nat) : t.related a b = t.related b a := by
  unfold CodeTree.related
  rw [Bool.beq_comm, Bool.or_assoc, Bool.or_assoc, Bool.or_comm (t.ancestor a b)]

theorem CodeTree.related_eq_false_iff {t : CodeTree} {a b : Nat} :
    t.related a b = false ↔ a ≠ b ∧ a ∉ t.climb t.count b ∧ b ∉ t.climb t.count a := by
  simp [CodeTree.related, CodeTree.ancestor, and_assoc]

/-- Every node is the root or below it (10_state.md R39). -/
theorem CodeTree.WF.related_root {t : CodeTree} (h : t.WF) {i : Nat} (hi : i < t.count) : t.related ROOT i = true := by
  obtain h2 | h3 := h.two_or_three_le
  · obtain ⟨u, v, rfl⟩ := h.eq_twoNodes h2
    have hi' : i < 2 := hi
    obtain rfl | rfl : i = 0 ∨ i = 1 := by omega
    · rfl
    · rfl
  · exact (h.shape h3).related_root hi

theorem CodeTree.WF.ne_root_of_unrelated {t : CodeTree} (h : t.WF) {a b : Nat} (hb : b < t.count)
    (hrel : t.related a b = false) : a ≠ ROOT := by
  rintro rfl
  simp [h.related_root hb] at hrel

theorem CodeTree.Shape.not_mem_climb_self {t : CodeTree} (h : t.Shape) {i : Nat} (hi : i < t.count) (f : Nat) :
    i ∉ t.climb f i := fun hmem => by
  cases hp : (t.node i).parent with
  | none => simp [CodeTree.climb_of_no_parent hp] at hmem
  | some p => exact absurd (h.rank_parent_le_of_mem_climb hi hp hmem).2 (h.rank_lt_parent hi hp).not_ge

/-! ## The successor -/

theorem CodeTree.WF.lists {t : CodeTree} (h : t.WF) : t.OrderLists := by
  obtain ⟨hlists, -⟩ := h
  exact hlists

theorem CodeTree.WF.exists_parent {t : CodeTree} (h : t.WF) {i : Nat} (hi : i < t.count) (hr : i ≠ ROOT) :
    ∃ p, (t.node i).parent = some p := by
  obtain ⟨-, ⟨-, hparent⟩, -⟩ := h
  obtain ⟨p, -, hp, -⟩ := hparent i hi hr
  exact ⟨p, hp⟩

/-- The successor is the candidate that no candidate ranks above (43_tree_update.md R163). -/
theorem CodeTree.successor_eq_some_iff {t : CodeTree} (h : t.OrderLists) {x y : Nat} :
    t.successor x = some y ↔ y ∈ t.candidates x ∧ ∀ z ∈ t.candidates x, t.rank z ≤ t.rank y := by
  refine ⟨CodeTree.successor_spec h, fun ⟨hy, hmax⟩ => ?_⟩
  cases hs : t.successor x with
  | none => simp [(t.successor_eq_none x).1 hs] at hy
  | some s =>
    obtain ⟨hsmem, hsmax⟩ := CodeTree.successor_spec h hs
    have hrank : t.rank s = t.rank y := (hmax s hsmem).antisymm (hsmax y hy)
    rw [CodeTree.rank_inj h ((CodeTree.mem_candidates_iff h).1 hsmem).1 ((CodeTree.mem_candidates_iff h).1 hy).1 hrank]

/-- Settles O40: the candidates of the statement are the comparator's, and the last of them in `ORDER` is the highest. -/
theorem successorIsTheHighestCandidate : Obligations.SuccessorIsTheHighestCandidate := by
  intro t x hwf _
  have hcand := fun y => CodeTree.mem_candidates_iff hwf.lists (x := x) (y := y)
  simp only [← hcand]
  exact ⟨fun y => CodeTree.successor_eq_some_iff hwf.lists,
    (t.successor_eq_none x).trans List.eq_nil_iff_forall_not_mem⟩

/-- The root takes no part in a swap: a node and its successor are unrelated (43_tree_update.md R168). -/
theorem CodeTree.WF.ne_root_of_successor {t : CodeTree} (h : t.WF) {x y : Nat} (hx : x < t.count)
    (hs : t.successor x = some y) : y < t.count ∧ x ≠ ROOT ∧ y ≠ ROOT := by
  obtain ⟨hy, -, -, hrel⟩ := (CodeTree.mem_candidates_iff h.lists).1 (t.successor_mem hs)
  exact ⟨hy, h.ne_root_of_unrelated hy (t.related_comm x y ▸ hrel), h.ne_root_of_unrelated hx hrel⟩

/-- Settles O41: the root takes no part in a swap, and every other node has a parent. -/
theorem rootIsNeverSwapped : Obligations.RootIsNeverSwapped := by
  intro t hwf
  have hparent : ∀ i < t.count, i ≠ ROOT → (t.node i).parent ≠ none := fun i hi hr => by
    obtain ⟨p, hp⟩ := hwf.exists_parent hi hr
    simp [hp]
  refine ⟨Option.eq_none_iff_forall_ne_some.2 fun y hs => ?_, fun x y hx hs => ?_⟩
  · obtain ⟨-, hroot, -⟩ := hwf.ne_root_of_successor (Nat.lt_of_lt_of_le Nat.zero_lt_two hwf.two_le_count) hs
    exact hroot rfl
  · obtain ⟨hy, hxr, hyr⟩ := hwf.ne_root_of_successor hx hs
    exact ⟨hxr, hyr, hparent x hx hxr, hparent y hy hyr⟩

/-! ## The swap, entry by entry -/

theorem exchangedSlot_eq_map (a b : Nat) (o : Option Nat) : exchangedSlot a b o = o.map (Equiv.swap a b) := by
  cases o with
  | none => rfl
  | some c =>
    simp only [exchangedSlot, Option.map_some, Option.some.injEq, Equiv.swap_apply_def]
    split_ifs <;> rfl

/-- A swap writes no free entry. -/
theorem CodeTree.node_swap_of_free (t : CodeTree) (a b : Nat) {i : Nat} (hi : t.count ≤ i) :
    (t.swap a b).node i = t.node i := by
  rw [t.node_of_free hi, CodeTree.node_of_free _ (by rwa [CodeTree.count_swap])]

section SwapOfAny
variable {t : CodeTree} (h : t.Shape) {a b : Nat} (ha : a < t.count) (hb : b < t.count) (hab : a ≠ b)
  (hra : a ≠ ROOT) (hrb : b ≠ ROOT)
include h ha hb hab hra hrb

/-- A swap moves nodes with their weights, free entries included (43_tree_update.md R166). -/
theorem CodeTree.Shape.weight_swap_eq (i : Nat) : ((t.swap a b).node i).weight = (t.node i).weight := by
  obtain hi | hi := lt_or_ge i t.count
  · rw [h.node_swap_eq ha hb hab hra hrb hi]
    rfl
  · rw [t.node_swap_of_free a b hi]

theorem CodeTree.Shape.slots_swap_eq {i : Nat} (hi : i < t.count) :
    ((t.swap a b).node i).low = exchangedSlot a b (t.node i).low ∧
    ((t.swap a b).node i).high = exchangedSlot a b (t.node i).high := by
  rw [h.node_swap_eq ha hb hab hra hrb hi, exchangedSlot_eq_map, exchangedSlot_eq_map]
  exact ⟨rfl, rfl⟩

/-- A node that holds neither of the two keeps its slots (43_tree_update.md R166). -/
theorem CodeTree.Shape.slots_swap_of_parent_ne {i : Nat} (hpa : (t.node a).parent ≠ some i)
    (hpb : (t.node b).parent ≠ some i) :
    ((t.swap a b).node i).low = (t.node i).low ∧ ((t.swap a b).node i).high = (t.node i).high := by
  obtain hi | hi := lt_or_ge i t.count
  · rw [h.node_swap_eq ha hb hab hra hrb hi, CodeTree.swapped,
      Node.exchange_of_ne (h.slots_ne_of_parent_ne hi hpa) (h.slots_ne_of_parent_ne hi hpb)]
    exact ⟨rfl, rfl⟩
  · rw [t.node_swap_of_free a b hi]
    exact ⟨rfl, rfl⟩

theorem CodeTree.Shape.parent_swap_eq {i : Nat} (hi : i < t.count) :
    ((t.swap a b).node i).parent = (t.node (Equiv.swap a b i)).parent := by
  rw [h.node_swap_eq ha hb hab hra hrb hi]
  rfl

/-- A node whose ancestors are not exchanged gets the path of the node whose place it takes: one edge up, both have the
same parent, which holds the one where it held the other. -/
theorem CodeTree.Shape.pathWithin_swap {f i : Nat} (hi : i < t.count) (hca : a ∉ t.climb f (Equiv.swap a b i))
    (hcb : b ∉ t.climb f (Equiv.swap a b i)) : (t.swap a b).pathWithin f i = t.pathWithin f (Equiv.swap a b i) := by
  have hroot : i = ROOT ↔ Equiv.swap a b i = ROOT := by
    rw [Equiv.swap_apply_eq_iff, Equiv.swap_apply_of_ne_of_ne hra.symm hrb.symm]
  induction f generalizing i with
  | zero => simp only [CodeTree.pathWithin, hroot]
  | succ f ih =>
    simp only [CodeTree.pathWithin, hroot, h.parent_swap_eq ha hb hab hra hrb hi]
    cases hp : (t.node (Equiv.swap a b i)).parent with
    | none => rfl
    | some p =>
      rw [CodeTree.mem_climb_iff_of_parent hp, not_or] at hca hcb
      obtain ⟨hpa, hca⟩ := hca
      obtain ⟨hpb, hcb⟩ := hcb
      have hplt := h.parent_lt (CodeTree.swap_apply_lt ha hb hi) hp
      have hpp : Equiv.swap a b p = p := Equiv.swap_apply_of_ne_of_ne (Ne.symm hpa) (Ne.symm hpb)
      have hpath := ih hplt (hpp.symm ▸ hca) (hpp.symm ▸ hcb) (by rw [hpp])
      rw [hpp] at hpath
      simp only [h.node_swap_eq ha hb hab hra hrb hplt, CodeTree.swapped, Node.exchange, map_swap_eq_some_iff, hpath]

omit h in
/-- In a well-formed tree that path is `PathTo`, never the free value (log 5). -/
theorem CodeTree.WF.pathTo_swap (hwf : t.WF) (h3 : 3 ≤ t.count) {i : Nat} (hi : i < t.count)
    (hca : a ∉ t.climb t.count (Equiv.swap a b i)) (hcb : b ∉ t.climb t.count (Equiv.swap a b i)) :
    (t.swap a b).pathTo i = t.pathTo (Equiv.swap a b i) := by
  refine CodeTree.pathTo_of_pathWithin ?_
  rw [CodeTree.count_swap, (hwf.shape h3).pathWithin_swap ha hb hab hra hrb hi hca hcb,
    hwf.pathWithin_count (CodeTree.swap_apply_lt ha hb hi)]

end SwapOfAny

/-- Settles O42: in the two-node tree no two nodes are unrelated; in a larger one the entries, the ranks and the paths
are those of the node whose place each takes. -/
theorem swapExchangesPositions : Obligations.SwapExchangesPositions := by
  intro t a b hwf ha hb hrel
  have hra : a ≠ ROOT := hwf.ne_root_of_unrelated hb hrel
  have hrb : b ≠ ROOT := hwf.ne_root_of_unrelated ha (t.related_comm a b ▸ hrel)
  obtain ⟨hab, hca, hcb⟩ := CodeTree.related_eq_false_iff.1 hrel
  have h3 : 3 ≤ t.count := by simp only [ROOT] at hra hrb; omega
  have h := hwf.shape h3
  have hpatha := hwf.pathTo_swap ha hb hab hra hrb h3 ha
  have hpathb := hwf.pathTo_swap ha hb hab hra hrb h3 hb
  have hranka := CodeTree.rank_swap h.lists ha hb ha
  have hrankb := CodeTree.rank_swap h.lists ha hb hb
  have hparent := fun i hi => h.parent_swap_eq ha hb hab hra hrb (i := i) hi
  have hpara := hparent a ha
  have hparb := hparent b hb
  rw [Equiv.swap_apply_left] at hpatha hranka hpara
  rw [Equiv.swap_apply_right] at hpathb hrankb hparb
  refine ⟨hpatha hca (h.not_mem_climb_self hb _), hpathb (h.not_mem_climb_self ha _) hcb, hranka, hrankb, hpara, hparb,
    t.count_swap a b, fun i => ?_, fun i hi hia hib => ?_,
    fun i => h.slots_swap_of_parent_ne ha hb hab hra hrb, fun i => h.slots_swap_eq ha hb hab hra hrb⟩
  · obtain ⟨hkind, hsym⟩ := t.label_swap a b i
    exact ⟨hkind, hsym, h.weight_swap_eq ha hb hab hra hrb i⟩
  · have hfix : Equiv.swap a b i = i := Equiv.swap_apply_of_ne_of_ne hia hib
    rw [CodeTree.rank_swap h.lists ha hb hi, hparent i hi, hfix]
    exact ⟨rfl, rfl⟩

end Sys2Proof.Machine
end

section
/-! The host commands in full, the status each command answers, and the parameters. -/
namespace Sys2Proof.Machine

/-! ## NOP, INIT and READ_NODE -/

/-- Settles O11: both parts are read off the decoder and the command. -/
theorem nopOnlyResponds : Obligations.NopOnlyResponds := ⟨rfl, fun _ => rfl⟩

/-- Settles O12: INIT is `State.restart` with a response, and `State.restart` names neither a channel nor a parameter. -/
theorem initRestartsAndLeavesChannels : Obligations.InitRestartsAndLeavesChannels := ⟨rfl, fun _ => rfl⟩

theorem CodeTree.node_of_getElem? {t : CodeTree} {k : Nat} {nd : Node} (h : t.nodes[k]? = some nd) : t.node k = nd := by
  obtain ⟨hk, rfl⟩ := List.getElem?_eq_some_iff.1 h
  exact t.node_eq_getElem hk

theorem exec_readNode_of_lt {s : State} {k : Nat} (hk : k < s.tree.count) :
    exec (.readNode k) s = .next (s.respond (.okNode (s.tree.record k))) := if_pos hk

theorem exec_readNode_of_le {s : State} {k : Nat} (hk : s.tree.count ≤ k) :
    exec (.readNode k) s = .next (s.raiseReject .badArg) := if_neg hk.not_gt

/-- The word of READ_NODE (30_encoding.md R95). -/
theorem decode_readNode_word {k : Nat} (hk : argFits k = true) :
    decode (BitVec.ofNat 32 (k * 256 + 6)) = .ok (.readNode k) := by
  have hword := packWord_ofNat 0x6#4 hk
  have hdec := decode_packWord_readNode (BitVec.ofNat 24 k)
  rwa [hword, toNat_ofNat_of_argFits hk] at hdec

/-- Settles O15: an entry of the storage is the node its record is made of, and any other index is out of range. -/
theorem readNodeReturnsTheEntry : Obligations.ReadNodeReturnsTheEntry := by
  refine ⟨⟨rfl, rfl, rfl, rfl⟩, fun s k => ⟨fun hk => decode_readNode_word (argFits_iff.2 hk), fun nd hnd => ?_,
    fun hnone => exec_readNode_of_le (List.getElem?_eq_none_iff.1 hnone)⟩⟩
  obtain ⟨hk, -⟩ := List.getElem?_eq_some_iff.1 hnd
  rw [exec_readNode_of_lt hk, CodeTree.record, CodeTree.node_of_getElem? hnd]
  rfl

/-! ## Statuses -/

/-- The statuses the command can end in (60_exceptions.md R212). -/
def statuses : Instr → List (BitVec 4)
  | .nop | .init => [statusOk]
  | .encode | .encodeNull =>
    [statusOk, FaultCause.corruptTree.code, FaultCause.capacityExceeded.code, FaultCause.weightOverflow.code,
      RejectCode.notReady.code]
  | .decode =>
    [statusOk, FaultCause.truncatedStream.code, FaultCause.truncatedFallback.code, FaultCause.corruptTree.code,
      FaultCause.capacityExceeded.code, FaultCause.weightOverflow.code, RejectCode.notReady.code]
  | .readReg _ | .readNode _ => [statusOk, RejectCode.badArg.code]

/-- The last event of `t` is a response with one of these statuses. -/
def State.AnswersIn (t : State) (sts : List (BitVec 4)) : Prop := ∃ r, t.Answered r ∧ r.status ∈ sts

section Answers
variable {s : State} {sts : List (BitVec 4)}

theorem State.AnswersIn.respond {r : Response} (h : r.status ∈ sts) : (s.respond r).AnswersIn sts :=
  ⟨r, s.answered_respond r, h⟩

theorem State.AnswersIn.raiseFault {c : FaultCause} (h : c.code ∈ sts) : (s.raiseFault c).AnswersIn sts :=
  ⟨_, State.answered_respond _ _, h⟩

theorem State.AnswersIn.raiseReject {c : RejectCode} (h : c.code ∈ sts) : (s.raiseReject c).AnswersIn sts :=
  ⟨_, State.answered_respond _ _, h⟩

end Answers

theorem statusOk_mem_statuses (i : Instr) : statusOk ∈ statuses i := by
  cases i <;> exact List.mem_cons_self

/-- A DECODE can end in every fault there is. -/
theorem code_mem_decode_statuses (c : FaultCause) : c.code ∈ statuses .decode := by
  cases c <;> decide

theorem encodeKey_answersIn (key : Key) (s : State) : (encodeKey key s).AnswersIn (statuses .encode) := by
  obtain ⟨-, h⟩ | ⟨-, -, h⟩ | ⟨-, -, ⟨leaf, -, ⟨-, h⟩ | ⟨-, h⟩⟩ | ⟨-, ⟨-, h⟩ | ⟨-, -, h⟩ | ⟨-, -, h⟩⟩⟩ :=
    encodeKey_cases key s
  all_goals rw [h]
  · exact .raiseReject (by decide)
  · exact .raiseFault (by decide)
  · exact .raiseFault (by decide)
  · exact ⟨_, State.answered_finishEncode _ _ _ _, statusOk_mem_statuses .encode⟩
  · exact .raiseFault (by decide)
  · exact .raiseFault (by decide)
  · exact ⟨_, State.answered_finishEncode _ _ _ _, statusOk_mem_statuses .encode⟩

/-! ### Decode -/

theorem State.AnswersIn.decodeFault (s : State) (c : FaultCause) :
    (s.raiseFault c).AnswersIn (statuses .decode) := .raiseFault (code_mem_decode_statuses c)

theorem decodeEnd_answersIn (n : Nat) (s : State) : (decodeEnd n s).AnswersIn (statuses .decode) :=
  .respond (statusOk_mem_statuses .decode)

theorem decodeNew_answersIn (key : Key) (n : Nat) (s : State) :
    (decodeNew key n s).AnswersIn (statuses .decode) := by
  obtain ⟨-, h⟩ | ⟨-, ⟨-, h⟩ | ⟨-, -, h⟩ | ⟨-, -, h⟩⟩ := decodeNew_cases key n s
  all_goals rw [h]
  · exact .decodeFault s _
  · exact .decodeFault s _
  · exact .decodeFault s _
  · exact .respond (statusOk_mem_statuses .decode)

theorem decodeLiteral_answersIn (l : Literal) (n : Nat) (s : State) :
    (decodeLiteral l n s).AnswersIn (statuses .decode) := by
  unfold decodeLiteral
  cases l.kind with
  | endMark => exact decodeEnd_answersIn n s
  | ord => exact decodeNew_answersIn _ n s

theorem decodeKnown_answersIn (x n : Nat) (s : State) : (decodeKnown x n s).AnswersIn (statuses .decode) := by
  cases hmax : s.atMaxWeight with
  | true => exact decodeKnown_of_atMaxWeight hmax ▸ .decodeFault s _
  | false =>
    by_cases hk : (s.tree.node x).kind = .endMarker
    · exact decodeKnown_of_endMarker hmax hk ▸ decodeEnd_answersIn n _
    · exact decodeKnown_of_symbol hmax hk ▸ .respond (statusOk_mem_statuses .decode)

theorem decodeFn_answersIn {s t : State} (h : decodeFn s = .done t) : t.AnswersIn (statuses .decode) := by
  obtain ⟨-, e⟩ | ⟨-, -, e⟩ | ⟨-, -, ⟨-, e⟩ | ⟨n, -, e⟩ | ⟨n, -, e⟩ | ⟨x, n, -, e⟩⟩ := decodeFn_cases s
  all_goals rw [e] at h
  · cases h; exact .raiseReject (by decide)
  · cases h; exact .decodeFault _ _
  · cases h
  · cases h; exact .decodeFault _ _
  · cases h; exact .decodeFault _ _
  · obtain ⟨-, ⟨-, e⟩ | ⟨ls, -, e⟩ | ⟨l, ls, -, e⟩⟩ | ⟨-, e⟩ := decodeAtLeaf_cases x n s
    all_goals rw [e] at h; cases h
    · exact .decodeFault _ _
    · exact decodeLiteral_answersIn l n _
    · exact decodeKnown_answersIn x n _

/-! ### All commands -/

theorem exec_answersIn {i : Instr} {s t : State} (hholds : holds i s = false) (h : exec i s = .next t) :
    t.AnswersIn (statuses i) := by
  have hok := statusOk_mem_statuses i
  cases i with
  | nop => cases h; exact .respond hok
  | init => cases h; exact .respond hok
  | encode => cases h; exact encodeKey_answersIn _ s
  | encodeNull => cases h; exact encodeKey_answersIn _ s
  | decode =>
    obtain ⟨u, hd⟩ := (holds_decode_eq_false_iff s).1 hholds
    cases (exec_decode_of_done hd).symm.trans h
    exact decodeFn_answersIn hd
  | readReg n =>
    obtain ⟨-, e⟩ | ⟨v, -, e⟩ := execReadReg_cases n s
    · cases e.symm.trans h; exact .raiseReject (List.mem_cons_of_mem _ List.mem_cons_self)
    · cases e.symm.trans h; exact .respond hok
  | readNode k =>
    obtain ⟨-, e⟩ | ⟨-, e⟩ := execReadNode_cases k s
    · cases e.symm.trans h; exact .respond hok
    · cases e.symm.trans h; exact .raiseReject (List.mem_cons_of_mem _ List.mem_cons_self)

/-- Settles O52: the last response of a command that does not hold has one of its statuses. -/
theorem statusesOfEachCommand : Obligations.StatusesOfEachCommand := by
  intro i s t r hholds h hr
  obtain ⟨q, hq, hstatus⟩ := exec_answersIn hholds h
  obtain rfl := hq.unique hr
  cases i with
  | nop => exact List.mem_singleton.1 hstatus
  | init => exact List.mem_singleton.1 hstatus
  | _ => exact hstatus

/-! ## Parameters -/

/-- Settles O57: no effect a step can have is on the parameters. -/
theorem parametersNeverChange : Obligations.ParametersNeverChange := fun _ _ hstep => (step_effect hstep).params_eq

end Sys2Proof.Machine
end

section
/-! Rejections, and the way out of FAULT and ENDED. -/
namespace Sys2Proof.Machine

/-! ## A command is rejected with nothing done, or not at all -/

/-- The last event of `t` is a response that is no rejection. -/
def State.Accepted (t : State) : Prop := ∃ r, t.Answered r ∧ r.isReject = false

theorem State.Accepted.of_answered_ok {t : State} {r : Response} (h : t.Answered r) (hr : r.status = statusOk) :
    t.Accepted := ⟨r, h, by simp [Response.isReject, hr, statusOk]⟩

theorem State.Accepted.respond {r : Response} (s : State) (hr : r.status = statusOk) : (s.respond r).Accepted :=
  .of_answered_ok (s.answered_respond r) hr

/-- The codes of the faults are none of the rejections' (60_exceptions.md R211). -/
theorem State.Accepted.raiseFault (s : State) (c : FaultCause) : (s.raiseFault c).Accepted :=
  ⟨_, State.answered_respond _ _, by cases c <;> rfl⟩

theorem encodeKey_accepted (key : Key) {s : State} (hready : s.engine = .ready) : (encodeKey key s).Accepted := by
  obtain ⟨hne, -⟩ | ⟨-, -, h⟩ | ⟨-, -, ⟨leaf, -, ⟨-, h⟩ | ⟨-, h⟩⟩ | ⟨-, ⟨-, h⟩ | ⟨-, -, h⟩ | ⟨-, -, h⟩⟩⟩ :=
    encodeKey_cases key s
  · exact absurd hready hne
  all_goals rw [h]
  · exact .raiseFault s _
  · exact .raiseFault s _
  · exact .of_answered_ok (State.answered_finishEncode _ _ _ _) rfl
  · exact .raiseFault s _
  · exact .raiseFault s _
  · exact .of_answered_ok (State.answered_finishEncode _ _ _ _) rfl

theorem decodeEnd_accepted (n : Nat) (s : State) : (decodeEnd n s).Accepted := .respond _ rfl

theorem decodeLiteral_accepted (l : Literal) (n : Nat) (s : State) : (decodeLiteral l n s).Accepted := by
  unfold decodeLiteral
  cases l.kind with
  | endMark => exact decodeEnd_accepted n s
  | ord =>
    dsimp only
    obtain ⟨-, h⟩ | ⟨-, ⟨-, h⟩ | ⟨-, -, h⟩ | ⟨-, -, h⟩⟩ := decodeNew_cases (ordKey s.params l.value) n s
    all_goals rw [h]
    · exact .raiseFault s _
    · exact .raiseFault s _
    · exact .raiseFault s _
    · exact .respond _ rfl

theorem decodeKnown_accepted (x n : Nat) (s : State) : (decodeKnown x n s).Accepted := by
  cases hmax : s.atMaxWeight with
  | true => exact decodeKnown_of_atMaxWeight hmax ▸ .raiseFault s _
  | false =>
    by_cases hk : (s.tree.node x).kind = .endMarker
    · exact decodeKnown_of_endMarker hmax hk ▸ decodeEnd_accepted n _
    · exact decodeKnown_of_symbol hmax hk ▸ .respond _ rfl

theorem decodeFn_accepted {s t : State} (hready : s.engine = .ready) (h : decodeFn s = .done t) : t.Accepted := by
  obtain ⟨hne, -⟩ | ⟨-, -, e⟩ | ⟨-, -, ⟨-, e⟩ | ⟨n, -, e⟩ | ⟨n, -, e⟩ | ⟨x, n, -, e⟩⟩ := decodeFn_cases s
  · exact absurd hready hne
  all_goals rw [e] at h
  · cases h; exact .raiseFault _ _
  · cases h
  · cases h; exact .raiseFault _ _
  · cases h; exact .raiseFault _ _
  · obtain ⟨-, ⟨-, e⟩ | ⟨ls, -, e⟩ | ⟨l, ls, -, e⟩⟩ | ⟨-, e⟩ := decodeAtLeaf_cases x n s
    all_goals rw [e] at h; cases h
    · exact .raiseFault _ _
    · exact decodeLiteral_accepted l n _
    · exact decodeKnown_accepted x n _

theorem encodeKey_rejected_or_accepted (key : Key) (s : State) :
    (∃ c, encodeKey key s = s.raiseReject c) ∨ (encodeKey key s).Accepted := by
  by_cases hready : s.engine = .ready
  · exact .inr (encodeKey_accepted key hready)
  · exact .inl ⟨_, encodeKey_of_not_ready hready⟩

/-- A rejection comes first or not at all (60_exceptions.md R218). -/
theorem exec_rejected_or_accepted {i : Instr} {s t : State} (hholds : holds i s = false) (h : exec i s = .next t) :
    (∃ c, t = s.raiseReject c) ∨ t.Accepted := by
  cases i with
  | nop => cases h; exact .inr (.respond s rfl)
  | init => cases h; exact .inr (.respond s.restart rfl)
  | encode => cases h; exact encodeKey_rejected_or_accepted _ s
  | encodeNull => cases h; exact encodeKey_rejected_or_accepted _ s
  | decode =>
    obtain ⟨u, hd⟩ := (holds_decode_eq_false_iff s).1 hholds
    cases (exec_decode_of_done hd).symm.trans h
    by_cases hready : s.engine = .ready
    · exact .inr (decodeFn_accepted hready hd)
    · cases (decodeFn_of_not_ready hready).symm.trans hd
      exact .inl ⟨_, rfl⟩
  | readReg n =>
    obtain ⟨-, e⟩ | ⟨v, -, e⟩ := execReadReg_cases n s
    · cases e.symm.trans h; exact .inl ⟨_, rfl⟩
    · cases e.symm.trans h; exact .inr (.respond s rfl)
  | readNode k =>
    obtain ⟨-, e⟩ | ⟨-, e⟩ := execReadNode_cases k s
    · cases e.symm.trans h; exact .inr (.respond s rfl)
    · cases e.symm.trans h; exact .inl ⟨_, rfl⟩

/-- Settles O51: a command that ends in a rejection has raised it from the state it began in. -/
theorem rejectionsChangeNothing : Obligations.RejectionsChangeNothing := by
  intro i s t r hholds h hr hreject
  obtain ⟨c, rfl⟩ | ⟨q, hq, hno⟩ := exec_rejected_or_accepted hholds h
  · obtain rfl := (State.answered_respond s (.ofStatus c.code)).unique hr
    rfl
  · obtain rfl := hq.unique hr
    simp [hno] at hreject

/-! ## Outside READY -/

/-- Outside READY a command other than INIT does nothing but answer (44_host_commands.md R191): the stream commands are
rejected, and no answer is a fault's. -/
theorem exec_of_not_ready {i : Instr} {s : State} (hready : s.engine ≠ .ready) (hi : i ≠ .init) :
    ∃ r, exec i s = .next (s.respond r) ∧ r.isFault = false ∧
      (i = .encode ∨ i = .encodeNull ∨ i = .decode → r.status = RejectCode.notReady.code) := by
  cases i with
  | nop => exact ⟨_, rfl, rfl, by simp⟩
  | init => exact absurd rfl hi
  | encode => exact ⟨_, congrArg _ (encodeKey_of_not_ready hready), rfl, fun _ => rfl⟩
  | encodeNull => exact ⟨_, congrArg _ (encodeKey_of_not_ready hready), rfl, fun _ => rfl⟩
  | decode => exact ⟨_, exec_decode_of_done (decodeFn_of_not_ready hready), rfl, fun _ => rfl⟩
  | readReg n =>
    obtain ⟨-, e⟩ | ⟨v, -, e⟩ := execReadReg_cases n s
    · exact ⟨_, e, rfl, by simp⟩
    · exact ⟨_, e, rfl, by simp⟩
  | readNode k =>
    obtain ⟨-, e⟩ | ⟨-, e⟩ := execReadNode_cases k s
    · exact ⟨_, e, rfl, by simp⟩
    · exact ⟨_, e, rfl, by simp⟩

/-- Settles O55: INIT answers OK, any other command only answers, and an illegal word only answers ILLEGAL_COMMAND. -/
theorem faultsDoNotNest : Obligations.FaultsDoNotNest := by
  refine ⟨fun i s hfault => ?_, fun s w hfault hw ⟨e, he⟩ => ?_⟩
  · by_cases hi : i = .init
    · subst hi
      exact ⟨_, _, rfl, State.answered_respond _ _, rfl, by simp, fun h => absurd rfl h⟩
    · obtain ⟨r, h, hr, hstatus⟩ := exec_of_not_ready (s := s) (by simp [hfault]) hi
      exact ⟨_, r, h, s.answered_respond r, hr, hstatus, fun _ => ⟨hfault, rfl⟩⟩
  · exact ⟨_, _, step_of_decode_error hw he, s.answered_respond _, rfl, hfault, rfl⟩

/-- In the host's turn only the hardware reset changes REG.STATE. -/
theorem hardwareReset_of_hostTurn {s t : State} (h : hostTurn s = .next t) (hne : t.engine ≠ s.engine) :
    (∃ es, s.host = .hardwareReset :: es) ∧ t.Fresh := by
  obtain ⟨-, e⟩ | ⟨a, es, hhost, e⟩ := hostTurn_cases s
  · cases e.symm.trans h
    exact absurd rfl hne
  · obtain ⟨rfl, rfl⟩ | ⟨-, c, v, bi, li, bo, lo, rfl⟩ := hostAction_next (e.symm.trans h)
    · exact ⟨⟨es, hhost⟩, State.fresh_hardwareReset _⟩
    · exact absurd rfl hne

/-- Settles O54: outside READY no command but INIT, and no action of the host's but the hardware reset, touches
REG.STATE. -/
theorem onlyInitOrResetLeavesFaultAndEnded : Obligations.OnlyInitOrResetLeavesFaultAndEnded := by
  intro s t h hready hne
  obtain ⟨-, e⟩ | ⟨w, x, -, -, e⟩ | ⟨w, i, hw, hd, ⟨-, e⟩ | ⟨-, e⟩⟩ := step_cases s
  · exact (hardwareReset_of_hostTurn (e.symm.trans h) hne).imp_left .inr
  · cases e.symm.trans h
    exact absurd rfl hne
  · exact (hardwareReset_of_hostTurn (e.symm.trans h) hne).imp_left .inr
  · by_cases hi : i = .init
    · subst hi
      cases e.symm.trans h
      obtain ⟨hword, -⟩ := encodeOfDecodeIsIdentity w .init hd
      exact ⟨.inl (hw.trans (congrArg some hword.symm)), .of_initial rfl rfl rfl rfl rfl⟩
    · obtain ⟨r, hexec, -, -⟩ := exec_of_not_ready hready hi
      cases (e.trans hexec).symm.trans h
      exact absurd rfl hne

end Sys2Proof.Machine
end

section
/-! The host's turn with no command in flight. -/
namespace Sys2Proof.Machine

/-- With no command in flight the step is the host's turn (70_reset_and_hazards.md R241). -/
theorem step_of_idle {s : State} (hcmd : s.cmd = none) : step s = hostTurn s := by
  rw [step, hcmd]

theorem hostTurn_of_host_nil {s : State} (hhost : s.host = []) : hostTurn s = .next s := by
  rw [hostTurn, hhost]

theorem hostTurn_of_host_cons {s : State} {e : HostEvent} {es : List HostEvent} (hhost : s.host = e :: es) :
    hostTurn s = hostAction e { s with host := es } := by
  rw [hostTurn, hhost]

theorem hostAction_issue_of_idle {s : State} (hcmd : s.cmd = none) (w : CmdWord) (v : SymVal) :
    hostAction (.issue w v) s = .next (s.issue w v) := by
  rw [hostAction, hcmd]

theorem whenIdle_of_idle {s : State} (hcmd : s.cmd = none) (t : State) : whenIdle s t = .next t := by
  rw [whenIdle, hcmd]

/-- With no command in flight the host may remove the head of an input (70_reset_and_hazards.md R253, log 22). -/
theorem hostAction_dropBitIn_of_idle {s : State} {b : BitToken} {bs : List BitToken} (hcmd : s.cmd = none)
    (hbits : s.bitIn = b :: bs) : hostAction .dropBitIn s = .next { s with bitIn := bs } := by
  rw [hostAction, whenIdle_of_idle hcmd, hbits, List.tail_cons]

theorem hostAction_dropLitIn_of_idle {s : State} {l : LitToken} {ls : List LitToken} (hcmd : s.cmd = none)
    (hlits : s.litIn = l :: ls) : hostAction .dropLitIn s = .next { s with litIn := ls } := by
  rw [hostAction, whenIdle_of_idle hcmd, hlits, List.tail_cons]

/-- Settles O7: an idle step is the host's turn, and the action meets no command in flight that would refuse it. -/
theorem hostActionsLandWhenIdle : Obligations.HostActionsLandWhenIdle := by
  intro s es hcmd
  have hidle : { s with host := es }.cmd = none := hcmd
  have hact : ∀ {e}, s.host = e :: es → step s = hostAction e { s with host := es } :=
    fun h => (step_of_idle hcmd).trans (hostTurn_of_host_cons h)
  refine ⟨fun h => (step_of_idle hcmd).trans (hostTurn_of_host_nil h),
    fun w v h => (hact h).trans (hostAction_issue_of_idle hidle w v), fun b h => hact h, fun l h => hact h,
    fun b bs hb h => ?takeBit, fun l ls hl h => ?takeLit,
    fun b bs hb h => (hact h).trans (hostAction_dropBitIn_of_idle hidle hb),
    fun l ls hl h => (hact h).trans (hostAction_dropLitIn_of_idle hidle hl)⟩
  case takeBit => rw [hact h, hostAction, hb, List.tail_cons]
  case takeLit => rw [hact h, hostAction, hl, List.tail_cons]

end Sys2Proof.Machine
end
